-- ==== Sys2Proof/Word.lean ====
section
/-! DEFINITION. The word types of the block (spec/00_scope.md R5, R6, R7): a byte of the serial channel, a
32-bit register of the host window, a 64-bit operand, mask or ROM ID. -/

namespace Sys2Proof

/-- A byte of the serial channel, and the CRC-8 register (R5). -/
abbrev Byte := BitVec 8

/-- A register of the host window, and a command word (R6, R90). -/
abbrev Word := BitVec 32

/-- DATA, RX, MASK, NMASK, CAND, ROMID: 64 bits (R6). -/
abbrev DWord := BitVec 64

end Sys2Proof
end

