-- ==== Sys2Proof/Config.lean ====
section
/-! DEFINITION. What an implementation of the block fixes, the values the spec leaves open, and the 1-Wire
command bytes. A constant with no body is open: no proof can see its value. -/

namespace Sys2Proof

/-- RX_MAX less one: the spec asks only that RX_MAX be at least 1 (00_scope.md R6). Open; log entry 3. -/
opaque Config.rxMaxLessOne : Nat

/-- RX_MAX, the most bytes the receiver collects in one round trip (00_scope.md R6, 20_memory.md R73). -/
def Config.rxMax : Nat := Config.rxMaxLessOne + 1

/-- TIMEOUT_RESET, the reset value of TIMEOUT (00_scope.md R6, D17). Open; log entry 5. -/
opaque Config.timeoutReset : Word

/-- TICK, the unit of TIMEOUT (00_scope.md R6, D17). Open and read by no rule; log entry 6. -/
opaque Config.tick : Nat

/-- RESET_RATE, the symbol rate of the reset round trip (00_scope.md R6, D13). Open and read by no rule;
log entry 6. -/
opaque Config.resetRate : Nat

/-- SLOT_RATE less RESET_RATE less one. Open; log entry 6. -/
opaque Config.slotRateExcess : Nat

/-- SLOT_RATE, the symbol rate of every bit slot: above RESET_RATE, and nothing more is known of it
(00_scope.md R6, D13). -/
def Config.slotRate : Nat := Config.resetRate + Config.slotRateExcess + 1

/-- What the `k`-th drawn SerialRx brings in, before the receiver's limit RX_MAX (00_scope.md R11,
20_memory.md R73, I4, I5). A free value; log entry 3. -/
opaque Config.freeAnswer : Nat → List Byte

/-- The `k`-th drawn value of a read of a field that a running command may write (10_state.md R58, I2). A free
value; log entry 8. -/
opaque Config.freeRead : Nat → Word

/-- The 1-Wire ROM and function commands (30_encoding.md R97). -/
inductive RomCommand where
  | convertTemp | readScratchpad | writeScratchpad | copyScratchpad | recallEEPROM | readPowerSupply
  | searchROM | readROM | matchROM | skipROM | alarmSearch
  deriving DecidableEq, Repr

end Sys2Proof
end

