-- ==== Sys2Proof/Syntax.lean ====
section
/-! DEFINITION. The commands of the block: one constructor for each row of spec/opcode_table.json
(30_encoding.md R96). -/

namespace Sys2Proof

/-- A command, with the fields of its word that it uses (30_encoding.md R90 to R96). -/
inductive Instr where
  /-- OW.RESET (R118). -/
  | owReset
  /-- OW.WRBIT, with the bit B (R119). -/
  | owWrbit (b : Bool)
  /-- OW.RDBIT (R120). -/
  | owRdbit
  /-- OW.WRBITS, with the count N (R121). -/
  | owWrbits (n : Nat)
  /-- OW.RDBITS, with the count N (R122). -/
  | owRdbits (n : Nat)
  /-- OW.WRBYTE (R123). -/
  | owWrbyte
  /-- OW.RDBYTE (R124). -/
  | owRdbyte
  /-- CRC.CLR (R152). -/
  | crcClr
  /-- CRC.BIT, with the bit B (R153). -/
  | crcBit (b : Bool)
  /-- CRC.BITS, with the count N (R154). -/
  | crcBits (n : Nat)
  /-- SRCH.BEGIN, with the alarm-only mode A (R177). -/
  | srchBegin (a : Bool)
  /-- SRCH.PASS, with the alarm-only mode A (R178). -/
  | srchPass (a : Bool)
  /-- SRCH.NEXT (R179). -/
  | srchNext
  /-- ABORT (R190): no operand, bits 31:8 of its word are ignored. -/
  | abort
  deriving DecidableEq, Repr

end Sys2Proof
end

