-- ==== Sys2Proof/WellFormed.lean ====
section
/-! DEFINITION. Which terms of Instr are commands of the block: a count is 0..64 (30_encoding.md R92). -/

namespace Sys2Proof

/-- NMAX, the most bits one command moves (00_scope.md R6, D20). -/
def nMax : Nat := 64

/-- A count N is legal (30_encoding.md R92). -/
def countOk (n : Nat) : Bool := decide (n ≤ nMax)

/-- The operands are ones the encoding admits. -/
def Instr.wf : Instr → Bool
  | .owReset => true
  | .owWrbit _ => true
  | .owRdbit => true
  | .owWrbits n => countOk n
  | .owRdbits n => countOk n
  | .owWrbyte => true
  | .owRdbyte => true
  | .crcClr => true
  | .crcBit _ => true
  | .crcBits n => countOk n
  | .srchBegin _ => true
  | .srchPass _ => true
  | .srchNext => true
  | .abort => true

/-- `i` is a well-formed command. -/
abbrev WellFormed (i : Instr) : Prop := i.wf = true

end Sys2Proof
end

