-- ==== Sys2Proof/Decode.lean ====
section
/-! DEFINITION. The command word (spec/30_encoding.md): its fields, the decoder, total on every word and rejecting
by name (R98), the encoder, and the disassembly (R103). -/

namespace Sys2Proof

/-- The opcodes (R96), one a row of the opcode map. -/
inductive Opcode where
  | reset | wrbit | rdbit | wrbits | rdbits | wrbyte | rdbyte | crcClr | crcBit | crcBits
  | srchBegin | srchPass | srchNext | abort
  deriving DecidableEq, Repr

/-- Why the decoder rejects a word: the tests of R98, in their order. -/
inductive DecodeError where
  /-- Bits 7:0 are no opcode of R96. -/
  | reservedOpcode
  /-- A reserved bit (31:18 or 15) is set. -/
  | reservedBits
  /-- N is not 0 and the opcode uses no N. -/
  | unusedCount
  /-- B is not 0 and the opcode uses no B. -/
  | unusedBit
  /-- A is not 0 and the opcode uses no A. -/
  | unusedAlarm
  /-- N is above 64. -/
  | countTooLarge
  /-- Not one word of four bytes. -/
  | notOneWord
  deriving DecidableEq, Repr

/-- What the decoder answers. -/
inductive Decoded where
  | legal (i : Instr)
  | illegal (why : DecodeError)
  deriving DecidableEq, Repr

/-- The opcode map: OPC and the opcode it selects (R96). -/
def opcodeMap : List (Byte × Opcode) :=
  [(0x01#8, .reset), (0x02#8, .wrbit), (0x03#8, .rdbit), (0x04#8, .wrbits), (0x05#8, .rdbits),
   (0x06#8, .wrbyte), (0x07#8, .rdbyte), (0x10#8, .crcClr), (0x11#8, .crcBit), (0x12#8, .crcBits),
   (0x20#8, .srchBegin), (0x21#8, .srchPass), (0x22#8, .srchNext), (0x3F#8, .abort)]

/-- The opcode that OPC selects, none where it is reserved (R91, R96, R99). -/
def opcodeOf (opc : Byte) : Option Opcode :=
  (opcodeMap.find? fun row => row.1 == opc).map Prod.snd

/-- OPC, bits 7:0 (R90). -/
def opcField (w : Word) : Byte := w.extractLsb' 0 8

/-- N, bits 14:8, unsigned (R92). -/
def nField (w : Word) : Nat := (w.extractLsb' 8 7).toNat

/-- B, bit 16 (R93). -/
def bField (w : Word) : Bool := w.getLsbD 16

/-- A, bit 17 (R94). -/
def aField (w : Word) : Bool := w.getLsbD 17

/-- Some reserved bit, 31:18 or 15, is set (R95). -/
def reservedSet (w : Word) : Bool := w.extractLsb' 18 14 != 0#14 || w.getLsbD 15

/-- The opcode uses N (R92, R96). -/
def Opcode.usesN : Opcode → Bool
  | .wrbits | .rdbits | .crcBits => true
  | .reset | .wrbit | .rdbit | .wrbyte | .rdbyte | .crcClr | .crcBit | .srchBegin | .srchPass
  | .srchNext | .abort => false

/-- The opcode uses B (R93, R96). -/
def Opcode.usesB : Opcode → Bool
  | .wrbit | .crcBit => true
  | .reset | .rdbit | .wrbits | .rdbits | .wrbyte | .rdbyte | .crcClr | .crcBits | .srchBegin
  | .srchPass | .srchNext | .abort => false

/-- The opcode uses A (R94, R96). -/
def Opcode.usesA : Opcode → Bool
  | .srchBegin | .srchPass => true
  | .reset | .wrbit | .rdbit | .wrbits | .rdbits | .wrbyte | .rdbyte | .crcClr | .crcBit | .crcBits
  | .srchNext | .abort => false

/-- The command an opcode and its fields stand for. -/
def Opcode.instr (op : Opcode) (n : Nat) (b a : Bool) : Instr :=
  match op with
  | .reset => .owReset
  | .wrbit => .owWrbit b
  | .rdbit => .owRdbit
  | .wrbits => .owWrbits n
  | .rdbits => .owRdbits n
  | .wrbyte => .owWrbyte
  | .rdbyte => .owRdbyte
  | .crcClr => .crcClr
  | .crcBit => .crcBit b
  | .crcBits => .crcBits n
  | .srchBegin => .srchBegin a
  | .srchPass => .srchPass a
  | .srchNext => .srchNext
  | .abort => .abort

/-- The decoder (R98): ABORT by its opcode alone, whatever bits 31:8 hold (R190), and every other word by the
tests of R98 in their order. -/
def decode (w : Word) : Decoded :=
  match opcodeOf (opcField w) with
  | none => .illegal .reservedOpcode
  | some op =>
    if op = .abort then .legal .abort
    else if reservedSet w then .illegal .reservedBits
    else if !op.usesN && nField w != 0 then .illegal .unusedCount
    else if !op.usesB && bField w then .illegal .unusedBit
    else if !op.usesA && aField w then .illegal .unusedAlarm
    else if op.usesN && decide (nMax < nField w) then .illegal .countTooLarge
    else .legal (op.instr (nField w) (bField w) (aField w))

/-- A field of `n` bits placed in a word with its bit 0 at bit `lo` (00_scope.md R7). -/
def atBit {n : Nat} (v : BitVec n) (lo : Nat) : Word := v.setWidth 32 <<< lo

/-- The command word of four bytes on the host's byte lanes, lane 0 first (20_memory.md R63). -/
def wordOfBytes (b0 b1 b2 b3 : Byte) : Word := atBit b3 24 ||| atBit b2 16 ||| atBit b1 8 ||| atBit b0 0

/-- The decoder on bytes: exactly one word (R101). -/
def decodeBytes : List Byte → Decoded
  | [b0, b1, b2, b3] => decode (wordOfBytes b0 b1 b2 b3)
  | [] | [_] | [_, _] | [_, _, _] | _ :: _ :: _ :: _ :: _ :: _ => .illegal .notOneWord

/-- The instruction the decoder reads from the bits `w` of an opcode-table row of `nbits` bits. -/
def decodeTableWord (nbits w : Nat) : Option Instr :=
  match decode (BitVec.ofNat 32 (w % 2 ^ nbits)) with
  | .legal i => some i
  | .illegal _ => none

/-- A command word from its fields: A at bit 17, B at 16, N at 14:8, OPC at 7:0, the reserved bits 0 (R90, R95). -/
def commandWord (a b : Bool) (n : Nat) (opc : Byte) : Word :=
  atBit (BitVec.ofBool a) 17 ||| atBit (BitVec.ofBool b) 16 ||| atBit (BitVec.ofNat 7 n) 8 ||| atBit opc 0

/-- The encoder: the word of a command, every field it does not use 0 (R90 to R96); ABORT's canonical word
(R190). -/
def encode : Instr → Word
  | .owReset => commandWord false false 0 0x01#8
  | .owWrbit b => commandWord false b 0 0x02#8
  | .owRdbit => commandWord false false 0 0x03#8
  | .owWrbits n => commandWord false false n 0x04#8
  | .owRdbits n => commandWord false false n 0x05#8
  | .owWrbyte => commandWord false false 0 0x06#8
  | .owRdbyte => commandWord false false 0 0x07#8
  | .crcClr => commandWord false false 0 0x10#8
  | .crcBit b => commandWord false b 0 0x11#8
  | .crcBits n => commandWord false false n 0x12#8
  | .srchBegin a => commandWord a false 0 0x20#8
  | .srchPass a => commandWord a false 0 0x21#8
  | .srchNext => commandWord false false 0 0x22#8
  | .abort => commandWord false false 0 0x3F#8

/-- A bit as the host syntax writes it. -/
def bitText (b : Bool) : String := if b then "1" else "0"

/-- The alarm operand as the host syntax writes it: absent for a normal search. -/
def alarmText (a : Bool) : String := if a then " alarm" else ""

/-- The disassembly of a command: its mnemonic and its used field (R103). -/
def Instr.text : Instr → String
  | .owReset => "OW.RESET"
  | .owWrbit b => "OW.WRBIT " ++ bitText b
  | .owRdbit => "OW.RDBIT"
  | .owWrbits n => "OW.WRBITS " ++ toString n
  | .owRdbits n => "OW.RDBITS " ++ toString n
  | .owWrbyte => "OW.WRBYTE"
  | .owRdbyte => "OW.RDBYTE"
  | .crcClr => "CRC.CLR"
  | .crcBit b => "CRC.BIT " ++ bitText b
  | .crcBits n => "CRC.BITS " ++ toString n
  | .srchBegin a => "SRCH.BEGIN" ++ alarmText a
  | .srchPass a => "SRCH.PASS" ++ alarmText a
  | .srchNext => "SRCH.NEXT"
  | .abort => "ABORT"

/-- One hexadecimal digit, capitals as R103 shows them. -/
def hexDigit (d : Nat) : Char :=
  if d < 10 then Char.ofNat (48 + d) else Char.ofNat (55 + d)

/-- A word as eight hexadecimal digits. -/
def hexWord (w : Word) : String :=
  String.ofList ((List.range 8).map fun k => hexDigit ((w.toNat / 16 ^ (7 - k)) % 16))

/-- The disassembly of a word (R103). -/
def disassemble (w : Word) : String :=
  match decode w with
  | .legal i => i.text
  | .illegal _ => ".illegal 0x" ++ hexWord w

end Sys2Proof
end

