-- ==== Sys2Proof/Machine/State.lean ====
section
/-! DEFINITION. The state of the block: every register of the host window (spec/10_state.md R20 to R49), the
sequencer's internal state (R50 to R52), and the record of the outside world that the step reads and writes
(20_memory.md R70, 00_scope.md R10, R11). Plain data throughout. -/

namespace Sys2Proof.Machine

/-- The two transmission rates (00_scope.md R5, 10_state.md R28): RESET_RATE is code 0, SLOT_RATE code 1. -/
inductive Rate where
  | reset | slot
  deriving DecidableEq, Repr

/-- The error codes 0 to 7 of STATUS.ERRCODE (60_exceptions.md R210). -/
inductive ErrCode where
  | ok | wiringFault | invalidByte | protocolViolation | checksumMismatch | illegalCommand
  | sequenceError | aborted
  deriving DecidableEq, Repr

/-- The outcome of a search pass (10_state.md R43, codes 1 to 5). -/
inductive PassOutcome where
  | noPresence | valid | crcBad | noResponse | violation
  deriving DecidableEq, Repr

/-- int.PHASE (10_state.md R50). -/
inductive Phase where
  | idle | run
  deriving DecidableEq, Repr

/-- Where the sequencer stands in a search command's rule (42_search.md R173): which round trip of the pass comes
next, with what the rule remembers there. A command that is no search stays at `start`. -/
inductive Stage where
  /-- Nothing of the rule has run. -/
  | start
  /-- Next is the pass's reset round trip. -/
  | passReset
  /-- Next is the slot of bit `i` of the pass's command byte. -/
  | passCmd (i : Nat)
  /-- Next is the value slot of position int.POS. -/
  | value
  /-- Next is the complement slot; the value slot sampled `v`. -/
  | complement (v : Bool)
  /-- Next is the write-back slot of the selected bit `b`. -/
  | select (b : Bool)
  /-- The pass has ended with outcome `o`, which is not yet recorded. -/
  | passEnd (o : PassOutcome)
  deriving DecidableEq, Repr

/-- The stored fields of STATUS (10_state.md R23 to R29). BUSY is not stored: it is int.PHASE = RUN (R50). -/
structure Status where
  err : Bool
  adv : Bool
  ovr : Bool
  presence : Bool
  sample : Bool
  rate : Rate
  errcode : ErrCode
  deriving DecidableEq, Repr

/-- The fields of SSTAT (10_state.md R39 to R45); `pout = none` is NONE. -/
structure SStat where
  active : Bool
  done : Bool
  alarm : Bool
  idv : Bool
  pout : Option PassOutcome
  scrc : Byte
  failPos : BitVec 6
  deriving DecidableEq, Repr

/-- The sequencer (10_state.md R50 to R52). -/
structure Sequencer where
  /-- int.PHASE. -/
  phase : Phase
  /-- int.CMDW, the latched command word. -/
  cmdw : Word
  /-- int.ABORTREQ. -/
  abortReq : Bool
  /-- The place in the command's rule. -/
  stage : Stage
  /-- A SerialTx has happened whose SerialRx is outstanding (20_memory.md R71). -/
  inFlight : Bool
  /-- The index of the next round trip of the command. -/
  index : Nat
  /-- int.ACC, the bits sampled so far. -/
  acc : DWord
  /-- int.M0, the pass's input mask. -/
  m0 : DWord
  /-- int.W, the working mask. -/
  w : DWord
  /-- int.CANDACC, the candidate being built. -/
  candAcc : DWord
  /-- int.POS, the position. -/
  pos : Nat
  /-- int.SCRC, the private CRC accumulator. -/
  scrc : Byte
  deriving DecidableEq, Repr

/-- The three events of the serial port (20_memory.md R70). -/
inductive SerialEvent where
  | setRate (r : Rate)
  | tx (b : Byte)
  | rx (bytes : List Byte)
  deriving DecidableEq, Repr

/-- A host access: its byte offset in the window and its size in bytes (20_memory.md R60, R61). -/
inductive HostAccess where
  | read (addr : BitVec 8) (size : Nat)
  | write (addr : BitVec 8) (size : Nat) (v : Word)
  deriving DecidableEq, Repr

/-- What happens next, as data: the order R11 of 00_scope.md leaves open. -/
inductive Move where
  /-- The host makes one access. -/
  | host (a : HostAccess)
  /-- The sequencer takes `n` turns. -/
  | turns (n : Nat)
  /-- The platform asserts the reset input (70_reset_and_hazards.md R240). -/
  | blockReset
  /-- The platform asserts the reset input inside the sequencer's next turn: after the SerialSetRate of a round trip and
  before its SerialTx, where the turn makes both (R240: between two serial events). -/
  | blockResetAfterRate
  deriving DecidableEq, Repr

/-- The outside world as data, and the record of what the block did to it. Of these only `events` is the spec's
(20_memory.md R70); the others are the model's own (log entries 1, 3, 4, 14). -/
structure World where
  /-- What happens next, first first. -/
  moves : List Move
  /-- What the next SerialRx events bring in, first first. -/
  answers : List (List Byte)
  /-- How many free values have been drawn. -/
  draws : Nat
  /-- The event history, oldest first. -/
  events : List SerialEvent
  /-- The offset and the value of every host read, oldest first. -/
  reads : List (BitVec 8 × Word)
  deriving DecidableEq, Repr

/-- The names of the registers of the window (10_state.md R20). -/
inductive Reg where
  | cmd | status | dataLo | dataHi | rxLo | rxHi | crc | timeout | maskLo | maskHi | nmaskLo | nmaskHi
  | candLo | candHi | romidLo | romidHi | sstat | retries | retryLimit | idcount | idr
  deriving DecidableEq, Repr

/-- The state of the block. -/
structure State where
  cmd : Word
  status : Status
  data : DWord
  rx : DWord
  crc : Byte
  timeout : Word
  mask : DWord
  nmask : DWord
  cand : DWord
  romid : DWord
  sstat : SStat
  retries : Word
  retryLimit : Word
  idcount : Word
  seq : Sequencer
  world : World
  deriving DecidableEq, Repr

/-- Why the machine stops with a fault: never. The block's errors end the running command (60_exceptions.md R210,
R212) and the machine goes on, so no constructor is needed; log entry 18. -/
inductive Fault where
  deriving DecidableEq, Repr

/-- Why a step is refused. -/
inductive Refusal where
  /-- An instruction with no meaning yet, by its mnemonic. Raised by no arm of this model. Safe. -/
  | notModelled (mnemonic : String)
  /-- A host access that is not an aligned 32-bit access: implementation-defined, and "a model refuses a program
  that makes one" (20_memory.md R61, 93_implementation_defined.md I1). Raised by the host access operation. Safe. -/
  | hostAccessForm
  deriving DecidableEq, Repr

/-- STATUS after block reset (10_state.md R57). -/
def Status.reset : Status :=
  { err := false, adv := false, ovr := false, presence := false, sample := false, rate := .reset, errcode := .ok }

/-- SSTAT with every field 0: after block reset (R57), and what SEARCH_BEGIN writes first (42_search.md R177). -/
def SStat.zero : SStat :=
  { active := false, done := false, alarm := false, idv := false, pout := none, scrc := 0#8, failPos := 0#6 }

/-- The sequencer in IDLE, no abort pending (10_state.md R50, R51, R57), its progress discarded (R52; the values of
the discarded fields are log entry 7). -/
def Sequencer.idle : Sequencer :=
  { phase := .idle, cmdw := 0#32, abortReq := false, stage := .start, inFlight := false, index := 0,
    acc := 0#64, m0 := 0#64, w := 0#64, candAcc := 0#64, pos := 0, scrc := 0#8 }

/-- The world at block reset: nothing scheduled, and the one event of 70_reset_and_hazards.md R241. -/
def World.reset : World :=
  { moves := [], answers := [], draws := 0, events := [.setRate .reset], reads := [] }

/-- The block right after reset (10_state.md R57, 70_reset_and_hazards.md R241). -/
def State.reset : State :=
  { cmd := 0#32, status := Status.reset, data := 0#64, rx := 0#64, crc := 0#8, timeout := Config.timeoutReset,
    mask := 0#64, nmask := 0#64, cand := 0#64, romid := 0#64, sstat := SStat.zero, retries := 0#32,
    retryLimit := 0#32, idcount := 0#32, seq := Sequencer.idle, world := World.reset }

end Sys2Proof.Machine
end

