-- ==== Sys2Proof/Machine/Flags.lean ====
section
/-! DEFINITION. The flags of the block: how STATUS and SSTAT are laid out as words (spec/10_state.md R22 to R30, R39
to R45), what a host write of STATUS clears, and what an echo means for PRESENCE and SAMPLE
(40_signal_codec.md R114, R115). -/

namespace Sys2Proof.Machine

/-- The numeric rate a Rate stands for (00_scope.md R6). -/
def Rate.symbolRate : Rate → Nat
  | .reset => Config.resetRate
  | .slot => Config.slotRate

/-- STATUS.RATE: 0 for RESET_RATE, 1 for SLOT_RATE (10_state.md R28). -/
def Rate.bit : Rate → Bool
  | .reset => false
  | .slot => true

/-- The numeric codes (60_exceptions.md R210). -/
def ErrCode.code : ErrCode → BitVec 4
  | .ok => 0#4
  | .wiringFault => 1#4
  | .invalidByte => 2#4
  | .protocolViolation => 3#4
  | .checksumMismatch => 4#4
  | .illegalCommand => 5#4
  | .sequenceError => 6#4
  | .aborted => 7#4

/-- The codes of POUT (10_state.md R43). -/
def PassOutcome.code : PassOutcome → BitVec 3
  | .noPresence => 1#3
  | .valid => 2#3
  | .crcBad => 3#3
  | .noResponse => 4#3
  | .violation => 5#3

/-- SSTAT.POUT, NONE being 0 (10_state.md R43). -/
def poutCode : Option PassOutcome → BitVec 3
  | none => 0#3
  | some o => o.code

/-- A flag placed at its bit of a word. -/
def flagAt (b : Bool) (k : Nat) : Word := atBit (BitVec.ofBool b) k

/-- STATUS as a word: ERRCODE at 11:8, RATE 6, SAMPLE 5, PRESENCE 4, OVR 3, ADV 2, ERR 1, BUSY 0, the reserved bits 7
and 31:12 zero (10_state.md R22 to R30). -/
def Status.word (busy : Bool) (st : Status) : Word :=
  atBit st.errcode.code 8 ||| flagAt st.rate.bit 6 ||| flagAt st.sample 5 ||| flagAt st.presence 4 ||| flagAt st.ovr 3
    ||| flagAt st.adv 2 ||| flagAt st.err 1 ||| flagAt busy 0

/-- SSTAT as a word: FAILPOS at 21:16, SCRC at 15:8, POUT at 6:4, IDV 3, ALARM 2, DONE 1, ACTIVE 0, the reserved bits 7
and 31:22 zero (10_state.md R39 to R45). -/
def SStat.word (ss : SStat) : Word :=
  atBit ss.failPos 16 ||| atBit ss.scrc 8 ||| atBit (poutCode ss.pout) 4 ||| flagAt ss.idv 3 ||| flagAt ss.alarm 2
    ||| flagAt ss.done 1 ||| flagAt ss.active 0

/-- A host write of STATUS: bits 1 to 3 are cleared where the written value has a 1, and nothing else changes
(10_state.md R23, R24, R25, R30). -/
def Status.clearSticky (v : Word) (st : Status) : Status :=
  { st with err := st.err && !v.getLsbD 1, adv := st.adv && !v.getLsbD 2, ovr := st.ovr && !v.getLsbD 3 }

/-- PRESENCE from the echo of a reset round trip: the unsigned comparison with 0xF0 (40_signal_codec.md R114). -/
def presenceOf (echo : Byte) : Bool := decide (echo < 0xF0#8)

/-- The sampled bit from the echo of a bit slot: 1 exactly when the echo is 0xFF (40_signal_codec.md R115). -/
def sampleOf (echo : Byte) : Bool := echo == 0xFF#8

/-- The bits of STATUS a running command may write: ERRCODE, RATE, SAMPLE, PRESENCE, ADV and ERR (10_state.md R58). -/
def statusOpenBits : Word := 0x00000F76#32

/-- The bits of SSTAT that are fields (10_state.md R39 to R45); all of them are open while busy (R58). -/
def sstatFieldBits : Word := 0x003FFF7F#32

/-- The bits of CRC that are the register (10_state.md R33). -/
def crcFieldBits : Word := 0x000000FF#32

/-- STATUS as a read returns it while busy, the open fields taken from `draw`: BUSY reads 1, OVR its value, reserved
bits 0 (10_state.md R30, R58). -/
def busyStatusWord (draw : Word) (st : Status) : Word :=
  (draw &&& statusOpenBits) ||| (st.word true &&& ~~~statusOpenBits)

end Sys2Proof.Machine
end

