-- ==== Sys2Proof/Machine/Operands.lean ====
section
/-! DEFINITION. Operands and operand registers: the halves of a 64-bit quantity (spec/20_memory.md R63), bit `i` of
a value as the wire orders it (00_scope.md R8), the bytes that carry a bit (40_signal_codec.md R115), the 1-Wire
command bytes (30_encoding.md R97), and the offsets of the registers (10_state.md R20). -/

namespace Sys2Proof.Machine

/-- X_LO, bits 31:0 (20_memory.md R63). -/
def loHalf (x : DWord) : Word := x.extractLsb' 0 32

/-- X_HI, bits 63:32 (20_memory.md R63). -/
def hiHalf (x : DWord) : Word := x.extractLsb' 32 32

/-- `X = X_HI ++ X_LO` (20_memory.md R63, 10_state.md R31). -/
def joinHalves (hi lo : Word) : DWord := hi.setWidth 64 <<< 32 ||| lo.setWidth 64

/-- A write of X_LO. -/
def withLo (x : DWord) (v : Word) : DWord := joinHalves (hiHalf x) v

/-- A write of X_HI. -/
def withHi (x : DWord) (v : Word) : DWord := joinHalves v (loHalf x)

/-- `x[i] <- b` (00_scope.md R7). -/
def putBit (x : DWord) (i : Nat) (b : Bool) : DWord :=
  if b then x ||| (1#64 <<< i) else x &&& ~~~(1#64 <<< i)

/-- The byte a write slot sends for a bit (40_signal_codec.md R115). -/
def slotByte (b : Bool) : Byte := if b then 0xFF#8 else 0x00#8

/-- The byte of a read slot (40_signal_codec.md R115). -/
def readSlotByte : Byte := 0xFF#8

/-- The byte of a reset round trip (40_signal_codec.md R114). -/
def resetByte : Byte := 0xF0#8

/-- The command bytes of the 1-Wire bus (30_encoding.md R97). -/
def romCommandByte : RomCommand → Byte
  | .convertTemp => 0x44#8
  | .readScratchpad => 0xBE#8
  | .writeScratchpad => 0x4E#8
  | .copyScratchpad => 0x48#8
  | .recallEEPROM => 0xB8#8
  | .readPowerSupply => 0xB4#8
  | .searchROM => 0xF0#8
  | .readROM => 0x33#8
  | .matchROM => 0x55#8
  | .skipROM => 0xCC#8
  | .alarmSearch => 0xEC#8

/-- The command byte of a search pass (42_search.md R173). -/
def searchByte (alarm : Bool) : Byte :=
  if alarm then romCommandByte .alarmSearch else romCommandByte .searchROM

/-- The offset of a register in the window (10_state.md R20). -/
def Reg.offset : Reg → BitVec 8
  | .cmd => 0x00#8
  | .status => 0x04#8
  | .dataLo => 0x08#8
  | .dataHi => 0x0C#8
  | .rxLo => 0x10#8
  | .rxHi => 0x14#8
  | .crc => 0x18#8
  | .timeout => 0x1C#8
  | .maskLo => 0x20#8
  | .maskHi => 0x24#8
  | .nmaskLo => 0x28#8
  | .nmaskHi => 0x2C#8
  | .candLo => 0x30#8
  | .candHi => 0x34#8
  | .romidLo => 0x38#8
  | .romidHi => 0x3C#8
  | .sstat => 0x40#8
  | .retries => 0x44#8
  | .retryLimit => 0x48#8
  | .idcount => 0x4C#8
  | .idr => 0x50#8

/-- The registers in the order of their offsets (10_state.md R20). -/
def allRegs : List Reg :=
  [.cmd, .status, .dataLo, .dataHi, .rxLo, .rxHi, .crc, .timeout, .maskLo, .maskHi, .nmaskLo, .nmaskHi,
   .candLo, .candHi, .romidLo, .romidHi, .sstat, .retries, .retryLimit, .idcount, .idr]

/-- The register at an offset, none where the offset is unmapped (20_memory.md R62). -/
def regAt (addr : BitVec 8) : Option Reg := allRegs.find? fun r => r.offset == addr

/-- IDR, a constant (10_state.md R49). -/
def idrValue : Word := 0x4F570001#32

end Sys2Proof.Machine
end

