-- ==== Sys2Proof/Machine/Ops.lean ====
section
/-! DEFINITION. The shared operations of the sequencer: acceptance, the two ends of a command (an error, spec
60_exceptions.md R212, and success, R213), the serial events (20_memory.md R70 to R75), the round trip
(40_signal_codec.md R110 to R113) cut into its transmit turn and its receive turn, the turns a schedule grants, and
block reset (70_reset_and_hazards.md R241, R242). -/

namespace Sys2Proof.Machine

/-! ### The life of a command (60_exceptions.md R211) -/

/-- A command is running: STATUS.BUSY (10_state.md R22, R50). -/
def State.busy (s : State) : Bool := s.seq.phase == .run

/-- Acceptance (R211 step 1, 30_encoding.md R98, 10_state.md R21): the word is latched, CMD reads it, BUSY is 1, and
the progress starts afresh. -/
def accept (w : Word) (s : State) : State :=
  { s with cmd := w, seq := { Sequencer.idle with phase := .run, cmdw := w } }

/-- The completion step's part that both ends share (R211 step 3): PHASE, BUSY and ABORTREQ, and the progress is
discarded. -/
def complete (s : State) : State := { s with seq := Sequencer.idle }

/-- `raise E` (R212): the code, the sticky ERR, and completion. Nothing else is saved. -/
def raise (e : ErrCode) (s : State) : State :=
  complete { s with status := { s.status with errcode := e, err := true } }

/-- Success (R213): the code 0, ERR kept, and completion. -/
def succeed (s : State) : State :=
  complete { s with status := { s.status with errcode := .ok } }

/-! ### The serial port (20_memory.md R70 to R75) -/

/-- Record an event (R70). -/
def emit (e : SerialEvent) (s : State) : State :=
  { s with world := { s.world with events := s.world.events ++ [e] } }

/-- SetRate (40_signal_codec.md R111): an event only when the rate changes. -/
def setRate (r : Rate) (s : State) : State :=
  if s.status.rate = r then s
  else emit (.setRate r) { s with status := { s.status with rate := r } }

/-- SerialTx (20_memory.md R70, R75): the byte is sent, and its round trip is in flight. -/
def serialTx (b : Byte) (s : State) : State :=
  emit (.tx b) { s with seq := { s.seq with inFlight := true } }

/-- At most `k` bytes of what came in (20_memory.md R73: a receive returns at most RX_MAX). -/
def collect : List Byte → Nat → List Byte
  | [], _ => []
  | _ :: _, 0 => []
  | b :: rest, k + 1 => b :: collect rest k

/-- What the `k`-th SerialRx from now returns: the environment's scripted answer, a free value past those, in
either case at most RX_MAX bytes (20_memory.md R73, 00_scope.md R11). -/
def World.answer (w : World) (k : Nat) : List Byte :=
  collect (w.answers.getD k (Config.freeAnswer (w.draws + (k - w.answers.length)))) Config.rxMax

/-- The world after one SerialRx has been answered. -/
def World.popAnswer (w : World) : World :=
  match w.answers with
  | [] => { w with draws := w.draws + 1 }
  | _ :: rest => { w with answers := rest }

/-- SerialRx (20_memory.md R70, R73): the event with what it returned; the round trip is no longer in flight, and
the next one has the next index. -/
def serialRx (s : State) : State :=
  emit (.rx (s.world.answer 0))
    { s with world := s.world.popAnswer, seq := { s.seq with inFlight := false, index := s.seq.index + 1 } }

/-! ### The round trip (40_signal_codec.md R110) -/

/-- The transmit turn of a round trip: a pending abort ends the command here (43_control.md R191), else the rate is
set and the byte sent. `onError` is what an error of the running command writes besides STATUS (10_state.md R59). -/
def startRoundTrip (onError : State → State) (r : Rate) (b : Byte) (s : State) : State :=
  if s.seq.abortReq then raise .aborted (onError s) else serialTx b (setRate r s)

/-- STATUS.ADV after a receive (40_signal_codec.md R113). -/
def noteExtra (answer : List Byte) (s : State) : State :=
  if 1 < answer.length then { s with status := { s.status with adv := true } } else s

/-- The receive turn of a round trip: an empty receive ends the command with WIRING_FAULT (R112), else the first byte
is the echo (R110, R113). -/
def receive (onError : State → State) (onEcho : Byte → State → State) (s : State) : State :=
  match s.world.answer 0 with
  | [] => raise .wiringFault (onError (serialRx s))
  | echo :: extra => onEcho echo (noteExtra (echo :: extra) (serialRx s))

/-- STATUS.PRESENCE from an echo (R114). -/
def notePresence (echo : Byte) (s : State) : State :=
  { s with status := { s.status with presence := presenceOf echo } }

/-- STATUS.SAMPLE from an echo (R115). -/
def noteSample (echo : Byte) (s : State) : State :=
  { s with status := { s.status with sample := sampleOf echo } }

/-! ### Turns of the sequencer -/

/-- A command as the sequencer runs it. `boundary` is its turn outside a round trip: it starts the next round trip
or ends the command. `onEcho` is what it does with an echo. `onError` is what an error writes besides STATUS. -/
structure Command where
  boundary : State → State
  onEcho : Byte → State → State
  onError : State → State

/-- One turn of a running command with round trips: the receive of a round trip in flight, else a turn at the
boundary. -/
def Command.turn (c : Command) (s : State) : State :=
  if s.seq.inFlight then receive c.onError c.onEcho s else c.boundary s

/-- At most `n` turns, `turn` each; none once the command has ended (60_exceptions.md R211, 70_reset_and_hazards.md
R243: an idle block waits). A command with no round trip has one turn, its whole body. -/
def runTurns (turn : State → State) : Nat → State → State
  | 0, s => s
  | n + 1, s =>
    match s.seq.phase with
    | .idle => s
    | .run => runTurns turn n (turn s)

/-- How many turns the sequencer takes before anyone else acts: what the schedule says next, one turn when nothing is
scheduled, none when the host or the platform acts next (00_scope.md R11; log entry 1). -/
def World.grant (w : World) : Nat :=
  match w.moves with
  | [] => 1
  | .turns n :: _ => n
  | .host _ :: _ => 0
  | .blockReset :: _ => 0
  | .blockResetAfterRate :: _ => 0

/-- The world with that grant used up. -/
def World.useGrant (w : World) : World :=
  match w.moves with
  | [] => w
  | .turns _ :: rest => { w with moves := rest }
  | .host _ :: _ => w
  | .blockReset :: _ => w
  | .blockResetAfterRate :: _ => w

/-- The sequencer takes the turns it is granted. -/
def runGranted (turn : State → State) (s : State) : State :=
  runTurns turn s.world.grant { s with world := s.world.useGrant }

/-- A command word meets the block: an idle block accepts it, and a block that is running goes on; then the sequencer
takes the turns it is granted (R211). -/
def launch (w : Word) (turn : State → State) (s : State) : State :=
  match s.seq.phase with
  | .idle => runGranted turn (accept w s)
  | .run => runGranted turn s

/-! ### Block reset (70_reset_and_hazards.md R240 to R242) -/

/-- BlockReset: every field at its reset value, the running command discarded, and the one event
SerialSetRate(RESET_RATE). The history and the outside world go on. -/
def blockReset (s : State) : State :=
  emit (.setRate .reset) { State.reset with world := s.world }

/-- The events of a turn up to a rate change that a transmit follows, none where it makes no such pair (R240). -/
def untilTransmit : List SerialEvent → List SerialEvent
  | .setRate r :: .tx _ :: _ => [.setRate r]
  | [] | [.setRate _] | .setRate _ :: .setRate _ :: _ | .setRate _ :: .rx _ :: _ | .tx _ :: _ | .rx _ :: _ => []

/-- BlockReset inside a turn that takes `s` to `t`: the rate change that the turn makes before a transmit has happened,
and nothing after it (R240, R242). -/
def blockResetWithin (s t : State) : State :=
  blockReset { s with world := { s.world with
    events := s.world.events ++ untilTransmit (t.world.events.drop s.world.events.length) } }

end Sys2Proof.Machine
end

