-- ==== Sys2Proof/Machine/Codec.lean ====
section
/-! DEFINITION. The Signal Codec commands (spec/40_signal_codec.md R114 to R126). -/

namespace Sys2Proof.Machine

/-- An error of a codec command writes nothing besides STATUS (10_state.md R59). -/
def noErrorWrites (s : State) : State := s

/-- A turn at the boundary of a command of `n` bit slots: the slot of the next index sends `byteAt` of it, and after
the last slot the command ends in `finish` (40_signal_codec.md R117: one slot after the other, in order). -/
def slotBoundary (n : Nat) (byteAt : State → Nat → Byte) (finish : State → State) (s : State) : State :=
  if s.seq.index < n then startRoundTrip noErrorWrites .slot (byteAt s s.seq.index) s else finish s

/-- The echo of a codec bit slot: SAMPLE, and the sampled bit at its own index of int.ACC (R115, R122; the receive has
moved the index on). -/
def slotEcho (echo : Byte) (s : State) : State :=
  noteSample echo { s with seq := { s.seq with acc := putBit s.seq.acc (s.seq.index - 1) (sampleOf echo) } }

/-- Slot `i` of a write of DATA sends `DATA[i]` (R121). -/
def dataSlotByte (s : State) (i : Nat) : Byte := slotByte (s.data.getLsbD i)

/-- Every slot of a read is a read slot (R115). -/
def readSlots (_ : State) (_ : Nat) : Byte := readSlotByte

/-- The end of a read command: `RX <- acc`, and success (R120, R122, R124; 10_state.md R32). -/
def finishRead (s : State) : State := succeed { s with rx := s.seq.acc }

/-- A command of `n` write slots of DATA (R121). -/
def writeSlotsCommand (n : Nat) : Command where
  boundary := slotBoundary n dataSlotByte succeed
  onEcho := slotEcho
  onError := noErrorWrites

/-- A command of `n` read slots (R122). -/
def readSlotsCommand (n : Nat) : Command where
  boundary := slotBoundary n readSlots finishRead
  onEcho := slotEcho
  onError := noErrorWrites

/-! ### OW.RESET (R114, R118) -/

/-- One reset round trip, then success. -/
def resetBoundary (s : State) : State :=
  if s.seq.index = 0 then startRoundTrip noErrorWrites .reset resetByte s else succeed s

/-- RESET as the sequencer runs it. -/
def resetCommand : Command where
  boundary := resetBoundary
  onEcho := notePresence
  onError := noErrorWrites

/-- OW.RESET (R118). -/
def execOwReset (s : State) : Host.Outcome State Fault Refusal :=
  .next (launch (encode .owReset) resetCommand.turn s)

/-! ### OW.WRBIT (R119) -/

/-- WRITE_BIT sends its operand B. -/
def wrbitCommand (b : Bool) : Command where
  boundary := slotBoundary 1 (fun _ _ => slotByte b) succeed
  onEcho := slotEcho
  onError := noErrorWrites

/-- OW.WRBIT (R119). -/
def execOwWrbit (b : Bool) (s : State) : Host.Outcome State Fault Refusal :=
  .next (launch (encode (.owWrbit b)) (wrbitCommand b).turn s)

/-! ### OW.RDBIT (R120) -/

/-- OW.RDBIT (R120): one read slot; `RX <- zext_64(x)`. -/
def execOwRdbit (s : State) : Host.Outcome State Fault Refusal :=
  .next (launch (encode .owRdbit) (readSlotsCommand 1).turn s)

/-! ### OW.WRBITS (R121) -/

/-- OW.WRBITS (R121): N write slots, `DATA[0]` first. -/
def execOwWrbits (n : Nat) (s : State) : Host.Outcome State Fault Refusal :=
  .next (launch (encode (.owWrbits n)) (writeSlotsCommand n).turn s)

/-! ### OW.RDBITS (R122) -/

/-- OW.RDBITS (R122): N read slots, RX bit 0 first. -/
def execOwRdbits (n : Nat) (s : State) : Host.Outcome State Fault Refusal :=
  .next (launch (encode (.owRdbits n)) (readSlotsCommand n).turn s)

/-! ### OW.WRBYTE (R123) -/

/-- DATA is outside [0,255] (R123). -/
def byteTooLarge (data : DWord) : Bool := decide (255#64 < data)

/-- WRITE_BYTE at a boundary: the check of DATA before any round trip, then 8 write slots. -/
def wrbyteBoundary (s : State) : State :=
  if s.seq.index = 0 ∧ byteTooLarge s.data = true then raise .invalidByte s else slotBoundary 8 dataSlotByte succeed s

/-- WRITE_BYTE as the sequencer runs it. -/
def wrbyteCommand : Command where
  boundary := wrbyteBoundary
  onEcho := slotEcho
  onError := noErrorWrites

/-- OW.WRBYTE (R123). -/
def execOwWrbyte (s : State) : Host.Outcome State Fault Refusal :=
  .next (launch (encode .owWrbyte) wrbyteCommand.turn s)

/-! ### OW.RDBYTE (R124) -/

/-- OW.RDBYTE (R124): 8 read slots. -/
def execOwRdbyte (s : State) : Host.Outcome State Fault Refusal :=
  .next (launch (encode .owRdbyte) (readSlotsCommand 8).turn s)

end Sys2Proof.Machine
end

