-- ==== Sys2Proof/Machine/Control.lean ====
section
/-! DEFINITION. ABORT (spec/43_control.md R190), and the run of a word the decoder rejects (30_encoding.md R98). -/

namespace Sys2Proof.Machine

/-- An ABORT reaches the block: idle, nothing at all changes; running, the request is noted (R190). -/
def requestAbort (s : State) : State :=
  match s.seq.phase with
  | .idle => s
  | .run => { s with seq := { s.seq with abortReq := true } }

/-- ABORT (R190). -/
def execAbort (s : State) : Host.Outcome State Fault Refusal := .next (requestAbort s)

/-- A rejected word runs and ends with ILLEGAL_COMMAND, and changes no other state (R98, R99). -/
def illegalBody (s : State) : State := raise .illegalCommand s

/-- A word the decoder rejects is accepted like any other (10_state.md R21) and ends with its error. -/
def execIllegal (w : Word) (s : State) : Host.Outcome State Fault Refusal :=
  .next (launch w illegalBody s)

end Sys2Proof.Machine
end

