-- ==== Sys2Proof/Machine/Crc8.lean ====
section
/-! DEFINITION. The CRC-8 Engine (spec/41_crc8.md): the update function and the three commands. -/

namespace Sys2Proof.Machine

/-- The feedback constant (R150). -/
def crcFeedback : Byte := 0x8C#8

/-- `Upd(r, x)` (R150). -/
def upd (r : Byte) (x : Bool) : Byte :=
  if r.getLsbD 0 ^^ x then (r >>> 1) ^^^ crcFeedback else r >>> 1

/-- `UpdN(r, v, n)`: one update a bit of `v`, bit 0 first (R151). -/
def updN (r : Byte) (v : DWord) : Nat → Byte
  | 0 => r
  | n + 1 => upd (updN r v n) (v.getLsbD n)

/-- The checksum of a ROM ID: its 64 bits through a cleared accumulator (R156). -/
def romCrc (id : DWord) : Byte := updN 0x00#8 id 64

/-- CRC_CLEAR: `CRC <- 0x00` (R152). -/
def crcClrBody (s : State) : State := succeed { s with crc := 0x00#8 }

/-- CRC.CLR (R152). -/
def execCrcClr (s : State) : Host.Outcome State Fault Refusal :=
  .next (launch (encode .crcClr) crcClrBody s)

/-- CRC_BIT: `CRC <- Upd(CRC, B)` (R153). -/
def crcBitBody (b : Bool) (s : State) : State := succeed { s with crc := upd s.crc b }

/-- CRC.BIT (R153). -/
def execCrcBit (b : Bool) (s : State) : Host.Outcome State Fault Refusal :=
  .next (launch (encode (.crcBit b)) (crcBitBody b) s)

/-- CRC_BITS: `CRC <- UpdN(CRC, DATA, N)` (R154). -/
def crcBitsBody (n : Nat) (s : State) : State := succeed { s with crc := updN s.crc s.data n }

/-- CRC.BITS (R154). -/
def execCrcBits (n : Nat) (s : State) : Host.Outcome State Fault Refusal :=
  .next (launch (encode (.crcBits n)) (crcBitsBody n) s)

end Sys2Proof.Machine
end

