-- ==== Sys2Proof/Machine/Search.lean ====
section
/-! DEFINITION. The Search Engine (spec/42_search.md): the discrepancy rule, one pass cut into the sequencer's turns,
what a pass records, and the three commands. -/

namespace Sys2Proof.Machine

/-- `Resolve(p, W)`: the selected bit and the new mask (R171). -/
def resolve (p : Nat) (w : DWord) : Bool × DWord :=
  let above := w >>> (p + 1)
  if w.getLsbD p then
    if above = 0#64 then (false, putBit w p false) else (true, w)
  else
    if above = 0#64 then (true, putBit w p true) else (false, w)

/-- The action of a position with value bit `v` and complement bit `c`: none where nobody responded, else the selected
bit and the mask after it (R170, R172). -/
def choose (v c : Bool) (p : Nat) (w : DWord) : Option (Bool × DWord) :=
  match v, c with
  | true, true => none
  | false, true => some (false, w)
  | true, false => some (true, w)
  | false, false => some (resolve p w)

/-- The outcome of a pass that met a (1,1) pair (R174). -/
def silentOutcome (alarm : Bool) : PassOutcome := if alarm then .noResponse else .violation

/-- Move to a stage of the pass. -/
def goTo (g : Stage) (s : State) : State := { s with seq := { s.seq with stage := g } }

/-- A pass begins: its input mask is MASK, the working mask starts there, the candidate at 0 (R173). -/
def beginPass (s : State) : State :=
  { s with seq := { s.seq with stage := .passReset, m0 := s.mask, w := s.mask, candAcc := 0#64, pos := 0,
                               scrc := 0x00#8 } }

/-- The outcome of a pass that visited all 64 positions (R175). -/
def checkedOutcome (crc : Byte) : PassOutcome := if crc = 0x00#8 then .valid else .crcBad

/-- Validation (R175): the candidate through the cleared private accumulator. -/
def validate (s : State) : State :=
  { s with seq := { s.seq with scrc := romCrc s.seq.candAcc, stage := .passEnd (checkedOutcome (romCrc s.seq.candAcc)) } }

/-- The bit `b` has been written back: it is the candidate's bit of this position, and the pass goes on to the next
position or, after position 63, to validation (R172, R173). -/
def acceptBit (b : Bool) (s : State) : State :=
  let s1 := { s with seq := { s.seq with candAcc := putBit s.seq.candAcc s.seq.pos b } }
  if s.seq.pos < 63 then { s1 with seq := { s1.seq with pos := s.seq.pos + 1, stage := .value } } else validate s1

/-- The two answers of a position are in (R170, R173, R174). -/
def decidePosition (alarm v c : Bool) (s : State) : State :=
  match choose v c s.seq.pos s.seq.w with
  | none => goTo (.passEnd (silentOutcome alarm)) s
  | some (b, w) => { s with seq := { s.seq with stage := .select b, w := w } }

/-- A turn of a pass at the boundary of a round trip: `first` at the start of the command, the round trip of the stage
within a pass, and `finish` where the pass has ended (R173). -/
def passBoundary (alarm : State → Bool) (onError first : State → State) (finish : PassOutcome → State → State)
    (s : State) : State :=
  match s.seq.stage with
  | .start => first s
  | .passReset => startRoundTrip onError .reset resetByte s
  | .passCmd i => startRoundTrip onError .slot (slotByte ((searchByte (alarm s)).getLsbD i)) s
  | .value => startRoundTrip onError .slot readSlotByte s
  | .complement _ => startRoundTrip onError .slot readSlotByte s
  | .select b => startRoundTrip onError .slot (slotByte b) s
  | .passEnd o => finish o s

/-- What a pass does with an echo (R173). -/
def passEcho (alarm : State → Bool) (echo : Byte) (s : State) : State :=
  match s.seq.stage with
  | .start => s
  | .passReset =>
    goTo (if presenceOf echo then .passCmd 0 else .passEnd .noPresence) (notePresence echo s)
  | .passCmd i => goTo (if i < 7 then .passCmd (i + 1) else .value) (noteSample echo s)
  | .value => goTo (.complement (sampleOf echo)) (noteSample echo s)
  | .complement v => decidePosition (alarm s) v (sampleOf echo) (noteSample echo s)
  | .select b => acceptBit b (noteSample echo s)
  | .passEnd _ => s

/-- SSTAT.SCRC of an outcome: the checksum for VALID and CRC_BAD, else 0 (10_state.md R44, R173). -/
def recordedScrc (o : PassOutcome) (crc : Byte) : Byte :=
  match o with
  | .valid | .crcBad => crc
  | .noPresence | .noResponse | .violation => 0x00#8

/-- SSTAT.FAILPOS of an outcome: the position for NO_RESPONSE and VIOLATION, else 0 (10_state.md R45, R173). -/
def recordedFailPos (o : PassOutcome) (pos : Nat) : BitVec 6 :=
  match o with
  | .noResponse | .violation => BitVec.ofNat 6 pos
  | .noPresence | .valid | .crcBad => 0#6

/-- `WriteOutcome` (R176). -/
def writeOutcome (o : PassOutcome) (s : State) : State :=
  { s with
    cand := s.seq.candAcc
    nmask := s.seq.w
    sstat := { s.sstat with pout := some o, scrc := recordedScrc o s.seq.scrc,
                            failPos := recordedFailPos o s.seq.pos } }

/-! ### SRCH.BEGIN (R177) -/

/-- SEARCH_BEGIN: everything of the last session cleared, a session opened in mode A. -/
def srchBeginBody (a : Bool) (s : State) : State :=
  succeed
    { s with
      mask := 0#64, nmask := 0#64, cand := 0#64, romid := 0#64
      sstat := { SStat.zero with active := true, alarm := a }
      retries := 0#32, idcount := 0#32 }

/-- SRCH.BEGIN (R177). -/
def execSrchBegin (a : Bool) (s : State) : Host.Outcome State Fault Refusal :=
  .next (launch (encode (.srchBegin a)) (srchBeginBody a) s)

/-! ### SRCH.PASS (R178) -/

/-- An error of SEARCH_PASS writes nothing besides STATUS, and a VIOLATION's outcome is written before the error
(R178, 10_state.md R59). -/
def passErrorWrites (s : State) : State := s

/-- The first turn of SEARCH_PASS: the pass begins with its reset round trip. -/
def passFirst (s : State) : State := startRoundTrip passErrorWrites .reset resetByte (beginPass s)

/-- SEARCH_PASS after its pass (R178). -/
def passFinish (o : PassOutcome) (s : State) : State :=
  match o with
  | .violation => raise .protocolViolation (writeOutcome o s)
  | .noPresence | .valid | .crcBad | .noResponse => succeed (writeOutcome o s)

/-- SEARCH_PASS as the sequencer runs it. -/
def srchPassCommand (a : Bool) : Command where
  boundary := passBoundary (fun _ => a) passErrorWrites passFirst passFinish
  onEcho := passEcho (fun _ => a)
  onError := passErrorWrites

/-- SRCH.PASS (R178). -/
def execSrchPass (a : Bool) (s : State) : Host.Outcome State Fault Refusal :=
  .next (launch (encode (.srchPass a)) (srchPassCommand a).turn s)

/-! ### SRCH.NEXT (R179, R180) -/

/-- The session closes: SSTAT.ACTIVE <- 0. It is what every error of SEARCH_NEXT writes besides STATUS (R179). -/
def closeSession (s : State) : State := { s with sstat := { s.sstat with active := false } }

/-- The session ends by completing the enumeration: ACTIVE <- 0, DONE <- 1 (R179, R181). -/
def endSession (s : State) : State := { s with sstat := { s.sstat with active := false, done := true } }

/-- The mode of the session, SSTAT.ALARM (10_state.md R41). -/
def sessionAlarm (s : State) : Bool := s.sstat.alarm

/-- `IDV <- 0; RETRIES <- 0`, the start of a SEARCH_NEXT with an open session (R179; 10_state.md R42, R46). -/
def clearResult (s : State) : State := { s with sstat := { s.sstat with idv := false }, retries := 0#32 }

/-- The first turn of SEARCH_NEXT (R179): SEQUENCE_ERROR with no open session, before anything is written (60_exceptions.md
R212, 95_test_vectors.md L2-S5), else IDV and RETRIES are cleared and the first pass begins with its reset round trip. The
sentences of 10_state.md R42, R46 and R59 that read otherwise: log entry 15. -/
def nextFirst (s : State) : State :=
  if s.sstat.active then startRoundTrip closeSession .reset resetByte (beginPass (clearResult s))
  else raise .sequenceError s

/-- `min(RETRIES + 1, 0xFFFFFFFF)` (R179, 10_state.md R46). -/
def bumpRetries (r : Word) : Word := if r = 0xFFFFFFFF#32 then r else r + 1#32

/-- The retry bound is exceeded: RETRY_LIMIT is not 0 and RETRIES is above it (R179, R180). -/
def retriesExceeded (retries limit : Word) : Bool := limit != 0#32 && decide (limit < retries)

/-- A CRC_BAD pass: one more retry, then the error past the bound, else another pass from the same MASK (R180). -/
def nextRetry (s : State) : State :=
  let s1 := { s with retries := bumpRetries s.retries }
  if retriesExceeded s1.retries s1.retryLimit then raise .checksumMismatch (closeSession s1) else beginPass s1

/-- A VALID pass: the ID is delivered, MASK moves on, and a mask of 0 ends the enumeration (R179). -/
def deliver (s : State) : State :=
  let s1 := { s with romid := s.seq.candAcc, sstat := { s.sstat with idv := true }, idcount := s.idcount + 1#32,
                     mask := s.seq.w }
  if s.seq.w = 0#64 then succeed (endSession s1) else succeed s1

/-- SEARCH_NEXT after a pass (R179). -/
def nextFinish (o : PassOutcome) (s : State) : State :=
  match o with
  | .noPresence => succeed (endSession (writeOutcome o s))
  | .noResponse => succeed (endSession (writeOutcome o s))
  | .violation => raise .protocolViolation (closeSession (writeOutcome o s))
  | .crcBad => nextRetry (writeOutcome o s)
  | .valid => deliver (writeOutcome o s)

/-- SEARCH_NEXT as the sequencer runs it. -/
def srchNextCommand : Command where
  boundary := passBoundary sessionAlarm closeSession nextFirst nextFinish
  onEcho := passEcho sessionAlarm
  onError := closeSession

/-- SRCH.NEXT (R179). -/
def execSrchNext (s : State) : Host.Outcome State Fault Refusal :=
  .next (launch (encode .srchNext) srchNextCommand.turn s)

end Sys2Proof.Machine
end

