-- ==== Sys2Proof/Machine/Dispatch.lean ====
section
/-! DEFINITION. The meaning of every command: one arm for each constructor of Instr. -/

namespace Sys2Proof.Machine

/-- What command `i` does to the block: on an idle block its acceptance and as much of its run as the schedule grants,
on a block already running it the next part of its run (60_exceptions.md R211); ABORT is an exception to this (R190). -/
def exec (i : Instr) (s : State) : Host.Outcome State Fault Refusal :=
  match i with
  | .owReset => Sys2Proof.Machine.execOwReset s
  | .owWrbit b => Sys2Proof.Machine.execOwWrbit b s
  | .owRdbit => Sys2Proof.Machine.execOwRdbit s
  | .owWrbits n => Sys2Proof.Machine.execOwWrbits n s
  | .owRdbits n => Sys2Proof.Machine.execOwRdbits n s
  | .owWrbyte => Sys2Proof.Machine.execOwWrbyte s
  | .owRdbyte => Sys2Proof.Machine.execOwRdbyte s
  | .crcClr => Sys2Proof.Machine.execCrcClr s
  | .crcBit b => Sys2Proof.Machine.execCrcBit b s
  | .crcBits n => Sys2Proof.Machine.execCrcBits n s
  | .srchBegin a => Sys2Proof.Machine.execSrchBegin a s
  | .srchPass a => Sys2Proof.Machine.execSrchPass a s
  | .srchNext => Sys2Proof.Machine.execSrchNext s
  | .abort => Sys2Proof.Machine.execAbort s

end Sys2Proof.Machine
end

