-- ==== Sys2Proof/Machine/HostBus.lean ====
section
/-! DEFINITION. The host register window (spec/20_memory.md R60 to R67): reads, writes, the writes a running block
ignores, and the write of CMD that delivers a command word (30_encoding.md R98). -/

namespace Sys2Proof.Machine

/-- The value of a register (10_state.md R20 to R49). -/
def regValue (s : State) : Reg → Word
  | .cmd => s.cmd
  | .status => s.status.word s.busy
  | .dataLo => loHalf s.data
  | .dataHi => hiHalf s.data
  | .rxLo => loHalf s.rx
  | .rxHi => hiHalf s.rx
  | .crc => s.crc.zeroExtend 32
  | .timeout => s.timeout
  | .maskLo => loHalf s.mask
  | .maskHi => hiHalf s.mask
  | .nmaskLo => loHalf s.nmask
  | .nmaskHi => hiHalf s.nmask
  | .candLo => loHalf s.cand
  | .candHi => hiHalf s.cand
  | .romidLo => loHalf s.romid
  | .romidHi => hiHalf s.romid
  | .sstat => s.sstat.word
  | .retries => s.retries
  | .retryLimit => s.retryLimit
  | .idcount => s.idcount
  | .idr => idrValue

/-- What a read returns while a command runs: its own value for CMD, DATA, TIMEOUT, RETRY_LIMIT, IDR and the fields
BUSY and OVR; `draw` for every field a running command may write; 0 for reserved bits (10_state.md R58, R33, R45). -/
def busyValue (draw : Word) (s : State) : Reg → Word
  | .cmd => s.cmd
  | .status => busyStatusWord draw s.status
  | .dataLo => loHalf s.data
  | .dataHi => hiHalf s.data
  | .rxLo => draw
  | .rxHi => draw
  | .crc => draw &&& crcFieldBits
  | .timeout => s.timeout
  | .maskLo => draw
  | .maskHi => draw
  | .nmaskLo => draw
  | .nmaskHi => draw
  | .candLo => draw
  | .candHi => draw
  | .romidLo => draw
  | .romidHi => draw
  | .sstat => draw &&& sstatFieldBits
  | .retries => draw
  | .retryLimit => s.retryLimit
  | .idcount => draw
  | .idr => idrValue

/-- What a read of an offset returns: 0 where it is unmapped (20_memory.md R62). -/
def readValue (draw : Word) (s : State) (addr : BitVec 8) : Word :=
  match regAt addr with
  | none => 0#32
  | some r => if s.busy then busyValue draw s r else regValue s r

/-- A read: no register changes (20_memory.md R64); the value goes to the host, and a value may have been drawn. -/
def hostRead (addr : BitVec 8) (s : State) : State :=
  { s with world := { s.world with
      reads := s.world.reads ++ [(addr, readValue (Config.freeRead s.world.draws) s addr)]
      draws := if s.busy then s.world.draws + 1 else s.world.draws } }

/-- A write the block ignores because a command runs: STATUS.OVR (20_memory.md R65, 10_state.md R25). -/
def overrun (s : State) : State := { s with status := { s.status with ovr := true } }

/-- A write of an operand register: ignored with OVR while a command runs, else `store` (20_memory.md R64, R65). -/
def guardedWrite (store : State → State) (s : State) : State := if s.busy then overrun s else store s

/-- A write of a register other than CMD (10_state.md R20, 20_memory.md R64, R65, 41_crc8.md R155). -/
def writeReg (v : Word) (s : State) : Reg → State
  | .cmd => s
  | .status => { s with status := s.status.clearSticky v }
  | .dataLo => guardedWrite (fun s => { s with data := withLo s.data v }) s
  | .dataHi => guardedWrite (fun s => { s with data := withHi s.data v }) s
  | .crc => guardedWrite (fun s => { s with crc := v.extractLsb' 0 8 }) s
  | .timeout => guardedWrite (fun s => { s with timeout := v }) s
  | .maskLo => guardedWrite (fun s => { s with mask := withLo s.mask v }) s
  | .maskHi => guardedWrite (fun s => { s with mask := withHi s.mask v }) s
  | .retryLimit => guardedWrite (fun s => { s with retryLimit := v }) s
  | .rxLo | .rxHi | .nmaskLo | .nmaskHi | .candLo | .candHi | .romidLo | .romidHi | .sstat | .retries | .idcount
  | .idr => s

/-- A write of CMD (30_encoding.md R98, 20_memory.md R65): an ABORT reaches the block whether it runs or not; any other
word is lost with OVR while a command runs, and is delivered to an idle block. -/
def writeCmd (v : Word) (s : State) : Host.Outcome State Fault Refusal :=
  match decode v with
  | .legal .abort => exec .abort s
  | .legal i => if s.busy then .next (overrun s) else exec i s
  | .illegal _ => if s.busy then .next (overrun s) else execIllegal v s

/-- A write of an offset: nothing where it is unmapped (20_memory.md R62). -/
def hostWrite (addr : BitVec 8) (v : Word) (s : State) : Host.Outcome State Fault Refusal :=
  match regAt addr with
  | none => .next s
  | some .cmd => writeCmd v s
  | some r => .next (writeReg v s r)

/-- An access the spec defines: aligned, of four bytes (20_memory.md R61). -/
def accessDefined (addr : BitVec 8) (size : Nat) : Bool := size == 4 && addr.toNat % 4 == 0

/-- A host access (20_memory.md R60, R61): another form than the aligned 32-bit one is refused. -/
def hostAccess (a : HostAccess) (s : State) : Host.Outcome State Fault Refusal :=
  match a with
  | .read addr size => if accessDefined addr size then .next (hostRead addr s) else .refused .hostAccessForm
  | .write addr size v => if accessDefined addr size then hostWrite addr v s else .refused .hostAccessForm

end Sys2Proof.Machine
end

