-- ==== Sys2Proof/Machine/Schedule.lean ====
section
/-! DEFINITION. Who acts in a step (spec/00_scope.md R10, R11): the host, the platform's reset or the sequencer, as
the schedule in State says; and the fetch of the command the sequencer runs, its latched word int.CMDW (10_state.md
R50). -/

namespace Sys2Proof.Machine

/-- The sequencer's part of a step: in IDLE its turns pass with nothing to do (70_reset_and_hazards.md R243); in RUN
the latched word is decoded and its command goes on (10_state.md R50). -/
def sequencerStep (s : State) : Host.Outcome State Fault Refusal :=
  match s.seq.phase with
  | .idle => .next { s with world := s.world.useGrant }
  | .run =>
    match decode s.seq.cmdw with
    | .legal i => exec i s
    | .illegal _ => execIllegal s.seq.cmdw s

/-- Block reset inside the sequencer's next turn (70_reset_and_hazards.md R240): the turn says which rate change had
happened, and nothing else of it stays. -/
def resetWithinTurn (s : State) : Host.Outcome State Fault Refusal :=
  match sequencerStep { s with world := { s.world with moves := [] } } with
  | .next t => .next (blockResetWithin s t)
  | .fault f => .fault f
  | .refused r => .refused r

/-- One step of the machine: what the schedule says next, the sequencer where it says nothing. -/
def scheduledStep (s : State) : Host.Outcome State Fault Refusal :=
  match s.world.moves with
  | [] => sequencerStep s
  | .turns _ :: _ => sequencerStep s
  | .blockReset :: rest => .next (blockReset { s with world := { s.world with moves := rest } })
  | .blockResetAfterRate :: rest => resetWithinTurn { s with world := { s.world with moves := rest } }
  | .host a :: rest => hostAccess a { s with world := { s.world with moves := rest } }

/-- The write of CMD that delivers a word. -/
def cmdWrite (w : Word) : Move := .host (.write 0x00#8 4 w)

/-- Turns enough for the longest command with a bound: the 201 round trips of a full pass, two turns each, and the
completion step (70_reset_and_hazards.md R257). -/
def fullRunTurns : Nat := 403

/-- A block that can take the word: ABORT is taken in every phase, any other word by an idle block (30_encoding.md
R98). -/
def readyFor (w : Word) (q : Sequencer) : Sequencer := if decode w = .legal .abort then q else Sequencer.idle

/-- The state with a command word about to be delivered, and the sequencer's turns to run it. -/
def placeWord (w : Word) (s : State) : State :=
  { s with
    seq := readyFor w s.seq
    world := { s.world with moves := cmdWrite w :: .turns fullRunTurns :: s.world.moves } }

end Sys2Proof.Machine
end

