-- ==== Sys2Proof/Machine/Step.lean ====
section
/-! DEFINITION. The step function of the block, and where the next command comes from. -/

namespace Sys2Proof.Machine

/-- One step: one host access, one block reset, or the turns the sequencer is granted. -/
def step (s : State) : Host.Outcome State Fault Refusal := scheduledStep s

/-- `s` with the command word of an opcode-table row about to be delivered by the host's next access (log entry 12). -/
def State.withFetchWord (s : State) (nbits w : Nat) : State := placeWord (BitVec.ofNat 32 (w % 2 ^ nbits)) s

end Sys2Proof.Machine
end

