-- ==== Sys2Proof/Machine/Doubles.lean ====
section
/-! DEFINITION. The reference environments of the spec (20_memory.md R78 to R82): the wired-AND bus, the loopback bus
and the silent line. They are not part of the block and no meaning reads them; they answer its receives in tests and in
statements about a bus. -/

namespace Sys2Proof.Machine

/-- A device on the wired-AND bus (R78). -/
structure Device where
  id : DWord
  alarm : Bool
  deriving DecidableEq, Repr

/-- The phase of a search position (R78). -/
inductive PosPhase where
  | bit | comp | sel
  deriving DecidableEq, Repr

/-- The state of the wired-AND bus (R78). -/
inductive BusState where
  | idle
  | romCmd (k : Nat) (v : Byte)
  | search (p : Nat) (ph : PosPhase) (part : List Device)
  deriving DecidableEq, Repr

/-- The wired-AND double (R78). -/
structure WiredAnd where
  devices : List Device
  bus : BusState
  deriving DecidableEq, Repr

/-- The wired-AND double at its start: its devices, and the bus in IDLE (R78). -/
def WiredAnd.initial (devices : List Device) : WiredAnd := { devices := devices, bus := .idle }

/-- PRESENCE_ECHO (R79, D39). -/
def presenceEcho : Byte := 0xE0#8

/-- PULL_ECHO (R80, D39). -/
def pullEcho : Byte := 0x00#8

/-- The reset round trip on the wired-AND double (R79). -/
def WiredAnd.replyReset (d : WiredAnd) (t : Byte) : Byte × WiredAnd :=
  if t = 0xF0#8 then
    (if d.devices.isEmpty then 0xF0#8 else presenceEcho, { d with bus := .romCmd 0 0x00#8 })
  else (t, d)

/-- A bit slot is pulled low (R80). -/
def WiredAnd.pulledLow (d : WiredAnd) (t : Byte) : Bool :=
  t == 0xFF#8 &&
    match d.bus with
    | .search p .bit part => part.any fun x => !x.id.getLsbD p
    | .search p .comp part => part.any fun x => x.id.getLsbD p
    | .search _ .sel _ => false
    | .romCmd _ _ => false
    | .idle => false

/-- The bus after a whole ROM command (R80). -/
def WiredAnd.command (d : WiredAnd) (v : Byte) : BusState :=
  if v = 0xF0#8 then .search 0 .bit d.devices
  else if v = 0xEC#8 then .search 0 .bit (d.devices.filter fun x => x.alarm)
  else .idle

/-- How a bit slot moves the bus (R80). -/
def WiredAnd.moveSlot (d : WiredAnd) (w : Bool) : BusState :=
  match d.bus with
  | .idle => .idle
  | .romCmd k v =>
    let v' : Byte := if w then v ||| (1#8 <<< k) else v
    if k < 7 then .romCmd (k + 1) v' else d.command v'
  | .search p .bit part => .search p .comp part
  | .search p .comp part => .search p .sel part
  | .search p .sel part =>
    if p < 63 then .search (p + 1) .bit (part.filter fun x => x.id.getLsbD p == w) else .idle

/-- A bit slot on the wired-AND double (R80). -/
def WiredAnd.replySlot (d : WiredAnd) (t : Byte) : Byte × WiredAnd :=
  (if d.pulledLow t then pullEcho else t, { d with bus := d.moveSlot (t == 0xFF#8) })

/-- What the wired-AND double brings in for a byte sent (R79, R80). -/
def WiredAnd.reply (d : WiredAnd) (r : Rate) (t : Byte) : List Byte × WiredAnd :=
  match r with
  | .reset => ([(d.replyReset t).1], (d.replyReset t).2)
  | .slot => ([(d.replySlot t).1], (d.replySlot t).2)

/-- The loopback double (R81): collecting or replaying a byte, and how many bits of it have gone by. -/
structure Loopback where
  replaying : Bool
  count : Nat
  q : Byte
  deriving DecidableEq, Repr

/-- The loopback double with nothing collected (R81). -/
def Loopback.empty : Loopback := { replaying := false, count := 0, q := 0x00#8 }

/-- What the loopback double brings in for a byte sent (R81). -/
def Loopback.reply (d : Loopback) (r : Rate) (t : Byte) : List Byte × Loopback :=
  match r, d.replaying with
  | .reset, _ => ([0xE0#8], Loopback.empty)
  | .slot, false =>
    let q' : Byte := if t == 0xFF#8 then d.q ||| (1#8 <<< d.count) else d.q
    ([t], if d.count < 7 then { replaying := false, count := d.count + 1, q := q' }
          else { replaying := true, count := 0, q := q' })
  | .slot, true =>
    ([if t == 0xFF#8 && !d.q.getLsbD d.count then 0x00#8 else t],
     if d.count < 7 then { d with count := d.count + 1 } else Loopback.empty)

/-- The silent line (R82). -/
def silentReply (d : Unit) (_ : Rate) (_ : Byte) : List Byte × Unit := ([], d)

/-- The byte a history sent last. -/
def lastTx : List SerialEvent → Option Byte
  | [] => none
  | .tx b :: rest => some ((lastTx rest).getD b)
  | .setRate _ :: rest => lastTx rest
  | .rx _ :: rest => lastTx rest

/-- The environment meets the transmit that took the block from `s` to `t`, at the rate the block has set (20_memory.md
R72): its answer is what the next SerialRx brings in. A step that transmits nothing leaves it alone. -/
def meetTransmit {E : Type} (reply : E → Rate → Byte → List Byte × E) (e : E) (s t : State) : E × State :=
  if t.seq.inFlight && !s.seq.inFlight then
    let a := reply e t.status.rate ((lastTx t.world.events).getD 0x00#8)
    (a.2, { t with world := { t.world with answers := [a.1] } })
  else (e, t)

/-- One step of the block together with its environment. The schedule grants the sequencer one turn a step, so that the
environment acts between a transmit and its receive. -/
def coupledStep {E : Type} (reply : E → Rate → Byte → List Byte × E) (es : E × State) : E × State :=
  match step es.2 with
  | .next t => meetTransmit reply es.1 es.2 t
  | .fault _ => es
  | .refused _ => es

/-- `n` steps of the block together with its environment. -/
def coupledRun {E : Type} (reply : E → Rate → Byte → List Byte × E) : Nat → E × State → E × State
  | 0, es => es
  | n + 1, es => coupledRun reply n (coupledStep reply es)

end Sys2Proof.Machine
end

