-- ==== Sys2Proof/Machine/HostAsm.lean ====
section
/-! DEFINITION. The host assembly of the spec (30_encoding.md R102): its four forms, the pseudo-instructions, the outer
`search()` loop (42_search.md R182), and a host that runs them, one access at a time, beside the block. The host is no part
of the block; it reaches the block by its accesses alone (20_memory.md R60). -/

namespace Sys2Proof.Machine

/-! ### The syntax -/

/-- The four forms (R102). -/
inductive HostForm where
  /-- `sw REG, imm32`. -/
  | sw (r : Reg) (v : Word)
  /-- `lw REG`. -/
  | lw (r : Reg)
  /-- `cmd MNEMONIC [operand]`. -/
  | cmd (i : Instr)
  /-- `wait`: `lw STATUS`, again and again until its bit 0 (BUSY) is 0. -/
  | wait
  deriving DecidableEq, Repr

/-- What a host program does in order: a form, or one of the tests and reads of the `search` loop (R102). -/
inductive HostOp where
  | form (f : HostForm)
  /-- `lw STATUS`; stop with the error where ERRCODE is not 0. -/
  | searchError
  /-- `lw SSTAT`; read the ID where IDV is set; exit where DONE is set, else another round. -/
  | searchSession
  /-- `lw ROMID_LO`. -/
  | searchIdLow
  /-- `lw ROMID_HI`, and the ID is added to the result. -/
  | searchIdHigh
  deriving DecidableEq, Repr

/-- A program of forms. -/
def programOf (p : List HostForm) : List HostOp := p.map .form

/-! ### The pseudo-instructions (R102) -/

/-- DATA holds `x`. -/
def loadData (x : DWord) : List HostForm := [.sw .dataLo (loHalf x), .sw .dataHi (hiHalf x)]

/-- A chunk of at most 64 bits as DATA holds it, element `i` at bit `i` (40_signal_codec.md R121). DESIGN CHOICE: R102 does not
say what DATA holds above the elements of a last chunk of fewer than 64; here 0 (log entry 20). -/
def packBits : List Bool → DWord
  | [] => 0#64
  | b :: rest => putBit (packBits rest <<< 1) 0 b

/-- The chunks of 64 elements of a sequence; `fuel` is at least the number of chunks. -/
def chunks : Nat → List Bool → List (List Bool)
  | 0, _ => []
  | _ + 1, [] => []
  | fuel + 1, b :: rest => (b :: rest).take nMax :: chunks fuel ((b :: rest).drop nMax)

/-- `ow.reset`; presence is bit 4 of the STATUS that ends the wait. -/
def pseudoReset : List HostForm := [.cmd .owReset, .wait]

/-- `ow.write_bit b`. -/
def pseudoWriteBit (b : Bool) : List HostForm := [.cmd (.owWrbit b), .wait]

/-- `ow.read_bit`: bit 0 of the value read. -/
def pseudoReadBit : List HostForm := [.cmd .owRdbit, .wait, .lw .rxLo]

/-- DATA loaded with `x`, and its low `n` bits sent. -/
def sendBits (x : DWord) (n : Nat) : List HostForm := loadData x ++ [.cmd (.owWrbits n), .wait]

/-- `ow.write_bits s`. -/
def pseudoWriteBits (s : List Bool) : List HostForm :=
  (chunks (s.length + 1) s).flatMap fun c => sendBits (packBits c) c.length

/-- One chunk of `ow.read_bits`. -/
def readChunk (m : Nat) : List HostForm := [.cmd (.owRdbits m), .wait, .lw .rxLo, .lw .rxHi]

/-- The sizes of the chunks of `n` bits. -/
def chunkSizes (n : Nat) : List Nat :=
  List.replicate (n / nMax) nMax ++ (if n % nMax = 0 then [] else [n % nMax])

/-- `ow.read_bits n`. -/
def pseudoReadBits (n : Nat) : List HostForm := (chunkSizes n).flatMap readChunk

/-- Element `i` of the result of `ow.read_bits`: element `64k + j` is bit `j` of chunk `k`, whose two halves are the values
read at `2k` and `2k + 1`. -/
def readElement (values : List Word) (i : Nat) : Bool := (values.getD (i / 32) 0#32).getLsbD (i % 32)

/-- `ow.write_byte v`, `v` a 64-bit two's-complement value. -/
def pseudoWriteByte (v : DWord) : List HostForm := loadData v ++ [.cmd .owWrbyte, .wait]

/-- `ow.read_byte`. -/
def pseudoReadByte : List HostForm := [.cmd .owRdbyte, .wait, .lw .rxLo]

/-- `ow.write_int v, w`: for a width of 0 to 64, OW.WRBITS of `w` bits with DATA holding `v` as a 64-bit two's-complement
number (40_signal_codec.md R125); wider sends split as `ow.write_bits` does, the bits of `v` above its own width being 0
(R102). -/
def pseudoWriteInt (v : DWord) (w : Nat) : List HostForm :=
  if w ≤ nMax then sendBits v w else pseudoWriteBits ((List.range w).map fun i => v.getLsbD i)

/-- `crc.clear`. -/
def pseudoCrcClear : List HostForm := [.cmd .crcClr, .wait]

/-- `crc.update b`. -/
def pseudoCrcUpdate (b : Bool) : List HostForm := [.cmd (.crcBit b), .wait]

/-- `crc.byte v`. -/
def pseudoCrcByte (v : Byte) : List HostForm :=
  [.sw .dataLo (v.zeroExtend 32), .sw .dataHi 0#32, .cmd (.crcBits 8), .wait]

/-- `crc.value`. -/
def pseudoCrcValue : List HostForm := [.lw .crc]

/-- One round of the loop of `search`: `cmd SRCH.NEXT; wait`, then the test of ERRCODE, which goes on to the test of
SSTAT. -/
def searchRound : List HostOp := [.form (.cmd .srchNext), .form .wait, .searchError]

/-- `search [alarm]`: `cmd SRCH.BEGIN [alarm]; wait`, then rounds until DONE or an error (42_search.md R182). -/
def pseudoSearch (alarm : Bool) : List HostOp := [.form (.cmd (.srchBegin alarm)), .form .wait] ++ searchRound

/-! ### The host that runs a program -/

/-- A host in a program: what it has still to do, and what it has found. -/
structure HostRun where
  todo : List HostOp
  /-- The values its `lw` forms have read, oldest first. -/
  values : List Word
  /-- The STATUS that ended its last wait. -/
  status : Word
  /-- The ROMID_LO it has read of an ID. -/
  low : Word
  /-- The result of `search`: the IDs delivered, in order. -/
  ids : List DWord
  /-- The error `search` has ended with. -/
  error : Option (BitVec 4)
  deriving DecidableEq, Repr

/-- A host at the start of a program. -/
def HostRun.start (p : List HostOp) : HostRun :=
  { todo := p, values := [], status := 0#32, low := 0#32, ids := [], error := none }

/-- A 32-bit write of a register. -/
def storeWord (r : Reg) (v : Word) : HostAccess := .write r.offset 4 v

/-- A 32-bit read of a register. -/
def loadWord (r : Reg) : HostAccess := .read r.offset 4

/-- The access an operation of the host makes. -/
def HostOp.access : HostOp → HostAccess
  | .form (.sw r v) => storeWord r v
  | .form (.lw r) => loadWord r
  | .form (.cmd i) => storeWord .cmd (encode i)
  | .form .wait => loadWord .status
  | .searchError => loadWord .status
  | .searchSession => loadWord .sstat
  | .searchIdLow => loadWord .romidLo
  | .searchIdHigh => loadWord .romidHi

/-- ERRCODE in a STATUS the host has read (10_state.md R29). -/
def errcodeOf (status : Word) : BitVec 4 := status.extractLsb' 8 4

/-- What is left to do after SSTAT has been read: the ID where IDV (bit 3) is set, and another round unless DONE (bit 1)
is. -/
def afterSession (sstat : Word) (rest : List HostOp) : List HostOp :=
  (if sstat.getLsbD 3 then [.searchIdLow, .searchIdHigh] else []) ++
    (if sstat.getLsbD 1 then [] else searchRound) ++ rest

/-- The host after its access, `v` being what a read returned. A wait stays until BUSY (bit 0) reads 0. -/
def HostRun.take (v : Word) (h : HostRun) : HostRun :=
  match h.todo with
  | [] => h
  | .form (.sw _ _) :: rest => { h with todo := rest }
  | .form (.lw _) :: rest => { h with todo := rest, values := h.values ++ [v] }
  | .form (.cmd _) :: rest => { h with todo := rest }
  | .form .wait :: rest => if v.getLsbD 0 then h else { h with todo := rest, status := v }
  | .searchError :: rest =>
    if errcodeOf v = 0#4 then { h with todo := .searchSession :: rest } else { h with todo := [], error := some (errcodeOf v) }
  | .searchSession :: rest => { h with todo := afterSession v rest }
  | .searchIdLow :: rest => { h with todo := rest, low := v }
  | .searchIdHigh :: rest => { h with todo := rest, ids := h.ids ++ [joinHalves v h.low] }

/-! ### The host and the block together -/

/-- Who acts next: the host with its next access, or another move of the block's schedule. -/
inductive Actor where
  | host
  | other (m : Move)
  deriving DecidableEq, Repr

/-- The state with the moves of one step placed; a write of CMD is followed by no turn of its own step. -/
def withMove (m : Move) (s : State) : State := { s with world := { s.world with moves := [m, .turns 0] } }

/-- What the last read returned. -/
def lastRead (s : State) : Word := (s.world.reads.getLast?.map Prod.snd).getD 0#32

/-- One step of the host, the block and an environment of states `E`; `advance` is a step of the block in it (the reference
environments of Sys2Proof/Machine/Doubles.lean are such). A host with nothing to do stays. -/
def systemStep {E : Type} (advance : E × State → E × State) (x : Actor) (h : HostRun) (es : E × State) :
    HostRun × E × State :=
  match x, h.todo with
  | .other m, _ => (h, advance (es.1, withMove m es.2))
  | .host, [] => (h, es)
  | .host, op :: _ =>
    let es' := advance (es.1, withMove (.host op.access) es.2)
    (h.take (lastRead es'.2), es')

/-- The host, the block and the environment under a schedule. -/
def systemRun {E : Type} (advance : E × State → E × State) : List Actor → HostRun → E × State → HostRun × E × State
  | [], h, es => (h, es)
  | x :: rest, h, es =>
    let r := systemStep advance x h es
    systemRun advance rest r.1 r.2

/-- A step of the block with the answers State holds: no environment beside it. -/
def advanceAlone (es : Unit × State) : Unit × State :=
  match step es.2 with
  | .next t => ((), t)
  | .fault _ => es
  | .refused _ => es

end Sys2Proof.Machine
end

