-- ==== Sys2Proof/Safety.lean ====
section
/-! DEFINITION. The terms claims are stated in: what the environment answers, what a run of slots leaves behind, the
search pass as one function (spec/42_search.md R173), and the invariant of the block. -/

namespace Sys2Proof.Machine

/-! ### What the environment answers -/

/-- The echo of the `k`-th round trip from now: the first byte of its answer (40_signal_codec.md R110). -/
def echoAt (w : World) (k : Nat) : Byte := (w.answer k).headD 0x00#8

/-- The bit the `k`-th round trip from now samples (R115). -/
def sampleAt (w : World) (k : Nat) : Bool := sampleOf (echoAt w k)

/-- Each of the next `n` receives returns a byte. -/
def answered (w : World) (n : Nat) : Prop := ∀ k, k < n → w.answer k ≠ []

/-- One of the next `n` receives returns more than one byte (R113). -/
def extraWithin (w : World) (n : Nat) : Bool := (List.range n).any fun k => decide (1 < (w.answer k).length)

/-- The world after `n` answered receives. -/
def popAnswers : Nat → World → World
  | 0, w => w
  | n + 1, w => popAnswers n w.popAnswer

/-- The bits the next `n` round trips sample, the first at bit 0, zeros above (40_signal_codec.md R122). -/
def sampledBits (w : World) : Nat → DWord
  | 0 => 0#64
  | n + 1 => putBit (sampledBits w n) n (sampleAt w n)

/-! ### What round trips leave behind -/

/-- The rate event of a change from `old` to `new`: none where they agree (R111). -/
def rateEvents (old new : Rate) : List SerialEvent := if old = new then [] else [.setRate new]

/-- The events of round trips that send `bytes` and receive the answers from the `first`-th on (20_memory.md R71). -/
def tripEvents (w : World) (first : Nat) : List Byte → List SerialEvent
  | [] => []
  | b :: rest => .tx b :: .rx (w.answer first) :: tripEvents w (first + 1) rest

/-- The rate, ADV, the answers and the history after round trips at rate `r` that send `bytes`; a command of no round
trip changes none of them (R111). -/
def afterTrips (r : Rate) (bytes : List Byte) (s : State) : State :=
  match bytes with
  | [] => s
  | b :: rest =>
    { s with
      status := { s.status with rate := r, adv := s.status.adv || extraWithin s.world (rest.length + 1) }
      world := { popAnswers (rest.length + 1) s.world with
        events := s.world.events ++ rateEvents s.status.rate r ++ tripEvents s.world 0 (b :: rest) } }

/-- SAMPLE after `n` bit slots (R115). -/
def lastSample (w : World) (old : Bool) : Nat → Bool
  | 0 => old
  | n + 1 => sampleAt w n

/-- What `bytes.length` bit slots that send `bytes` leave behind. -/
def afterSlots (bytes : List Byte) (s : State) : State :=
  { afterTrips .slot bytes s with
    status := { (afterTrips .slot bytes s).status with sample := lastSample s.world s.status.sample bytes.length } }

/-- What a reset round trip leaves behind (R114). -/
def afterReset (s : State) : State :=
  { afterTrips .reset [resetByte] s with
    status := { (afterTrips .reset [resetByte] s).status with presence := presenceOf (echoAt s.world 0) } }

/-- The bytes of `n` write slots of a value, bit 0 first (R121). -/
def writeBytes (data : DWord) (n : Nat) : List Byte := (List.range n).map fun i => slotByte (data.getLsbD i)

/-- The bytes of `n` read slots (R115). -/
def readBytes (n : Nat) : List Byte := List.replicate n readSlotByte

/-- `s` with the schedule's grant used up, the state a launched command runs from. -/
def granted (s : State) : State := { s with world := s.world.useGrant }

/-- A command of word `w` has ended well: CMD reads it, ERRCODE is 0, the sequencer is idle (10_state.md R21,
60_exceptions.md R213). -/
def endedWell (w : Word) (s : State) : State := { succeed s with cmd := w }

/-- A command of word `w` has ended with an error: CMD reads it, ERRCODE and ERR say so, the sequencer is idle
(60_exceptions.md R212). -/
def endedWith (e : ErrCode) (w : Word) (s : State) : State := { raise e s with cmd := w }

/-- The block is idle and the schedule lets the sequencer take at least `n` turns after the next acceptance. -/
def readyIdle (s : State) (n : Nat) : Prop := s.seq.phase = .idle ∧ n ≤ s.world.grant

/-! ### The search pass as one function (42_search.md R173) -/

/-- What a pass comes to: its outcome, candidate, mask, checksum and failing position, and the bytes its bit slots sent. -/
structure PassResult where
  outcome : PassOutcome
  cand : DWord
  mask : DWord
  crc : Byte
  failPos : Nat
  sent : List Byte
  deriving DecidableEq, Repr

/-- The positions from `p` on, `left` of them, after slots that sent `sent`; slot `k` of the pass, counting its reset
round trip as 0, samples `sample k` (R170 to R175). -/
def passPositions (alarm : Bool) (sample : Nat → Bool) :
    (left p : Nat) → (mask cand : DWord) → (sent : List Byte) → PassResult
  | 0, _, mask, cand, sent => ⟨checkedOutcome (romCrc cand), cand, mask, romCrc cand, 0, sent⟩
  | left + 1, p, mask, cand, sent =>
    match choose (sample (sent.length + 1)) (sample (sent.length + 2)) p mask with
    | none => ⟨silentOutcome alarm, cand, mask, 0x00#8, p, sent ++ [readSlotByte, readSlotByte]⟩
    | some (b, mask') =>
      passPositions alarm sample left (p + 1) mask' (putBit cand p b) (sent ++ [readSlotByte, readSlotByte, slotByte b])

/-- The bytes of the command of a pass, bit 0 first (R173). -/
def commandSlots (alarm : Bool) : List Byte := (List.range 8).map fun i => slotByte ((searchByte alarm).getLsbD i)

/-- `Pass(alarm, M0)` (R173). -/
def passOf (alarm : Bool) (m0 : DWord) (presence : Bool) (sample : Nat → Bool) : PassResult :=
  if presence then passPositions alarm sample 64 0 m0 0#64 (commandSlots alarm)
  else ⟨.noPresence, 0#64, m0, 0x00#8, 0, []⟩

/-- The pass the environment's next answers make. -/
def nextPass (alarm : Bool) (s : State) : PassResult :=
  passOf alarm s.mask (presenceOf (echoAt s.world 0)) (sampleAt s.world)

/-- How many round trips a pass makes: its reset round trip and its slots (70_reset_and_hazards.md R257). -/
def PassResult.trips (r : PassResult) : Nat := r.sent.length + 1

/-- The state with the effects of a pass's round trips and its outcome recorded (R173, R176): the slots follow the reset
round trip, so their answers begin one later. -/
def afterPass (r : PassResult) (s : State) : State :=
  { afterSlots r.sent (afterReset s) with
    cand := r.cand
    nmask := r.mask
    sstat := { s.sstat with pout := some r.outcome, scrc := r.crc, failPos := BitVec.ofNat 6 r.failPos } }

/-- A sequencer between two round trips, with no abort pending. -/
def Sequencer.between (q : Sequencer) : Prop := q.phase = .run ∧ q.inFlight = false ∧ q.abortReq = false

/-- The sequencer as a pass from the input mask `mask` begins (R173). -/
def Sequencer.passBegun (mask : DWord) (q : Sequencer) : Prop :=
  q.between ∧ q.stage = .passReset ∧ q.w = mask ∧ q.candAcc = 0#64 ∧ q.pos = 0 ∧ q.scrc = 0x00#8

/-- SEARCH_NEXT, its command word `w`, after a pass that is not CRC_BAD (R179). -/
def afterNextPass (w : Word) (r : PassResult) (s : State) : State :=
  let s1 := afterPass r s
  let found := { s1 with romid := r.cand, mask := r.mask, idcount := s.idcount + 1#32,
                         sstat := { s1.sstat with idv := true } }
  match r.outcome with
  | .noPresence => endedWell w (endSession s1)
  | .noResponse => endedWell w (endSession s1)
  | .violation => endedWith .protocolViolation w (closeSession s1)
  | .valid => endedWell w (if r.mask = 0#64 then endSession found else found)
  | .crcBad => s1

/-! ### Where errors end a command -/

/-- What an error of a running command writes besides STATUS: SEARCH_NEXT closes its session (R179, 10_state.md R59). -/
def errorWrites (i : Instr) (s : State) : State :=
  match i with
  | .srchNext => closeSession s
  | .owReset | .owWrbit _ | .owRdbit | .owWrbits _ | .owRdbits _ | .owWrbyte | .owRdbyte | .crcClr | .crcBit _
  | .crcBits _ | .srchBegin _ | .srchPass _ | .abort => s

/-- The command is one with round trips (70_reset_and_hazards.md R257). -/
def hasRoundTrips : Instr → Bool
  | .owReset | .owWrbit _ | .owRdbit | .owWrbits _ | .owRdbits _ | .owWrbyte | .owRdbyte | .srchPass _
  | .srchNext => true
  | .crcClr | .crcBit _ | .crcBits _ | .srchBegin _ | .abort => false

/-- The sequencer stands in a pass before one of its round trips. -/
def Stage.tripNext : Stage → Bool
  | .start | .passReset | .passCmd _ | .value | .complement _ | .select _ => true
  | .passEnd _ => false

/-- The latched word is that of a command with round trips. -/
def runsRoundTrips (w : Word) : Bool :=
  match decode w with
  | .legal i => hasRoundTrips i
  | .illegal _ => false

/-- Outside a round trip, the running command's next act is a round trip (43_control.md R191). -/
def roundTripNext (i : Instr) (s : State) : Bool :=
  match i with
  | .owReset => s.seq.index == 0
  | .owWrbit _ => decide (s.seq.index < 1)
  | .owRdbit => decide (s.seq.index < 1)
  | .owWrbits n => decide (s.seq.index < n)
  | .owRdbits n => decide (s.seq.index < n)
  | .owWrbyte => decide (s.seq.index < 8) && !(s.seq.index == 0 && byteTooLarge s.data)
  | .owRdbyte => decide (s.seq.index < 8)
  | .srchPass _ => s.seq.stage.tripNext
  | .srchNext => s.seq.stage.tripNext && (s.seq.stage != .start || s.sstat.active)
  | .crcClr | .crcBit _ | .crcBits _ | .srchBegin _ | .abort => false

/-- What an abort at that point writes besides STATUS: SEARCH_NEXT has cleared IDV and RETRIES before its first round trip
(R179). -/
def abortWrites (i : Instr) (s : State) : State :=
  match i with
  | .srchNext => closeSession (if s.seq.stage = .start then clearResult s else s)
  | .owReset | .owWrbit _ | .owRdbit | .owWrbits _ | .owRdbits _ | .owWrbyte | .owRdbyte | .crcClr | .crcBit _
  | .crcBits _ | .srchBegin _ | .srchPass _ | .abort => s

/-- A round trip at rate `r` that sent `b` and received nothing (40_signal_codec.md R112). -/
def afterEmptyTrip (r : Rate) (b : Byte) (s : State) : State :=
  { s with
    status := { s.status with rate := r }
    world := { s.world.popAnswer with events := s.world.events ++ rateEvents s.status.rate r ++ [.tx b, .rx []] } }

/-! ### Command words -/

/-- The tests of 30_encoding.md R98 on a word that is no ABORT, as arithmetic on the word: a reserved opcode, a reserved bit
set, a field the opcode does not use, or a count above 64. -/
def illegalWord (w : Word) : Prop :=
  let opc := w.toNat % 256
  let n := w.toNat / 2 ^ 8 % 128
  let b := w.toNat / 2 ^ 16 % 2
  let a := w.toNat / 2 ^ 17 % 2
  opc ∉ [0x01, 0x02, 0x03, 0x04, 0x05, 0x06, 0x07, 0x10, 0x11, 0x12, 0x20, 0x21, 0x22]
    ∨ w.toNat / 2 ^ 18 ≠ 0 ∨ w.toNat / 2 ^ 15 % 2 ≠ 0
    ∨ (n ≠ 0 ∧ opc ∉ [0x04, 0x05, 0x12]) ∨ (b ≠ 0 ∧ opc ∉ [0x02, 0x11]) ∨ (a ≠ 0 ∧ opc ∉ [0x20, 0x21])
    ∨ (opc ∈ [0x04, 0x05, 0x12] ∧ 64 < n)

/-! ### A static bus -/

/-- The devices whose ROM ID agrees with `cand` below position `p`: those still answering at `p` when the bits of `cand`
have been written back (42_search.md R172). -/
def agreeing (ids : List DWord) (cand : DWord) (p : Nat) : List DWord :=
  ids.filter fun d => (List.range p).all fun k => d.getLsbD k == cand.getLsbD k

/-! ### The register window -/

/-- The host may write the register (10_state.md R20: RW). -/
def Reg.readWrite : Reg → Bool
  | .dataLo | .dataHi | .crc | .timeout | .maskLo | .maskHi | .retryLimit => true
  | .cmd | .status | .rxLo | .rxHi | .nmaskLo | .nmaskHi | .candLo | .candHi | .romidLo | .romidHi | .sstat
  | .retries | .idcount | .idr => false

/-- A running command may write the register, or fields of it (10_state.md R58). -/
def Reg.openWhileBusy : Reg → Bool
  | .status | .rxLo | .rxHi | .crc | .maskLo | .maskHi | .nmaskLo | .nmaskHi | .candLo | .candHi | .romidLo
  | .romidHi | .sstat | .retries | .idcount => true
  | .cmd | .dataLo | .dataHi | .timeout | .retryLimit | .idr => false

/-! ### The invariant -/

/-- One event in the order of round trips: whether a round trip is open, none once the order is broken. A change to
RESET_RATE may cut an open round trip off: block reset (20_memory.md R71, 70_reset_and_hazards.md R241, R242). -/
def tripOrder : Option Bool → SerialEvent → Option Bool
  | some false, .tx _ => some true
  | some false, .setRate _ => some false
  | some true, .rx _ => some false
  | some true, .setRate .reset => some false
  | some false, .rx _ => none
  | some true, .tx _ => none
  | some true, .setRate .slot => none
  | none, _ => none

/-- Whether a round trip is open at the end of a history; none where the history breaks the order of R71. -/
def tripOpen (h : List SerialEvent) : Option Bool := h.foldl tripOrder (some false)

/-- The rate after one event. -/
def rateAfter : Option Rate → SerialEvent → Option Rate
  | _, .setRate r => some r
  | old, .tx _ => old
  | old, .rx _ => old

/-- The rate a history has set last. -/
def lastRate (h : List SerialEvent) : Option Rate := h.foldl rateAfter none

/-- The bits of `x` from position `p` on are 0. -/
def zeroFrom (x : DWord) (p : Nat) : Prop := ∀ k, p ≤ k → x.getLsbD k = false

/-- What SSTAT and CAND say of the last pass with an outcome agrees with its outcome (10_state.md R37, R43, R44, R45). -/
def passRecord (ss : SStat) (cand : DWord) : Prop :=
  match ss.pout with
  | none => ss.scrc = 0x00#8 ∧ ss.failPos = 0#6
  | some .noPresence => ss.scrc = 0x00#8 ∧ ss.failPos = 0#6 ∧ cand = 0#64
  | some .valid => ss.scrc = 0x00#8 ∧ ss.failPos = 0#6 ∧ romCrc cand = 0x00#8
  | some .crcBad => ss.scrc ≠ 0x00#8 ∧ ss.failPos = 0#6 ∧ romCrc cand = ss.scrc
  | some .noResponse => ss.scrc = 0x00#8 ∧ zeroFrom cand ss.failPos.toNat
  | some .violation => ss.scrc = 0x00#8 ∧ zeroFrom cand ss.failPos.toNat

/-- The sequencer's progress agrees with its stage (42_search.md R173): before position 0 nothing is selected, at a
position nothing from it on is, and a pass that ends checked has the checksum it says. -/
def stageRecord (q : Sequencer) : Prop :=
  match q.stage with
  | .start => q.pos = 0 ∧ q.candAcc = 0#64
  | .passReset => q.pos = 0 ∧ q.candAcc = 0#64
  | .passCmd i => i < 8 ∧ q.pos = 0 ∧ q.candAcc = 0#64
  | .value => zeroFrom q.candAcc q.pos
  | .complement _ => zeroFrom q.candAcc q.pos
  | .select _ => zeroFrom q.candAcc q.pos
  | .passEnd .noPresence => q.candAcc = 0#64
  | .passEnd .valid => q.scrc = 0x00#8 ∧ romCrc q.candAcc = 0x00#8
  | .passEnd .crcBad => q.scrc ≠ 0x00#8 ∧ romCrc q.candAcc = q.scrc
  | .passEnd .noResponse => zeroFrom q.candAcc q.pos
  | .passEnd .violation => zeroFrom q.candAcc q.pos

/-- The invariant of the block. -/
structure State.Inv (s : State) : Prop where
  /-- An idle sequencer holds no progress and no pending abort (10_state.md R51, R52). -/
  idle : s.seq.phase = .idle → s.seq = Sequencer.idle
  /-- CMD reads the running command's word, and it is no ABORT (10_state.md R21, 43_control.md R190). -/
  latched : s.seq.phase = .run → s.cmd = s.seq.cmdw ∧ opcField s.seq.cmdw ≠ 0x3F#8
  /-- int.POS is 0..63 (10_state.md R52). -/
  position : s.seq.pos < 64
  /-- The progress of a pass is consistent. -/
  progress : stageRecord s.seq
  /-- DONE is never set together with ACTIVE (10_state.md R40). -/
  session : ¬(s.sstat.active = true ∧ s.sstat.done = true)
  /-- A delivered ROM ID passes the CRC test (41_crc8.md R156). -/
  delivered : s.sstat.idv = true → romCrc s.romid = 0x00#8
  /-- The outcome registers agree with the outcome (10_state.md R43 to R45). -/
  recorded : passRecord s.sstat s.cand
  /-- Only a command with round trips has one in flight (70_reset_and_hazards.md R257). -/
  flight : s.seq.inFlight = true → runsRoundTrips s.seq.cmdw = true
  /-- Round trips are strictly sequential, and one is open exactly while it is in flight (20_memory.md R71). -/
  ordered : tripOpen s.world.events = some s.seq.inFlight
  /-- STATUS.RATE is the rate configured last (10_state.md R28). -/
  rate : lastRate s.world.events = some s.status.rate

end Sys2Proof.Machine
end

