-- ==== Sys2Proof/Certificates/Slice0/Obligations.lean ====
section
/-! DEFINITION. The statements about the block, for the provers. Each docstring names the rule of spec/ it rests on. -/

open Sys2Proof Sys2Proof.Machine

/-! ### Encoding (spec/30_encoding.md) -/

/-- R90 to R96: decoding the encoding of a well-formed command gives it back, with every operand. -/
def Obligations.DecodeOfEncodeIsTheCommand : Prop :=
  ∀ i : Instr, WellFormed i → decode (encode i) = .legal i

/-- R98, R101: a word decodes to a well-formed command only, and to one whose word it is, but for the ignored bits of
ABORT. -/
def Obligations.DecodedCommandEncodesToItsWord : Prop :=
  ∀ (w : Word) (i : Instr), decode w = .legal i → WellFormed i ∧ (i ≠ .abort → encode i = w)

/-- R98, R99: which words the decoder rejects, said in arithmetic on the word (Sys2Proof/Safety.lean illegalWord). -/
def Obligations.RejectedWordsAreTheIllegalOnes : Prop :=
  ∀ w : Word, (∃ why, decode w = .illegal why) ↔ w.toNat % 256 ≠ 0x3F ∧ illegalWord w

/-- R90 to R96, R103: words written out from the spec's encoding. -/
def Obligations.WrittenOutWordsDecode : Prop :=
  decode 0x00000001#32 = .legal .owReset ∧ decode 0x00010002#32 = .legal (.owWrbit true)
    ∧ decode 0x00000804#32 = .legal (.owWrbits 8) ∧ decode 0x00004005#32 = .legal (.owRdbits 64)
    ∧ decode 0x00010011#32 = .legal (.crcBit true) ∧ decode 0x00003812#32 = .legal (.crcBits 56)
    ∧ decode 0x00020020#32 = .legal (.srchBegin true) ∧ decode 0x00020021#32 = .legal (.srchPass true)
    ∧ decode 0x00000022#32 = .legal .srchNext ∧ decode 0xFFFFFF3F#32 = .legal .abort

/-! ### The Signal Codec (spec/40_signal_codec.md): the result of each command, from every idle state -/

/-- R114, R118: OW.RESET makes one reset round trip, which sends 0xF0, and ends well: PRESENCE says whether the echo was
below 0xF0, the rate is RESET_RATE, and nothing else but CMD, ADV and ERRCODE changes. -/
def Obligations.ResetCommandReportsPresence : Prop :=
  ∀ s : State, readyIdle s 3 → answered s.world 1 →
    let t := afterTrips .reset [0xF0#8] (granted s)
    exec .owReset s = .next (endedWell 0x00000001#32
      { t with status := { t.status with presence := decide ((echoAt s.world 0).toNat < 0xF0) } })

/-- R115, R119: OW.WRBIT sends 0xFF for 1 and 0x00 for 0, whatever comes back, and ends well. -/
def Obligations.WriteBitSendsItsBit : Prop :=
  ∀ (b : Bool) (s : State), readyIdle s 3 → answered s.world 1 →
    exec (.owWrbit b) s =
      .next (endedWell (if b then 0x00010002#32 else 0x00000002#32)
        (afterSlots [if b then 0xFF#8 else 0x00#8] (granted s)))

/-- R117, R121: OW.WRBITS sends the low N bits of DATA, bit 0 first, and ends well; N = 0 sends nothing. -/
def Obligations.WriteBitsSendsDataLowBitFirst : Prop :=
  ∀ (n : Nat) (s : State), n ≤ 64 → readyIdle s (2 * n + 1) → answered s.world n →
    exec (.owWrbits n) s =
      .next (endedWell (encode (.owWrbits n)) (afterSlots (writeBytes s.data n) (granted s)))

/-- R123: OW.WRBYTE with DATA in [0,255] sends its 8 bits, bit 0 first, and ends well. -/
def Obligations.WriteByteSendsEightBits : Prop :=
  ∀ s : State, s.data.toNat ≤ 255 → readyIdle s 17 → answered s.world 8 →
    exec .owWrbyte s = .next (endedWell 0x00000006#32 (afterSlots (writeBytes s.data 8) (granted s)))

/-- R123: OW.WRBYTE with DATA above 255 ends with INVALID_BYTE, with no round trip and no rate change. -/
def Obligations.WriteByteRefusesLargeData : Prop :=
  ∀ s : State, 255 < s.data.toNat → readyIdle s 1 →
    exec .owWrbyte s = .next (endedWith .invalidByte 0x00000006#32 (granted s))

/-- R120, R122, R124: a read command sends read slots, and RX takes the sampled bits, the first at bit 0, zeros above. -/
def Obligations.ReadCommandsSampleIntoRx : Prop :=
  (∀ s : State, readyIdle s 3 → answered s.world 1 →
    exec .owRdbit s =
      .next (endedWell 0x00000003#32 { afterSlots (readBytes 1) (granted s) with rx := sampledBits s.world 1 })) ∧
  (∀ (n : Nat) (s : State), n ≤ 64 → readyIdle s (2 * n + 1) → answered s.world n →
    exec (.owRdbits n) s =
      .next (endedWell (encode (.owRdbits n))
        { afterSlots (readBytes n) (granted s) with rx := sampledBits s.world n })) ∧
  (∀ s : State, readyIdle s 17 → answered s.world 8 →
    exec .owRdbyte s =
      .next (endedWell 0x00000007#32 { afterSlots (readBytes 8) (granted s) with rx := sampledBits s.world 8 })) ∧
  (∀ (w : World) (n i : Nat), n ≤ 64 →
    (sampledBits w n).getLsbD i = (decide (i < n) && decide (echoAt w i = 0xFF#8)))

/-- R126: OW.WRBYTE of a byte does exactly what OW.WRBITS of 8 bits does, and OW.RDBYTE what OW.RDBITS of 8 does, whatever
comes back and wherever the schedule leaves them: the same events and the same state, but for the latched word. -/
def Obligations.ByteCommandsAreEightBitCommands : Prop :=
  (∀ s : State, s.data.toNat ≤ 255 → s.seq.phase = .idle →
    ∃ t, exec (.owWrbits 8) s = .next t ∧
      exec .owWrbyte s = .next { t with
        cmd := 0x00000006#32
        seq := { t.seq with cmdw := if t.busy then 0x00000006#32 else t.seq.cmdw } }) ∧
  (∀ s : State, s.seq.phase = .idle →
    ∃ t, exec (.owRdbits 8) s = .next t ∧
      exec .owRdbyte s = .next { t with
        cmd := 0x00000007#32
        seq := { t.seq with cmdw := if t.busy then 0x00000007#32 else t.seq.cmdw } })

/-- R112, R117, R220: a write or read of N slots whose slot `m` receives nothing ends there with WIRING_FAULT: the slots
before it stand, its own transmit has happened, no later one does, and RX keeps its value. The same of the one round trip of
OW.RESET, OW.WRBIT and OW.RDBIT: its rate change and its transmit stand, and PRESENCE, SAMPLE and RX keep their values. -/
def Obligations.EmptyReceiveEndsMultiSlotCommand : Prop :=
  (∀ (n m : Nat) (s : State), n ≤ 64 → m < n → readyIdle s (2 * m + 2) → answered s.world m → s.world.answer m = [] →
    exec (.owWrbits n) s =
      .next (endedWith .wiringFault (encode (.owWrbits n))
        (afterEmptyTrip .slot (slotByte (s.data.getLsbD m)) (afterSlots (writeBytes s.data m) (granted s)))) ∧
    exec (.owRdbits n) s =
      .next (endedWith .wiringFault (encode (.owRdbits n))
        (afterEmptyTrip .slot 0xFF#8 (afterSlots (readBytes m) (granted s))))) ∧
  (∀ s : State, readyIdle s 2 → s.world.answer 0 = [] →
    exec .owReset s = .next (endedWith .wiringFault 0x00000001#32 (afterEmptyTrip .reset 0xF0#8 (granted s))) ∧
    (∀ b : Bool, exec (.owWrbit b) s =
      .next (endedWith .wiringFault (if b then 0x00010002#32 else 0x00000002#32)
        (afterEmptyTrip .slot (if b then 0xFF#8 else 0x00#8) (granted s)))) ∧
    exec .owRdbit s = .next (endedWith .wiringFault 0x00000003#32 (afterEmptyTrip .slot 0xFF#8 (granted s))))

/-! ### The CRC-8 Engine (spec/41_crc8.md) -/

/-- R152, R153, R154: the CRC commands write CRC, and nothing else but CMD and ERRCODE. -/
def Obligations.CrcCommandsUpdateCrc : Prop :=
  ∀ s : State, readyIdle s 1 →
    exec .crcClr s = .next (endedWell 0x00000010#32 { granted s with crc := 0x00#8 }) ∧
    (∀ b : Bool, exec (.crcBit b) s =
      .next (endedWell (if b then 0x00010011#32 else 0x00000011#32) { granted s with crc := upd s.crc b })) ∧
    (∀ n : Nat, n ≤ 64 → exec (.crcBits n) s =
      .next (endedWell (encode (.crcBits n)) { granted s with crc := updN s.crc s.data n }))

/-- R157 (a): the update of many bits is linear. -/
def Obligations.CrcUpdateIsLinear : Prop :=
  ∀ (r1 r2 : Byte) (v1 v2 : DWord) (n : Nat),
    updN (r1 ^^^ r2) (v1 ^^^ v2) n = updN r1 v1 n ^^^ updN r2 v2 n

/-- R157 (b): a byte may be folded into the register before eight zero updates. -/
def Obligations.CrcByteFoldsIntoRegister : Prop :=
  ∀ r v : Byte, updN r (v.zeroExtend 64) 8 = updN (r ^^^ v) 0#64 8

/-- R156: the ID built from 56 bits and their checksum passes the CRC test. -/
def Obligations.IdWithItsChecksumIsValid : Prop :=
  ∀ id : DWord, id.extractLsb' 56 8 = updN 0x00#8 id 56 → romCrc id = 0x00#8

/-- R157 (c): flipping any one bit of a valid ID makes it fail the CRC test. -/
def Obligations.CrcDetectsEverySingleBitFlip : Prop :=
  ∀ (id : DWord) (i : Nat), i < 64 → romCrc id = 0x00#8 → romCrc (id ^^^ (1#64 <<< i)) ≠ 0x00#8

/-! ### The Search Engine (spec/42_search.md) -/

/-- R170, R171, R172: the four pairs of a position, of which (0,1) and (1,0) select 0 and 1 and leave the working mask, (0,0)
selects by Resolve on the working mask, and (1,1) selects nothing; and the four branches of Resolve, with "no set bit above
p" said bit by bit, and no other bit of the mask changed. -/
def Obligations.ResolveFollowsTheDiscrepancyRule : Prop :=
  ∀ (p : Nat) (w : DWord), p < 64 →
    let highest := ∀ k, p < k → k < 64 → w.getLsbD k = false
    (choose false true p w = some (false, w) ∧ choose true false p w = some (true, w)
      ∧ choose false false p w = some (resolve p w) ∧ choose true true p w = none) ∧
    ((w.getLsbD p = true ∧ highest) → (resolve p w).1 = false ∧ (resolve p w).2.getLsbD p = false) ∧
    ((w.getLsbD p = true ∧ ¬highest) → resolve p w = (true, w)) ∧
    ((w.getLsbD p = false ∧ highest) → (resolve p w).1 = true ∧ (resolve p w).2.getLsbD p = true) ∧
    ((w.getLsbD p = false ∧ ¬highest) → resolve p w = (false, w)) ∧
    (∀ k, k ≠ p → (resolve p w).2.getLsbD k = w.getLsbD k)

/-- R177: SRCH.BEGIN clears the last session and opens one in mode A, with no round trip. -/
def Obligations.SearchBeginOpensSession : Prop :=
  ∀ (a : Bool) (s : State), readyIdle s 1 →
    exec (.srchBegin a) s =
      .next (endedWell (if a then 0x00020020#32 else 0x00000020#32)
        { granted s with
          mask := 0#64, nmask := 0#64, cand := 0#64, romid := 0#64
          sstat := { active := true, done := false, alarm := a, idv := false, pout := none, scrc := 0x00#8,
                     failPos := 0#6 }
          retries := 0#32, idcount := 0#32 })

/-- R173, R176, R178: SRCH.PASS, turn by turn, does what the pass as one function says of the same answers: the same
bytes on the wire in the same order, the outcome recorded, PROTOCOL_VIOLATION for a (1,1) pair in a normal pass and a
good end otherwise, and nothing else changed. The command byte of a normal pass goes out as the slots of 0xF0 and that of an
alarm-only pass as the slots of 0xEC, bit 0 first (R97, R173). -/
def Obligations.SearchPassRefinesThePassFunction : Prop :=
  (∀ (a : Bool) (s : State), readyIdle s (2 * (nextPass a s).trips + 1) → answered s.world (nextPass a s).trips →
    exec (.srchPass a) s =
      .next ((if (nextPass a s).outcome = .violation then endedWith .protocolViolation (encode (.srchPass a))
        else endedWell (encode (.srchPass a))) (afterPass (nextPass a s) (granted s)))) ∧
  (∀ (a : Bool) (m0 : DWord) (sample : Nat → Bool),
    (passOf a m0 true sample).sent.take 8 =
      if a then [0x00#8, 0x00#8, 0xFF#8, 0xFF#8, 0x00#8, 0xFF#8, 0xFF#8, 0xFF#8]
      else [0x00#8, 0x00#8, 0x00#8, 0x00#8, 0xFF#8, 0xFF#8, 0xFF#8, 0xFF#8])

/-- R174, R257: the first (1,1) pair, at position `p`, ends the pass there: NO_RESPONSE in an alarm-only pass and VIOLATION
in a normal one, `p` recorded as FAILPOS and 0 as the checksum, no bit selected from `p` on, after 1 + 8 + 3p + 2 round
trips, the last two of them read slots. -/
def Obligations.SilentPairEndsThePass : Prop :=
  ∀ (a : Bool) (m0 : DWord) (sample : Nat → Bool) (p : Nat), p < 64 →
    (∀ j, j < p → ¬(sample (9 + 3 * j) = true ∧ sample (10 + 3 * j) = true)) →
    sample (9 + 3 * p) = true → sample (10 + 3 * p) = true →
    let r := passOf a m0 true sample
    r.outcome = (if a then .noResponse else .violation) ∧ r.failPos = p ∧ r.crc = 0x00#8
      ∧ (∀ k, p ≤ k → r.cand.getLsbD k = false) ∧ r.trips = 1 + 8 + 3 * p + 2
      ∧ r.sent.drop (8 + 3 * p) = [0xFF#8, 0xFF#8]

/-- R179, R181: SRCH.NEXT in an open session whose first pass is not CRC_BAD ends as that pass's outcome says: an ID
delivered, with MASK moved on and DONE when the new mask is 0; DONE with no ID; or PROTOCOL_VIOLATION with the session
closed. A SRCH.NEXT whose earlier passes were CRC_BAD ends as its next pass says in the same way, RETRIES keeping the count of
those (R180). -/
def Obligations.SearchNextEndsAsItsPassSays : Prop :=
  (∀ s : State, s.sstat.active = true → readyIdle s (2 * (nextPass s.sstat.alarm s).trips + 1) →
    answered s.world (nextPass s.sstat.alarm s).trips → (nextPass s.sstat.alarm s).outcome ≠ .crcBad →
    exec .srchNext s =
      .next (afterNextPass 0x00000022#32 (nextPass s.sstat.alarm s) (clearResult (granted s)))) ∧
  (∀ s : State, s.seq.passBegun s.mask → 2 * (nextPass s.sstat.alarm s).trips + 1 ≤ s.world.grant →
    answered s.world (nextPass s.sstat.alarm s).trips → (nextPass s.sstat.alarm s).outcome ≠ .crcBad →
    exec .srchNext s = .next (afterNextPass s.cmd (nextPass s.sstat.alarm s) (granted s)))

/-- R179, R212: SRCH.NEXT with no open session ends with SEQUENCE_ERROR, with no round trip and before it has written
anything: MASK, ROMID, IDCOUNT and SSTAT, its IDV and DONE included, stay (95_test_vectors.md L2-S5). RETRIES stays too, by the
order of R179's lines; that they win over the wording of 10_state.md R42, R46 and R59 is log entry 15. -/
def Obligations.SearchNextNeedsSession : Prop :=
  ∀ s : State, s.sstat.active = false → readyIdle s 1 →
    exec .srchNext s = .next (endedWith .sequenceError 0x00000022#32 (granted s))

/-- R179, R180: where the first pass of SRCH.NEXT in an open session is CRC_BAD, its outcome is recorded, RETRIES is 1, and
another pass begins from the same MASK, whatever RETRY_LIMIT is: a bound of at least 1 allows one retry. -/
def Obligations.FirstBadPassRollsBack : Prop :=
  ∀ s : State, s.seq.phase = .idle → s.sstat.active = true →
    s.world.grant = 2 * (nextPass s.sstat.alarm s).trips + 1 →
    answered s.world (nextPass s.sstat.alarm s).trips → (nextPass s.sstat.alarm s).outcome = .crcBad →
    ∃ q : Sequencer, q.passBegun s.mask ∧ q.cmdw = 0x00000022#32 ∧
      exec .srchNext s = .next
        { afterPass (nextPass s.sstat.alarm s) (clearResult (granted s)) with
          cmd := 0x00000022#32, retries := 1#32, seq := q }

/-- R180: a CRC_BAD pass of a running SRCH.NEXT, as the second and every later pass begins (the first: the statement above),
discards its candidate and mask: past the bound the command ends with
CHECKSUM_MISMATCH and the session closed, else another pass begins from the same MASK with one retry more counted. -/
def Obligations.BadChecksumRollsBackOrEnds : Prop :=
  ∀ s : State, s.seq.passBegun s.mask → s.world.grant = 2 * (nextPass s.sstat.alarm s).trips + 1 →
    answered s.world (nextPass s.sstat.alarm s).trips → (nextPass s.sstat.alarm s).outcome = .crcBad →
    let counted : Word := if s.retries = 0xFFFFFFFF#32 then s.retries else s.retries + 1#32
    let recorded : State := { afterPass (nextPass s.sstat.alarm s) (granted s) with retries := counted }
    (s.retryLimit ≠ 0#32 ∧ s.retryLimit.toNat < counted.toNat →
      exec .srchNext s = .next (endedWith .checksumMismatch s.cmd (closeSession recorded))) ∧
    (¬(s.retryLimit ≠ 0#32 ∧ s.retryLimit.toNat < counted.toNat) →
      ∃ q : Sequencer, q.passBegun s.mask ∧ q.cmdw = s.seq.cmdw ∧
        exec .srchNext s = .next { recorded with seq := q })

/-- R179, D30: a SRCH.NEXT that ends with an error leaves MASK alone and closes the session, however many passes it
made. -/
def Obligations.FailedSearchNextKeepsMask : Prop :=
  ∀ s t : State, exec .srchNext s = .next t → t.seq.phase = .idle →
    t.status.errcode ≠ .ok → t.mask = s.mask ∧ t.romid = s.romid ∧ t.idcount = s.idcount ∧ t.sstat.active = false

/-- R170 to R173: on a bus with a fixed set of devices, each answering at a position with its own bit while its ID agrees
with the bits written back so far, a pass from any mask visits all positions and its candidate is the ID of one of them;
from mask 0 it is the first in the order of R184: where another device's ID first differs, the candidate has the 1. -/
def Obligations.StaticBusPassFindsAPresentDevice : Prop :=
  ∀ (alarm : Bool) (m0 : DWord) (ids : List DWord) (sample : Nat → Bool), ids ≠ [] →
    let r := passOf alarm m0 true sample
    (∀ p, p < 64 →
      sample (9 + 3 * p) = (agreeing ids r.cand p).all (fun d => d.getLsbD p) ∧
      sample (10 + 3 * p) = (agreeing ids r.cand p).all (fun d => !d.getLsbD p)) →
    r.cand ∈ ids ∧ r.trips = 201 ∧
      (m0 = 0#64 → ∀ d ∈ ids, d ≠ r.cand →
        ∃ k, k < 64 ∧ (∀ j, j < k → d.getLsbD j = r.cand.getLsbD j) ∧ d.getLsbD k = false ∧ r.cand.getLsbD k = true)

/-- R252: on a shorted bus, where every slot samples 0, a normal pass from mask 0 selects 1 at every position and its
candidate fails the CRC test with 0xC9. -/
def Obligations.ShortedBusPassIsBad : Prop :=
  let r := passOf false 0#64 true (fun _ => false)
  r.outcome = .crcBad ∧ r.cand = 0xFFFFFFFFFFFFFFFF#64 ∧ r.mask = 0xFFFFFFFFFFFFFFFF#64 ∧ r.crc = 0xC9#8
    ∧ r.trips = 201

/-- R170, R172, R173: when at every position the value slot samples a bit of `id` and the complement slot its
complement, as one responder answers, the pass's candidate is `id`, its mask is the input mask, and it makes 201 round
trips. -/
def Obligations.SingleResponderIsFound : Prop :=
  ∀ (alarm : Bool) (m0 id : DWord) (sample : Nat → Bool),
    (∀ p, p < 64 → sample (9 + 3 * p) = id.getLsbD p ∧ sample (10 + 3 * p) = !id.getLsbD p) →
    (passOf alarm m0 true sample).cand = id ∧ (passOf alarm m0 true sample).mask = m0
      ∧ (passOf alarm m0 true sample).outcome = (if romCrc id = 0x00#8 then .valid else .crcBad)
      ∧ (passOf alarm m0 true sample).crc = romCrc id ∧ (passOf alarm m0 true sample).trips = 201

/-! ### ABORT, errors and completion (spec/43_control.md, spec/60_exceptions.md) -/

/-- R190: an ABORT to an idle block changes nothing at all; to a running block it sets int.ABORTREQ and nothing else. -/
def Obligations.AbortOnlyRequests : Prop :=
  (∀ s : State, s.seq.phase = .idle → exec .abort s = .next s) ∧
  (∀ s : State, s.seq.phase = .run → exec .abort s = .next { s with seq := { s.seq with abortReq := true } }) ∧
  (∀ w : Word, w.toNat % 256 = 0x3F → decode w = .legal .abort)

/-- R191: a running command with an abort pending that comes to a round trip ends there with ABORTED: no rate change, no
transmit; SRCH.NEXT closes its session and keeps MASK. Before its first round trip SRCH.NEXT has cleared IDV and RETRIES
(R179, R42, R46; log entry 15). -/
def Obligations.PendingAbortEndsCommandBeforeRoundTrip : Prop :=
  ∀ (i : Instr) (s : State), s.seq.phase = .run → s.seq.inFlight = false → s.seq.abortReq = true →
    roundTripNext i s = true → 1 ≤ s.world.grant →
    exec i s = .next (endedWith .aborted s.cmd (abortWrites i (granted s)))

/-- R191: a pending abort is lost on a command with no round trip left: one that ends in its next turn ends the same
way with the abort as without. -/
def Obligations.LateAbortIsDropped : Prop :=
  ∀ (i : Instr) (s t : State), s.seq.phase = .run → s.seq.inFlight = false → i ≠ .abort →
    roundTripNext i s = false → s.world.grant = 1 →
    exec i { s with seq := { s.seq with abortReq := false } } = .next t → t.seq.phase = .idle →
    exec i { s with seq := { s.seq with abortReq := true } } = .next t

/-- R113, R221: where a receive brings more than the one byte `e`, the command goes on with `e` as it does where that byte
came alone, and the others are discarded; ADV is set exactly where the receive returned two or more bytes (how many it
returns is bounded by RX_MAX, 20_memory.md R73), and the event records what it returned. -/
def Obligations.ExtraBytesAreAdvisory : Prop :=
  ∀ (i : Instr) (s : State) (e : Byte) (extra : List Byte) (rest : List (List Byte)), hasRoundTrips i = true →
    s.seq.phase = .run → s.seq.inFlight = true → s.world.grant = 1 → s.world.answers = (e :: extra) :: rest →
    ∃ t, exec i { s with world := { s.world with answers := [e] :: rest } } = .next t ∧
      exec i s = .next { t with
        status := { t.status with adv := s.status.adv || decide (2 ≤ (s.world.answer 0).length) }
        world := { t.world with events := s.world.events ++ [.rx (s.world.answer 0)] } }

/-- R112, R191, R215: a round trip in flight that receives nothing ends its command with WIRING_FAULT, also over a pending
abort; SRCH.NEXT closes its session. Here as at every end of a command, that the sequencer's discarded progress is zero is
the model's choice (log entry 7). -/
def Obligations.EmptyReceiveEndsCommand : Prop :=
  ∀ (i : Instr) (s : State), hasRoundTrips i = true → s.seq.phase = .run → s.seq.inFlight = true →
    s.world.answer 0 = [] → 1 ≤ s.world.grant →
    exec i s = .next (endedWith .wiringFault s.cmd (errorWrites i
      { granted s with
        world := { (granted s).world.popAnswer with events := s.world.events ++ [.rx []] } }))

/-- R98, R99: the host's write of any word to CMD of an idle block: an ABORT is ignored entirely; a word that fails a test
of R98 is accepted and ends with ILLEGAL_COMMAND, with no serial event and nothing changed but CMD, ERRCODE and ERR; any
other word is a command's word, and the command runs. Zero progress afterwards: log entry 7. -/
def Obligations.IdleCommandWriteIsDecoded : Prop :=
  ∀ (w : Word) (rest : List Move) (s : State), s.seq.phase = .idle →
    s.world.moves = .host (.write 0x00#8 4 w) :: rest → 1 ≤ ({ s.world with moves := rest } : World).grant →
    let s1 : State := { s with world := { s.world with moves := rest } }
    (w.toNat % 256 = 0x3F → step s = .next s1) ∧
    (w.toNat % 256 ≠ 0x3F → illegalWord w → step s = .next (endedWith .illegalCommand w (granted s1))) ∧
    (w.toNat % 256 ≠ 0x3F → ¬illegalWord w → ∃ i, WellFormed i ∧ encode i = w ∧ step s = exec i s1)

/-! ### The step -/

/-- The host's write of a command word to an idle block runs that command, and a running block goes on with the command
its latched word decodes to (30_encoding.md R98, 10_state.md R50, 60_exceptions.md R211); a running block whose latched word
is illegal ends with ILLEGAL_COMMAND in its next turn, also with an abort pending (R98, R215). -/
def Obligations.StepRunsTheDecodedCommand : Prop :=
  (∀ (w : Word) (i : Instr) (rest : List Move) (s : State), decode w = .legal i → s.seq.phase = .idle →
    s.world.moves = .host (.write 0x00#8 4 w) :: rest →
    step s = exec i { s with world := { s.world with moves := rest } }) ∧
  (∀ (w : Word) (rest : List Move) (s : State), decode w = .legal .abort → s.seq.phase = .run →
    s.world.moves = .host (.write 0x00#8 4 w) :: rest →
    step s = exec .abort { s with world := { s.world with moves := rest } }) ∧
  (∀ (i : Instr) (s : State), decode s.seq.cmdw = .legal i → s.seq.phase = .run →
    (s.world.moves = [] ∨ ∃ n rest, s.world.moves = .turns n :: rest) → step s = exec i s) ∧
  (∀ (why : DecodeError) (s : State), decode s.seq.cmdw = .illegal why → s.seq.phase = .run →
    (s.world.moves = [] ∨ ∃ n rest, s.world.moves = .turns (n + 1) :: rest) →
    step s = .next (endedWith .illegalCommand s.cmd (granted s)))

/-- R67, R211: how the turns of a command are spread over steps does not matter. A command of an idle block is its
acceptance, and then its turns; turns `m` in one step and `n` in the next leave what turns `m + n` leave in one; and where
the answers to come are given, a host read between them changes nothing of that but the record of reads and the count of free
values drawn. -/
def Obligations.TurnsMayBeSpreadOverSteps : Prop :=
  (∀ (i : Instr) (s : State), i ≠ .abort → s.seq.phase = .idle → exec i s = exec i (accept (encode i) s)) ∧
  (∀ (m n : Nat) (rest : List Move) (s t : State), s.seq.phase = .run → decode s.seq.cmdw ≠ .legal .abort →
    s.world.moves = .turns m :: .turns n :: rest → step s = .next t →
    step t = step { s with world := { s.world with moves := .turns (m + n) :: rest } }) ∧
  (∀ (m n : Nat) (addr : BitVec 8) (rest : List Move) (s : State), s.seq.phase = .run →
    decode s.seq.cmdw ≠ .legal .abort → addr.toNat % 4 = 0 → m + n ≤ s.world.answers.length →
    s.world.moves = .turns m :: .host (.read addr 4) :: .turns n :: rest →
    ∃ t u v w : State, ∃ l : List (BitVec 8 × Word), ∃ d : Nat,
      step s = .next t ∧ step t = .next u ∧ step u = .next v ∧
      step { s with world := { s.world with moves := .turns (m + n) :: rest } } = .next w ∧
      v = { w with world := { w.world with reads := l, draws := d } })

/-- R21, R67: the write that delivers a word other than ABORT to an idle block sets BUSY in the same step, CMD reads the
word at once, and no register but CMD and BUSY has changed. -/
def Obligations.AcceptanceSetsBusyAtOnce : Prop :=
  ∀ (w : Word) (m : Move) (rest : List Move) (s : State), decode w ≠ .legal .abort → s.seq.phase = .idle →
    s.world.moves = .host (.write 0x00#8 4 w) :: m :: rest → (∀ n, m ≠ .turns n) →
    ∃ q : Sequencer, q.phase = .run ∧ q.cmdw = w ∧ q.abortReq = false ∧
      step s = .next { s with cmd := w, seq := q, world := { s.world with moves := m :: rest } }

/-- R65: writes while a command runs: STATUS is written, an ABORT is taken, every other write of a writable register is
lost and sets OVR, and writes of other offsets do nothing. -/
def Obligations.WritesWhileBusyAreLostWithOvr : Prop :=
  ∀ (addr : BitVec 8) (v : Word) (rest : List Move) (s : State), s.seq.phase = .run → addr.toNat % 4 = 0 →
    s.world.moves = .host (.write addr 4 v) :: rest →
    step s = .next (
      let s1 : State := { s with world := { s.world with moves := rest } }
      if addr = 0x04#8 then { s1 with status := s.status.clearSticky v }
      else if addr = 0x00#8 ∧ v.toNat % 256 = 0x3F then { s1 with seq := { s.seq with abortReq := true } }
      else if addr.toNat ∈ [0x00, 0x08, 0x0C, 0x18, 0x1C, 0x20, 0x24, 0x48] then
        { s1 with status := { s.status with ovr := true } }
      else s1)

/-- R30: a write of STATUS, whether or not a command runs, clears the bits 1 to 3 it has a 1 in and changes no other bit and
no other field; a read of STATUS returns 0 in bit 7 and in bits 31:12. -/
def Obligations.StatusWriteClearsStickyBitsOnly : Prop :=
  (∀ (v : Word) (rest : List Move) (s : State), s.world.moves = .host (.write 0x04#8 4 v) :: rest →
    ∃ st : Status, step s = .next { s with status := st, world := { s.world with moves := rest } } ∧
      st.word s.busy = s.status.word s.busy &&& ~~~(v &&& 0x0000000E#32)) ∧
  (∀ (rest : List Move) (s : State), s.world.moves = .host (.read 0x04#8 4) :: rest →
    ∃ (v : Word) (d : Nat), v &&& 0xFFFFF080#32 = 0#32 ∧
      step s = .next { s with world :=
        { s.world with moves := rest, draws := d, reads := s.world.reads ++ [(0x04#8, v)] } })

/-- R62: an offset of no register reads 0 and ignores writes, whether or not a command runs. -/
def Obligations.UnmappedOffsetsReadZeroAndIgnoreWrites : Prop :=
  ∀ (addr : BitVec 8) (rest : List Move) (s : State), 0x54 ≤ addr.toNat → addr.toNat % 4 = 0 →
    (s.world.moves = .host (.read addr 4) :: rest →
      ∃ d : Nat, step s = .next { s with world :=
        { s.world with moves := rest, draws := d, reads := s.world.reads ++ [(addr, 0#32)] } }) ∧
    (∀ v : Word, s.world.moves = .host (.write addr 4 v) :: rest →
      step s = .next { s with world := { s.world with moves := rest } })

/-- R20, R64, R31 to R35, R47, R155: a write to an idle block of an offset other than CMD's changes the register at that offset
and no other: a writable one takes the value (CRC its low 8 bits), STATUS loses the sticky bits written as 1, and all else
is read-only or unmapped; said with the offsets as numbers, and of the value each register then has. -/
def Obligations.IdleWritesChangeOneRegister : Prop :=
  ∀ (addr : BitVec 8) (v : Word) (rest : List Move) (s : State), s.seq.phase = .idle → addr.toNat % 4 = 0 →
    addr ≠ 0x00#8 → s.world.moves = .host (.write addr 4 v) :: rest →
    ∃ t, step s = .next t ∧
      t = { s with
        status := if addr = 0x04#8 then s.status.clearSticky v else s.status
        data := if addr = 0x08#8 then s.data.extractLsb' 32 32 ++ v
          else if addr = 0x0C#8 then v ++ s.data.extractLsb' 0 32 else s.data
        crc := if addr = 0x18#8 then v.extractLsb' 0 8 else s.crc
        timeout := if addr = 0x1C#8 then v else s.timeout
        mask := if addr = 0x20#8 then s.mask.extractLsb' 32 32 ++ v
          else if addr = 0x24#8 then v ++ s.mask.extractLsb' 0 32 else s.mask
        retryLimit := if addr = 0x48#8 then v else s.retryLimit
        world := { s.world with moves := rest } } ∧
      ∀ r : Reg, regValue t r =
        if r.offset ≠ addr then regValue s r
        else if r = .status then regValue s .status &&& ~~~(v &&& 0x0000000E#32)
        else if r = .crc then v &&& 0x000000FF#32
        else if r.readWrite then v
        else regValue s r

/-- R20, R62, R64: a read of an idle block gives the host the register's value, 0 where the offset is unmapped, and changes
nothing. The offsets are those of R20's table as numbers; the words of STATUS and SSTAT are StatusAndSstatLayout's. -/
def Obligations.IdleReadsChangeNothing : Prop :=
  ∀ (addr : BitVec 8) (rest : List Move) (s : State), s.seq.phase = .idle → addr.toNat % 4 = 0 →
    s.world.moves = .host (.read addr 4) :: rest →
    ∃ v : Word,
      (∀ e ∈ [(0x00, s.cmd), (0x04, regValue s .status), (0x08, s.data.extractLsb' 0 32), (0x0C, s.data.extractLsb' 32 32),
          (0x10, s.rx.extractLsb' 0 32), (0x14, s.rx.extractLsb' 32 32), (0x18, s.crc.zeroExtend 32), (0x1C, s.timeout),
          (0x20, s.mask.extractLsb' 0 32), (0x24, s.mask.extractLsb' 32 32), (0x28, s.nmask.extractLsb' 0 32),
          (0x2C, s.nmask.extractLsb' 32 32), (0x30, s.cand.extractLsb' 0 32), (0x34, s.cand.extractLsb' 32 32),
          (0x38, s.romid.extractLsb' 0 32), (0x3C, s.romid.extractLsb' 32 32), (0x40, regValue s .sstat),
          (0x44, s.retries), (0x48, s.retryLimit), (0x4C, s.idcount), (0x50, 0x4F570001#32)],
        addr.toNat = e.1 → v = e.2) ∧
      (0x54 ≤ addr.toNat → v = 0#32) ∧
      step s = .next { s with world := { s.world with moves := rest, reads := s.world.reads ++ [(addr, v)] } }

/-- R22, R58: a read while a command runs changes no register; CMD, DATA, TIMEOUT, RETRY_LIMIT and IDR read their values,
STATUS reads BUSY 1, OVR its value and reserved bits 0, and reserved bits of SSTAT and CRC read 0. The other bits are free
values: nothing is said of them. -/
def Obligations.BusyReadsKeepWhatIsFixed : Prop :=
  ∀ (addr : BitVec 8) (rest : List Move) (s : State), s.seq.phase = .run → addr.toNat % 4 = 0 →
    s.world.moves = .host (.read addr 4) :: rest →
    ∃ v : Word, ∃ d : Nat,
      step s = .next { s with world := { s.world with moves := rest, draws := d, reads := s.world.reads ++ [(addr, v)] } }
      ∧ (∀ e ∈ [(0x00, s.cmd), (0x08, s.data.extractLsb' 0 32), (0x0C, s.data.extractLsb' 32 32), (0x1C, s.timeout),
            (0x48, s.retryLimit), (0x50, 0x4F570001#32)], addr.toNat = e.1 → v = e.2)
      ∧ (∀ r : Reg, r.offset = addr → r.openWhileBusy = false → v = regValue s r)
      ∧ (addr = 0x04#8 → v.getLsbD 0 = true ∧ v.getLsbD 3 = s.status.ovr ∧ v &&& 0xFFFFF080#32 = 0#32)
      ∧ (addr = 0x40#8 → v &&& 0xFFC00080#32 = 0#32)
      ∧ (addr = 0x18#8 → v &&& 0xFFFFFF00#32 = 0#32)
      ∧ (0x54 ≤ addr.toNat → v = 0#32)

/-- R22 to R30, R39 to R45: where the fields of STATUS and SSTAT stand in their words, and the codes of the rate (R28), of the
errors (60_exceptions.md R210) and of the pass outcomes (R43); and of the other registers, that X is X_HI ++ X_LO
(20_memory.md R63), that CRC is zero-extended (R33), and that the rest read their field. -/
def Obligations.StatusAndSstatLayout : Prop :=
  ∀ s : State,
    (regValue s .status).toNat =
      s.busy.toNat + 2 * s.status.err.toNat + 4 * s.status.adv.toNat + 8 * s.status.ovr.toNat
        + 16 * s.status.presence.toNat + 32 * s.status.sample.toNat
        + 64 * (match s.status.rate with
            | .reset => 0
            | .slot => 1)
        + 256 * (match s.status.errcode with
            | .ok => 0
            | .wiringFault => 1
            | .invalidByte => 2
            | .protocolViolation => 3
            | .checksumMismatch => 4
            | .illegalCommand => 5
            | .sequenceError => 6
            | .aborted => 7) ∧
    (regValue s .sstat).toNat =
      s.sstat.active.toNat + 2 * s.sstat.done.toNat + 4 * s.sstat.alarm.toNat + 8 * s.sstat.idv.toNat
        + 16 * (match s.sstat.pout with
            | none => 0
            | some .noPresence => 1
            | some .valid => 2
            | some .crcBad => 3
            | some .noResponse => 4
            | some .violation => 5)
        + 256 * s.sstat.scrc.toNat + 65536 * s.sstat.failPos.toNat ∧
    (regValue s .dataHi ++ regValue s .dataLo = s.data ∧ regValue s .rxHi ++ regValue s .rxLo = s.rx
      ∧ regValue s .maskHi ++ regValue s .maskLo = s.mask ∧ regValue s .nmaskHi ++ regValue s .nmaskLo = s.nmask
      ∧ regValue s .candHi ++ regValue s .candLo = s.cand ∧ regValue s .romidHi ++ regValue s .romidLo = s.romid) ∧
    (regValue s .cmd = s.cmd ∧ (regValue s .crc).toNat = s.crc.toNat ∧ regValue s .timeout = s.timeout
      ∧ regValue s .retries = s.retries ∧ regValue s .retryLimit = s.retryLimit ∧ regValue s .idcount = s.idcount
      ∧ regValue s .idr = 0x4F570001#32)

/-- R61: a step is refused exactly when the host's next access is not an aligned access of four bytes; no command, no word
that fails to decode (R98) and no reset is. That such an access is refused, which R61 leaves to the implementation, is the
model's treatment, the one 93_implementation_defined.md I1 names (log entry 9). -/
def Obligations.OnlyMisformedAccessesAreRefused : Prop :=
  ∀ s : State, (∃ r, step s = .refused r) ↔
    ∃ a rest, s.world.moves = .host a :: rest ∧
      match a with
      | .read addr size => ¬(size = 4 ∧ addr.toNat % 4 = 0)
      | .write addr size _ => ¬(size = 4 ∧ addr.toNat % 4 = 0)

/-! ### Reset (spec/70_reset_and_hazards.md, spec/10_state.md R57) -/

/-- R240 to R242: block reset, in whatever state, discards the running command, gives every field its reset value, and
makes the one event SerialSetRate(RESET_RATE). Where it falls between the rate change and the transmit of a round trip, the
rate change has happened and the transmit never does; this is the one place inside a turn where it can fall. That the
discarded progress is zero and that the history goes on are the model's choices (log entries 7 and 11). -/
def Obligations.BlockResetDiscardsEverything : Prop :=
  (∀ (rest : List Move) (s : State), s.world.moves = .blockReset :: rest →
    step s = .next { State.reset with
      world := { s.world with moves := rest, events := s.world.events ++ [.setRate .reset] } }) ∧
  (∀ (rest : List Move) (s t : State) (r : Rate) (b : Byte), s.world.moves = .blockResetAfterRate :: rest →
    sequencerStep { s with world := { s.world with moves := [] } } = .next t →
    t.world.events = s.world.events ++ [.setRate r, .tx b] →
    step s = .next { State.reset with
      world := { s.world with moves := rest, events := s.world.events ++ [.setRate r, .setRate .reset] } }) ∧
  (∀ (rest : List Move) (s t : State), s.world.moves = .blockResetAfterRate :: rest →
    sequencerStep { s with world := { s.world with moves := [] } } = .next t →
    (∀ r b, t.world.events ≠ s.world.events ++ [.setRate r, .tx b]) →
    step s = .next { State.reset with
      world := { s.world with moves := rest, events := s.world.events ++ [.setRate .reset] } })

/-- R57: what the registers read after reset; the sequencer is idle and holds no abort. -/
def Obligations.RegistersReadTheirResetValues : Prop :=
  State.reset.seq.phase = .idle ∧ State.reset.seq.abortReq = false ∧ ∀ r : Reg, regValue State.reset r =
    match r with
    | .idr => 0x4F570001#32
    | .timeout => Config.timeoutReset
    | .cmd | .status | .dataLo | .dataHi | .rxLo | .rxHi | .crc | .maskLo | .maskHi | .nmaskLo | .nmaskHi | .candLo
    | .candHi | .romidLo | .romidHi | .sstat | .retries | .retryLimit | .idcount => 0#32

/-! ### The host's search loop -/

/-- 30_encoding.md R102, 42_search.md R182: a host in the loop of `search()`, its SRCH.NEXT over: where ERRCODE is not 0 it
stops with that error; else the ID is added to its result exactly where SSTAT.IDV is set, and it goes on to another SRCH.NEXT
exactly where DONE is not. Only reads happen: no register, no serial event, no answer and no free value is touched. The count
of its accesses (1, 2 or 4), the IDs kept beside an error, and the schedule `[.turns 0]` that a host's access leaves are those
of the model's host (log entry 20). -/
def Obligations.SearchLoopCollectsDeliveredIds : Prop :=
  ∀ (h : HostRun) (rest : List HostOp) (s : State), h.todo = .searchError :: rest → s.seq.phase = .idle →
    let run := fun n => systemRun advanceAlone (List.replicate n .host) h ((), s)
    let onlyRead := fun t : State =>
      t = { s with world := { s.world with moves := [.turns 0], reads := t.world.reads } }
    let found := h.ids ++ (if s.sstat.idv then [s.romid] else [])
    (s.status.errcode ≠ .ok →
      (run 1).1.todo = [] ∧ (run 1).1.error = some s.status.errcode.code ∧ (run 1).1.ids = h.ids
        ∧ onlyRead (run 1).2.2) ∧
    (s.status.errcode = .ok → let n := if s.sstat.idv then 4 else 2
      (run n).1.ids = found ∧ (run n).1.error = h.error
        ∧ (run n).1.todo =
          (if s.sstat.done then [] else [.form (.cmd .srchNext), .form .wait, .searchError]) ++ rest
        ∧ onlyRead (run n).2.2)

/-- 30_encoding.md R102: a wait ends at the first STATUS that reads BUSY 0, and stays in place before: while a command runs
it reads STATUS again and again. It changes no register, and makes no serial event; the schedule `[.turns 0]` that a host's
access leaves is the model's (log entry 20), and the count of free values drawn is too (log entry 4). -/
def Obligations.WaitEndsWhenTheCommandHasEnded : Prop :=
  ∀ (h : HostRun) (rest : List HostOp) (s : State), h.todo = .form .wait :: rest →
    let run := systemRun advanceAlone [.host] h ((), s)
    run.1.todo = (if s.seq.phase = .run then h.todo else rest) ∧
      run.2.2 = { s with world := { s.world with
        moves := [.turns 0], draws := run.2.2.world.draws, reads := run.2.2.world.reads } }

/-! ### Frames and whole-machine rules -/

/-- 10_state.md R25, R31, R34, R47: no command writes DATA, TIMEOUT, RETRY_LIMIT or OVR, in any state. -/
def Obligations.CommandsLeaveOperandsAlone : Prop :=
  ∀ (i : Instr) (s t : State), exec i s = .next t →
    t.data = s.data ∧ t.timeout = s.timeout ∧ t.retryLimit = s.retryLimit ∧ t.status.ovr = s.status.ovr
      ∧ t.world.reads = s.world.reads

/-- 10_state.md R59: the frame of the codec commands, in any state: the search registers and CRC keep their values; RX
too, but for a read command; PRESENCE, but for OW.RESET; SAMPLE with OW.RESET. -/
def Obligations.CodecCommandsFrame : Prop :=
  ∀ (i : Instr) (s t : State),
    (i = .owReset ∨ (∃ b, i = .owWrbit b) ∨ i = .owRdbit ∨ (∃ n, i = .owWrbits n) ∨ (∃ n, i = .owRdbits n)
      ∨ i = .owWrbyte ∨ i = .owRdbyte) →
    exec i s = .next t →
    t.crc = s.crc ∧ t.mask = s.mask ∧ t.nmask = s.nmask ∧ t.cand = s.cand ∧ t.romid = s.romid ∧ t.sstat = s.sstat
      ∧ t.retries = s.retries ∧ t.idcount = s.idcount
      ∧ (i ≠ .owRdbit → (∀ n, i ≠ .owRdbits n) → i ≠ .owRdbyte → t.rx = s.rx)
      ∧ (i ≠ .owReset → t.status.presence = s.status.presence)
      ∧ (i = .owReset → t.status.sample = s.status.sample)

/-- 10_state.md R59: the frame of the commands with no round trip, in any state: they touch no flag of STATUS but ERRCODE,
make no serial event, and leave DATA, RX and the other registers they do not name alone. -/
def Obligations.LocalCommandsFrame : Prop :=
  ∀ (i : Instr) (s t : State),
    (i = .crcClr ∨ (∃ b, i = .crcBit b) ∨ (∃ n, i = .crcBits n) ∨ (∃ a, i = .srchBegin a)) →
    exec i s = .next t →
    t.rx = s.rx ∧ { t.status with errcode := .ok } = { s.status with errcode := .ok }
      ∧ t.world.events = s.world.events ∧ t.world.answers = s.world.answers ∧ t.world.draws = s.world.draws
      ∧ ((∃ a, i = .srchBegin a) → t.crc = s.crc)
      ∧ ((∀ a, i ≠ .srchBegin a) → t.mask = s.mask ∧ t.nmask = s.nmask ∧ t.cand = s.cand ∧ t.romid = s.romid
          ∧ t.sstat = s.sstat ∧ t.retries = s.retries ∧ t.idcount = s.idcount)

/-- R159, R178, 10_state.md R59: the frame of the search commands with passes, in any state: CRC and RX keep their values,
ALARM too; SRCH.PASS also leaves MASK, ROMID, RETRIES, IDCOUNT and the session's flags alone. R176, R191: CAND, NMASK and the
outcome fields of SSTAT are written by the end of a pass with an outcome alone: a turn changes them only where the pass has
ended and no round trip is in flight, and SRCH.PASS changes them only where it ends well or with PROTOCOL_VIOLATION. -/
def Obligations.PassCommandsFrame : Prop :=
  ∀ (i : Instr) (s t : State), ((∃ a, i = .srchPass a) ∨ i = .srchNext) → exec i s = .next t →
    let outcomeWritten := t.cand ≠ s.cand ∨ t.nmask ≠ s.nmask ∨ t.sstat.pout ≠ s.sstat.pout
      ∨ t.sstat.scrc ≠ s.sstat.scrc ∨ t.sstat.failPos ≠ s.sstat.failPos
    t.crc = s.crc ∧ t.rx = s.rx ∧ t.sstat.alarm = s.sstat.alarm
      ∧ ((∃ a, i = .srchPass a) →
          t.mask = s.mask ∧ t.romid = s.romid ∧ t.retries = s.retries ∧ t.idcount = s.idcount
            ∧ t.sstat.active = s.sstat.active ∧ t.sstat.done = s.sstat.done ∧ t.sstat.idv = s.sstat.idv)
      ∧ (s.world.grant = 1 → outcomeWritten →
          s.seq.phase = .run ∧ s.seq.inFlight = false ∧ ∃ o, s.seq.stage = .passEnd o)
      ∧ ((∃ a, i = .srchPass a) → outcomeWritten →
          t.seq.phase = .idle ∧ (t.status.errcode = .ok ∨ t.status.errcode = .protocolViolation))

/-- 10_state.md R32: RX changes only where a read command ends well. -/
def Obligations.RxChangesOnlyWhereReadEndsWell : Prop :=
  ∀ (i : Instr) (s t : State), exec i s = .next t → t.rx ≠ s.rx →
    (i = .owRdbit ∨ (∃ n, i = .owRdbits n) ∨ i = .owRdbyte) ∧ t.seq.phase = .idle ∧ t.status.errcode = .ok

/-- 10_state.md R23: once set, ERR is cleared only by a host write of STATUS with bit 1 set, or by block reset. -/
def Obligations.ErrIsSticky : Prop :=
  ∀ s t : State, s.status.err = true → step s = .next t → t.status.err = false →
    ∃ rest, s.world.moves = .blockReset :: rest ∨ s.world.moves = .blockResetAfterRate :: rest ∨
      ∃ v : Word, v.getLsbD 1 = true ∧ s.world.moves = .host (.write 0x04#8 4 v) :: rest

/-- R33, R159: CRC changes only by a CRC command, by the host's write of CRC, or by block reset. -/
def Obligations.CrcRegisterHasThreeWriters : Prop :=
  ∀ s t : State, step s = .next t → t.crc ≠ s.crc →
    (∃ rest, s.world.moves = .blockReset :: rest ∨ s.world.moves = .blockResetAfterRate :: rest) ∨
    (∃ v rest, s.world.moves = .host (.write 0x18#8 4 v) :: rest) ∨
    (∃ w i, (s.seq.cmdw = w ∨ ∃ rest, s.world.moves = .host (.write 0x00#8 4 w) :: rest) ∧ decode w = .legal i ∧
      (i = .crcClr ∨ (∃ b, i = .crcBit b) ∨ ∃ n, i = .crcBits n))

/-- 20_memory.md R70: no step takes an event of the serial port back. That block reset keeps the history too (R241 adds one
event) is the model's reading (log entry 11). -/
def Obligations.EventHistoryOnlyGrows : Prop :=
  ∀ s t : State, step s = .next t → ∃ l, t.world.events = s.world.events ++ l

/-! ### The invariant -/

/-- The invariant holds after reset. -/
def Obligations.ResetStateMeetsInvariant : Prop := State.reset.Inv

/-- Every step keeps the invariant (Sys2Proof/Safety.lean State.Inv): round trips are strictly sequential in the event
history (20_memory.md R71) and one is open exactly while it is in flight; STATUS.RATE is the rate set last (10_state.md
R28); a delivered ROM ID passes the CRC test (41_crc8.md R156); DONE and ACTIVE are never set together (10_state.md R40);
the outcome registers agree with the outcome (R43 to R45); an idle sequencer holds no abort and no progress (R51, R52;
the values of discarded progress are the model's choice, log entry 7). -/
def Obligations.EveryStepKeepsInvariant : Prop :=
  ∀ s t : State, s.Inv → step s = .next t → t.Inv
end

