-- ==== Sys2Proof/Laws/State.lean ====
section
/-! SUPPORT. What each named update of State leaves as it was, field by field, and what it makes of the fields it
writes. -/

namespace Sys2Proof.Machine

variable (s : State)

/-! ### accept -/

@[simp] theorem accept_status (w : Word) : (accept w s).status = s.status := rfl
@[simp] theorem accept_data (w : Word) : (accept w s).data = s.data := rfl
@[simp] theorem accept_rx (w : Word) : (accept w s).rx = s.rx := rfl
@[simp] theorem accept_crc (w : Word) : (accept w s).crc = s.crc := rfl
@[simp] theorem accept_timeout (w : Word) : (accept w s).timeout = s.timeout := rfl
@[simp] theorem accept_mask (w : Word) : (accept w s).mask = s.mask := rfl
@[simp] theorem accept_nmask (w : Word) : (accept w s).nmask = s.nmask := rfl
@[simp] theorem accept_cand (w : Word) : (accept w s).cand = s.cand := rfl
@[simp] theorem accept_romid (w : Word) : (accept w s).romid = s.romid := rfl
@[simp] theorem accept_sstat (w : Word) : (accept w s).sstat = s.sstat := rfl
@[simp] theorem accept_retries (w : Word) : (accept w s).retries = s.retries := rfl
@[simp] theorem accept_retryLimit (w : Word) : (accept w s).retryLimit = s.retryLimit := rfl
@[simp] theorem accept_idcount (w : Word) : (accept w s).idcount = s.idcount := rfl
@[simp] theorem accept_world (w : Word) : (accept w s).world = s.world := rfl

/-! ### complete -/

@[simp] theorem complete_cmd : (complete s).cmd = s.cmd := rfl
@[simp] theorem complete_status : (complete s).status = s.status := rfl
@[simp] theorem complete_data : (complete s).data = s.data := rfl
@[simp] theorem complete_rx : (complete s).rx = s.rx := rfl
@[simp] theorem complete_crc : (complete s).crc = s.crc := rfl
@[simp] theorem complete_timeout : (complete s).timeout = s.timeout := rfl
@[simp] theorem complete_mask : (complete s).mask = s.mask := rfl
@[simp] theorem complete_nmask : (complete s).nmask = s.nmask := rfl
@[simp] theorem complete_cand : (complete s).cand = s.cand := rfl
@[simp] theorem complete_romid : (complete s).romid = s.romid := rfl
@[simp] theorem complete_sstat : (complete s).sstat = s.sstat := rfl
@[simp] theorem complete_retries : (complete s).retries = s.retries := rfl
@[simp] theorem complete_retryLimit : (complete s).retryLimit = s.retryLimit := rfl
@[simp] theorem complete_idcount : (complete s).idcount = s.idcount := rfl
@[simp] theorem complete_world : (complete s).world = s.world := rfl

/-! ### raise -/

@[simp] theorem raise_cmd (e : ErrCode) : (raise e s).cmd = s.cmd := rfl
@[simp] theorem raise_data (e : ErrCode) : (raise e s).data = s.data := rfl
@[simp] theorem raise_rx (e : ErrCode) : (raise e s).rx = s.rx := rfl
@[simp] theorem raise_crc (e : ErrCode) : (raise e s).crc = s.crc := rfl
@[simp] theorem raise_timeout (e : ErrCode) : (raise e s).timeout = s.timeout := rfl
@[simp] theorem raise_mask (e : ErrCode) : (raise e s).mask = s.mask := rfl
@[simp] theorem raise_nmask (e : ErrCode) : (raise e s).nmask = s.nmask := rfl
@[simp] theorem raise_cand (e : ErrCode) : (raise e s).cand = s.cand := rfl
@[simp] theorem raise_romid (e : ErrCode) : (raise e s).romid = s.romid := rfl
@[simp] theorem raise_sstat (e : ErrCode) : (raise e s).sstat = s.sstat := rfl
@[simp] theorem raise_retries (e : ErrCode) : (raise e s).retries = s.retries := rfl
@[simp] theorem raise_retryLimit (e : ErrCode) : (raise e s).retryLimit = s.retryLimit := rfl
@[simp] theorem raise_idcount (e : ErrCode) : (raise e s).idcount = s.idcount := rfl
@[simp] theorem raise_world (e : ErrCode) : (raise e s).world = s.world := rfl

/-! ### succeed -/

@[simp] theorem succeed_cmd : (succeed s).cmd = s.cmd := rfl
@[simp] theorem succeed_data : (succeed s).data = s.data := rfl
@[simp] theorem succeed_rx : (succeed s).rx = s.rx := rfl
@[simp] theorem succeed_crc : (succeed s).crc = s.crc := rfl
@[simp] theorem succeed_timeout : (succeed s).timeout = s.timeout := rfl
@[simp] theorem succeed_mask : (succeed s).mask = s.mask := rfl
@[simp] theorem succeed_nmask : (succeed s).nmask = s.nmask := rfl
@[simp] theorem succeed_cand : (succeed s).cand = s.cand := rfl
@[simp] theorem succeed_romid : (succeed s).romid = s.romid := rfl
@[simp] theorem succeed_sstat : (succeed s).sstat = s.sstat := rfl
@[simp] theorem succeed_retries : (succeed s).retries = s.retries := rfl
@[simp] theorem succeed_retryLimit : (succeed s).retryLimit = s.retryLimit := rfl
@[simp] theorem succeed_idcount : (succeed s).idcount = s.idcount := rfl
@[simp] theorem succeed_world : (succeed s).world = s.world := rfl

/-! ### emit -/

@[simp] theorem emit_cmd (e : SerialEvent) : (emit e s).cmd = s.cmd := rfl
@[simp] theorem emit_status (e : SerialEvent) : (emit e s).status = s.status := rfl
@[simp] theorem emit_data (e : SerialEvent) : (emit e s).data = s.data := rfl
@[simp] theorem emit_rx (e : SerialEvent) : (emit e s).rx = s.rx := rfl
@[simp] theorem emit_crc (e : SerialEvent) : (emit e s).crc = s.crc := rfl
@[simp] theorem emit_timeout (e : SerialEvent) : (emit e s).timeout = s.timeout := rfl
@[simp] theorem emit_mask (e : SerialEvent) : (emit e s).mask = s.mask := rfl
@[simp] theorem emit_nmask (e : SerialEvent) : (emit e s).nmask = s.nmask := rfl
@[simp] theorem emit_cand (e : SerialEvent) : (emit e s).cand = s.cand := rfl
@[simp] theorem emit_romid (e : SerialEvent) : (emit e s).romid = s.romid := rfl
@[simp] theorem emit_sstat (e : SerialEvent) : (emit e s).sstat = s.sstat := rfl
@[simp] theorem emit_retries (e : SerialEvent) : (emit e s).retries = s.retries := rfl
@[simp] theorem emit_retryLimit (e : SerialEvent) : (emit e s).retryLimit = s.retryLimit := rfl
@[simp] theorem emit_idcount (e : SerialEvent) : (emit e s).idcount = s.idcount := rfl
@[simp] theorem emit_seq (e : SerialEvent) : (emit e s).seq = s.seq := rfl

/-! ### setRate -/

@[simp] theorem setRate_cmd (r : Rate) : (setRate r s).cmd = s.cmd := by
  unfold setRate; split <;> rfl
@[simp] theorem setRate_data (r : Rate) : (setRate r s).data = s.data := by
  unfold setRate; split <;> rfl
@[simp] theorem setRate_rx (r : Rate) : (setRate r s).rx = s.rx := by
  unfold setRate; split <;> rfl
@[simp] theorem setRate_crc (r : Rate) : (setRate r s).crc = s.crc := by
  unfold setRate; split <;> rfl
@[simp] theorem setRate_timeout (r : Rate) : (setRate r s).timeout = s.timeout := by
  unfold setRate; split <;> rfl
@[simp] theorem setRate_mask (r : Rate) : (setRate r s).mask = s.mask := by
  unfold setRate; split <;> rfl
@[simp] theorem setRate_nmask (r : Rate) : (setRate r s).nmask = s.nmask := by
  unfold setRate; split <;> rfl
@[simp] theorem setRate_cand (r : Rate) : (setRate r s).cand = s.cand := by
  unfold setRate; split <;> rfl
@[simp] theorem setRate_romid (r : Rate) : (setRate r s).romid = s.romid := by
  unfold setRate; split <;> rfl
@[simp] theorem setRate_sstat (r : Rate) : (setRate r s).sstat = s.sstat := by
  unfold setRate; split <;> rfl
@[simp] theorem setRate_retries (r : Rate) : (setRate r s).retries = s.retries := by
  unfold setRate; split <;> rfl
@[simp] theorem setRate_retryLimit (r : Rate) : (setRate r s).retryLimit = s.retryLimit := by
  unfold setRate; split <;> rfl
@[simp] theorem setRate_idcount (r : Rate) : (setRate r s).idcount = s.idcount := by
  unfold setRate; split <;> rfl
@[simp] theorem setRate_seq (r : Rate) : (setRate r s).seq = s.seq := by
  unfold setRate; split <;> rfl

/-! ### serialTx -/

@[simp] theorem serialTx_cmd (b : Byte) : (serialTx b s).cmd = s.cmd := rfl
@[simp] theorem serialTx_status (b : Byte) : (serialTx b s).status = s.status := rfl
@[simp] theorem serialTx_data (b : Byte) : (serialTx b s).data = s.data := rfl
@[simp] theorem serialTx_rx (b : Byte) : (serialTx b s).rx = s.rx := rfl
@[simp] theorem serialTx_crc (b : Byte) : (serialTx b s).crc = s.crc := rfl
@[simp] theorem serialTx_timeout (b : Byte) : (serialTx b s).timeout = s.timeout := rfl
@[simp] theorem serialTx_mask (b : Byte) : (serialTx b s).mask = s.mask := rfl
@[simp] theorem serialTx_nmask (b : Byte) : (serialTx b s).nmask = s.nmask := rfl
@[simp] theorem serialTx_cand (b : Byte) : (serialTx b s).cand = s.cand := rfl
@[simp] theorem serialTx_romid (b : Byte) : (serialTx b s).romid = s.romid := rfl
@[simp] theorem serialTx_sstat (b : Byte) : (serialTx b s).sstat = s.sstat := rfl
@[simp] theorem serialTx_retries (b : Byte) : (serialTx b s).retries = s.retries := rfl
@[simp] theorem serialTx_retryLimit (b : Byte) : (serialTx b s).retryLimit = s.retryLimit := rfl
@[simp] theorem serialTx_idcount (b : Byte) : (serialTx b s).idcount = s.idcount := rfl

/-! ### serialRx -/

@[simp] theorem serialRx_cmd : (serialRx s).cmd = s.cmd := rfl
@[simp] theorem serialRx_status : (serialRx s).status = s.status := rfl
@[simp] theorem serialRx_data : (serialRx s).data = s.data := rfl
@[simp] theorem serialRx_rx : (serialRx s).rx = s.rx := rfl
@[simp] theorem serialRx_crc : (serialRx s).crc = s.crc := rfl
@[simp] theorem serialRx_timeout : (serialRx s).timeout = s.timeout := rfl
@[simp] theorem serialRx_mask : (serialRx s).mask = s.mask := rfl
@[simp] theorem serialRx_nmask : (serialRx s).nmask = s.nmask := rfl
@[simp] theorem serialRx_cand : (serialRx s).cand = s.cand := rfl
@[simp] theorem serialRx_romid : (serialRx s).romid = s.romid := rfl
@[simp] theorem serialRx_sstat : (serialRx s).sstat = s.sstat := rfl
@[simp] theorem serialRx_retries : (serialRx s).retries = s.retries := rfl
@[simp] theorem serialRx_retryLimit : (serialRx s).retryLimit = s.retryLimit := rfl
@[simp] theorem serialRx_idcount : (serialRx s).idcount = s.idcount := rfl

/-! ### noteExtra -/

@[simp] theorem noteExtra_cmd (a : List Byte) : (noteExtra a s).cmd = s.cmd := by
  unfold noteExtra; split <;> rfl
@[simp] theorem noteExtra_data (a : List Byte) : (noteExtra a s).data = s.data := by
  unfold noteExtra; split <;> rfl
@[simp] theorem noteExtra_rx (a : List Byte) : (noteExtra a s).rx = s.rx := by
  unfold noteExtra; split <;> rfl
@[simp] theorem noteExtra_crc (a : List Byte) : (noteExtra a s).crc = s.crc := by
  unfold noteExtra; split <;> rfl
@[simp] theorem noteExtra_timeout (a : List Byte) : (noteExtra a s).timeout = s.timeout := by
  unfold noteExtra; split <;> rfl
@[simp] theorem noteExtra_mask (a : List Byte) : (noteExtra a s).mask = s.mask := by
  unfold noteExtra; split <;> rfl
@[simp] theorem noteExtra_nmask (a : List Byte) : (noteExtra a s).nmask = s.nmask := by
  unfold noteExtra; split <;> rfl
@[simp] theorem noteExtra_cand (a : List Byte) : (noteExtra a s).cand = s.cand := by
  unfold noteExtra; split <;> rfl
@[simp] theorem noteExtra_romid (a : List Byte) : (noteExtra a s).romid = s.romid := by
  unfold noteExtra; split <;> rfl
@[simp] theorem noteExtra_sstat (a : List Byte) : (noteExtra a s).sstat = s.sstat := by
  unfold noteExtra; split <;> rfl
@[simp] theorem noteExtra_retries (a : List Byte) : (noteExtra a s).retries = s.retries := by
  unfold noteExtra; split <;> rfl
@[simp] theorem noteExtra_retryLimit (a : List Byte) : (noteExtra a s).retryLimit = s.retryLimit := by
  unfold noteExtra; split <;> rfl
@[simp] theorem noteExtra_idcount (a : List Byte) : (noteExtra a s).idcount = s.idcount := by
  unfold noteExtra; split <;> rfl
@[simp] theorem noteExtra_seq (a : List Byte) : (noteExtra a s).seq = s.seq := by
  unfold noteExtra; split <;> rfl
@[simp] theorem noteExtra_world (a : List Byte) : (noteExtra a s).world = s.world := by
  unfold noteExtra; split <;> rfl

/-! ### notePresence -/

@[simp] theorem notePresence_cmd (e : Byte) : (notePresence e s).cmd = s.cmd := rfl
@[simp] theorem notePresence_data (e : Byte) : (notePresence e s).data = s.data := rfl
@[simp] theorem notePresence_rx (e : Byte) : (notePresence e s).rx = s.rx := rfl
@[simp] theorem notePresence_crc (e : Byte) : (notePresence e s).crc = s.crc := rfl
@[simp] theorem notePresence_timeout (e : Byte) : (notePresence e s).timeout = s.timeout := rfl
@[simp] theorem notePresence_mask (e : Byte) : (notePresence e s).mask = s.mask := rfl
@[simp] theorem notePresence_nmask (e : Byte) : (notePresence e s).nmask = s.nmask := rfl
@[simp] theorem notePresence_cand (e : Byte) : (notePresence e s).cand = s.cand := rfl
@[simp] theorem notePresence_romid (e : Byte) : (notePresence e s).romid = s.romid := rfl
@[simp] theorem notePresence_sstat (e : Byte) : (notePresence e s).sstat = s.sstat := rfl
@[simp] theorem notePresence_retries (e : Byte) : (notePresence e s).retries = s.retries := rfl
@[simp] theorem notePresence_retryLimit (e : Byte) : (notePresence e s).retryLimit = s.retryLimit := rfl
@[simp] theorem notePresence_idcount (e : Byte) : (notePresence e s).idcount = s.idcount := rfl
@[simp] theorem notePresence_seq (e : Byte) : (notePresence e s).seq = s.seq := rfl
@[simp] theorem notePresence_world (e : Byte) : (notePresence e s).world = s.world := rfl

/-! ### noteSample -/

@[simp] theorem noteSample_cmd (e : Byte) : (noteSample e s).cmd = s.cmd := rfl
@[simp] theorem noteSample_data (e : Byte) : (noteSample e s).data = s.data := rfl
@[simp] theorem noteSample_rx (e : Byte) : (noteSample e s).rx = s.rx := rfl
@[simp] theorem noteSample_crc (e : Byte) : (noteSample e s).crc = s.crc := rfl
@[simp] theorem noteSample_timeout (e : Byte) : (noteSample e s).timeout = s.timeout := rfl
@[simp] theorem noteSample_mask (e : Byte) : (noteSample e s).mask = s.mask := rfl
@[simp] theorem noteSample_nmask (e : Byte) : (noteSample e s).nmask = s.nmask := rfl
@[simp] theorem noteSample_cand (e : Byte) : (noteSample e s).cand = s.cand := rfl
@[simp] theorem noteSample_romid (e : Byte) : (noteSample e s).romid = s.romid := rfl
@[simp] theorem noteSample_sstat (e : Byte) : (noteSample e s).sstat = s.sstat := rfl
@[simp] theorem noteSample_retries (e : Byte) : (noteSample e s).retries = s.retries := rfl
@[simp] theorem noteSample_retryLimit (e : Byte) : (noteSample e s).retryLimit = s.retryLimit := rfl
@[simp] theorem noteSample_idcount (e : Byte) : (noteSample e s).idcount = s.idcount := rfl
@[simp] theorem noteSample_seq (e : Byte) : (noteSample e s).seq = s.seq := rfl
@[simp] theorem noteSample_world (e : Byte) : (noteSample e s).world = s.world := rfl

/-! ### slotEcho -/

@[simp] theorem slotEcho_cmd (e : Byte) : (slotEcho e s).cmd = s.cmd := rfl
@[simp] theorem slotEcho_data (e : Byte) : (slotEcho e s).data = s.data := rfl
@[simp] theorem slotEcho_rx (e : Byte) : (slotEcho e s).rx = s.rx := rfl
@[simp] theorem slotEcho_crc (e : Byte) : (slotEcho e s).crc = s.crc := rfl
@[simp] theorem slotEcho_timeout (e : Byte) : (slotEcho e s).timeout = s.timeout := rfl
@[simp] theorem slotEcho_mask (e : Byte) : (slotEcho e s).mask = s.mask := rfl
@[simp] theorem slotEcho_nmask (e : Byte) : (slotEcho e s).nmask = s.nmask := rfl
@[simp] theorem slotEcho_cand (e : Byte) : (slotEcho e s).cand = s.cand := rfl
@[simp] theorem slotEcho_romid (e : Byte) : (slotEcho e s).romid = s.romid := rfl
@[simp] theorem slotEcho_sstat (e : Byte) : (slotEcho e s).sstat = s.sstat := rfl
@[simp] theorem slotEcho_retries (e : Byte) : (slotEcho e s).retries = s.retries := rfl
@[simp] theorem slotEcho_retryLimit (e : Byte) : (slotEcho e s).retryLimit = s.retryLimit := rfl
@[simp] theorem slotEcho_idcount (e : Byte) : (slotEcho e s).idcount = s.idcount := rfl
@[simp] theorem slotEcho_world (e : Byte) : (slotEcho e s).world = s.world := rfl

/-! ### finishRead -/

@[simp] theorem finishRead_cmd : (finishRead s).cmd = s.cmd := rfl
@[simp] theorem finishRead_data : (finishRead s).data = s.data := rfl
@[simp] theorem finishRead_crc : (finishRead s).crc = s.crc := rfl
@[simp] theorem finishRead_timeout : (finishRead s).timeout = s.timeout := rfl
@[simp] theorem finishRead_mask : (finishRead s).mask = s.mask := rfl
@[simp] theorem finishRead_nmask : (finishRead s).nmask = s.nmask := rfl
@[simp] theorem finishRead_cand : (finishRead s).cand = s.cand := rfl
@[simp] theorem finishRead_romid : (finishRead s).romid = s.romid := rfl
@[simp] theorem finishRead_sstat : (finishRead s).sstat = s.sstat := rfl
@[simp] theorem finishRead_retries : (finishRead s).retries = s.retries := rfl
@[simp] theorem finishRead_retryLimit : (finishRead s).retryLimit = s.retryLimit := rfl
@[simp] theorem finishRead_idcount : (finishRead s).idcount = s.idcount := rfl
@[simp] theorem finishRead_world : (finishRead s).world = s.world := rfl

/-! ### goTo -/

@[simp] theorem goTo_cmd (g : Stage) : (goTo g s).cmd = s.cmd := rfl
@[simp] theorem goTo_status (g : Stage) : (goTo g s).status = s.status := rfl
@[simp] theorem goTo_data (g : Stage) : (goTo g s).data = s.data := rfl
@[simp] theorem goTo_rx (g : Stage) : (goTo g s).rx = s.rx := rfl
@[simp] theorem goTo_crc (g : Stage) : (goTo g s).crc = s.crc := rfl
@[simp] theorem goTo_timeout (g : Stage) : (goTo g s).timeout = s.timeout := rfl
@[simp] theorem goTo_mask (g : Stage) : (goTo g s).mask = s.mask := rfl
@[simp] theorem goTo_nmask (g : Stage) : (goTo g s).nmask = s.nmask := rfl
@[simp] theorem goTo_cand (g : Stage) : (goTo g s).cand = s.cand := rfl
@[simp] theorem goTo_romid (g : Stage) : (goTo g s).romid = s.romid := rfl
@[simp] theorem goTo_sstat (g : Stage) : (goTo g s).sstat = s.sstat := rfl
@[simp] theorem goTo_retries (g : Stage) : (goTo g s).retries = s.retries := rfl
@[simp] theorem goTo_retryLimit (g : Stage) : (goTo g s).retryLimit = s.retryLimit := rfl
@[simp] theorem goTo_idcount (g : Stage) : (goTo g s).idcount = s.idcount := rfl
@[simp] theorem goTo_world (g : Stage) : (goTo g s).world = s.world := rfl

/-! ### beginPass -/

@[simp] theorem beginPass_cmd : (beginPass s).cmd = s.cmd := rfl
@[simp] theorem beginPass_status : (beginPass s).status = s.status := rfl
@[simp] theorem beginPass_data : (beginPass s).data = s.data := rfl
@[simp] theorem beginPass_rx : (beginPass s).rx = s.rx := rfl
@[simp] theorem beginPass_crc : (beginPass s).crc = s.crc := rfl
@[simp] theorem beginPass_timeout : (beginPass s).timeout = s.timeout := rfl
@[simp] theorem beginPass_mask : (beginPass s).mask = s.mask := rfl
@[simp] theorem beginPass_nmask : (beginPass s).nmask = s.nmask := rfl
@[simp] theorem beginPass_cand : (beginPass s).cand = s.cand := rfl
@[simp] theorem beginPass_romid : (beginPass s).romid = s.romid := rfl
@[simp] theorem beginPass_sstat : (beginPass s).sstat = s.sstat := rfl
@[simp] theorem beginPass_retries : (beginPass s).retries = s.retries := rfl
@[simp] theorem beginPass_retryLimit : (beginPass s).retryLimit = s.retryLimit := rfl
@[simp] theorem beginPass_idcount : (beginPass s).idcount = s.idcount := rfl
@[simp] theorem beginPass_world : (beginPass s).world = s.world := rfl

/-! ### validate -/

@[simp] theorem validate_cmd : (validate s).cmd = s.cmd := rfl
@[simp] theorem validate_status : (validate s).status = s.status := rfl
@[simp] theorem validate_data : (validate s).data = s.data := rfl
@[simp] theorem validate_rx : (validate s).rx = s.rx := rfl
@[simp] theorem validate_crc : (validate s).crc = s.crc := rfl
@[simp] theorem validate_timeout : (validate s).timeout = s.timeout := rfl
@[simp] theorem validate_mask : (validate s).mask = s.mask := rfl
@[simp] theorem validate_nmask : (validate s).nmask = s.nmask := rfl
@[simp] theorem validate_cand : (validate s).cand = s.cand := rfl
@[simp] theorem validate_romid : (validate s).romid = s.romid := rfl
@[simp] theorem validate_sstat : (validate s).sstat = s.sstat := rfl
@[simp] theorem validate_retries : (validate s).retries = s.retries := rfl
@[simp] theorem validate_retryLimit : (validate s).retryLimit = s.retryLimit := rfl
@[simp] theorem validate_idcount : (validate s).idcount = s.idcount := rfl
@[simp] theorem validate_world : (validate s).world = s.world := rfl

/-! ### acceptBit -/

@[simp] theorem acceptBit_cmd (b : Bool) : (acceptBit b s).cmd = s.cmd := by
  simp only [acceptBit]; split <;> rfl
@[simp] theorem acceptBit_status (b : Bool) : (acceptBit b s).status = s.status := by
  simp only [acceptBit]; split <;> rfl
@[simp] theorem acceptBit_data (b : Bool) : (acceptBit b s).data = s.data := by
  simp only [acceptBit]; split <;> rfl
@[simp] theorem acceptBit_rx (b : Bool) : (acceptBit b s).rx = s.rx := by
  simp only [acceptBit]; split <;> rfl
@[simp] theorem acceptBit_crc (b : Bool) : (acceptBit b s).crc = s.crc := by
  simp only [acceptBit]; split <;> rfl
@[simp] theorem acceptBit_timeout (b : Bool) : (acceptBit b s).timeout = s.timeout := by
  simp only [acceptBit]; split <;> rfl
@[simp] theorem acceptBit_mask (b : Bool) : (acceptBit b s).mask = s.mask := by
  simp only [acceptBit]; split <;> rfl
@[simp] theorem acceptBit_nmask (b : Bool) : (acceptBit b s).nmask = s.nmask := by
  simp only [acceptBit]; split <;> rfl
@[simp] theorem acceptBit_cand (b : Bool) : (acceptBit b s).cand = s.cand := by
  simp only [acceptBit]; split <;> rfl
@[simp] theorem acceptBit_romid (b : Bool) : (acceptBit b s).romid = s.romid := by
  simp only [acceptBit]; split <;> rfl
@[simp] theorem acceptBit_sstat (b : Bool) : (acceptBit b s).sstat = s.sstat := by
  simp only [acceptBit]; split <;> rfl
@[simp] theorem acceptBit_retries (b : Bool) : (acceptBit b s).retries = s.retries := by
  simp only [acceptBit]; split <;> rfl
@[simp] theorem acceptBit_retryLimit (b : Bool) : (acceptBit b s).retryLimit = s.retryLimit := by
  simp only [acceptBit]; split <;> rfl
@[simp] theorem acceptBit_idcount (b : Bool) : (acceptBit b s).idcount = s.idcount := by
  simp only [acceptBit]; split <;> rfl
@[simp] theorem acceptBit_world (b : Bool) : (acceptBit b s).world = s.world := by
  simp only [acceptBit]; split <;> rfl

/-! ### decidePosition -/

@[simp] theorem decidePosition_cmd (a v c : Bool) : (decidePosition a v c s).cmd = s.cmd := by
  unfold decidePosition; split <;> rfl
@[simp] theorem decidePosition_status (a v c : Bool) : (decidePosition a v c s).status = s.status := by
  unfold decidePosition; split <;> rfl
@[simp] theorem decidePosition_data (a v c : Bool) : (decidePosition a v c s).data = s.data := by
  unfold decidePosition; split <;> rfl
@[simp] theorem decidePosition_rx (a v c : Bool) : (decidePosition a v c s).rx = s.rx := by
  unfold decidePosition; split <;> rfl
@[simp] theorem decidePosition_crc (a v c : Bool) : (decidePosition a v c s).crc = s.crc := by
  unfold decidePosition; split <;> rfl
@[simp] theorem decidePosition_timeout (a v c : Bool) : (decidePosition a v c s).timeout = s.timeout := by
  unfold decidePosition; split <;> rfl
@[simp] theorem decidePosition_mask (a v c : Bool) : (decidePosition a v c s).mask = s.mask := by
  unfold decidePosition; split <;> rfl
@[simp] theorem decidePosition_nmask (a v c : Bool) : (decidePosition a v c s).nmask = s.nmask := by
  unfold decidePosition; split <;> rfl
@[simp] theorem decidePosition_cand (a v c : Bool) : (decidePosition a v c s).cand = s.cand := by
  unfold decidePosition; split <;> rfl
@[simp] theorem decidePosition_romid (a v c : Bool) : (decidePosition a v c s).romid = s.romid := by
  unfold decidePosition; split <;> rfl
@[simp] theorem decidePosition_sstat (a v c : Bool) : (decidePosition a v c s).sstat = s.sstat := by
  unfold decidePosition; split <;> rfl
@[simp] theorem decidePosition_retries (a v c : Bool) : (decidePosition a v c s).retries = s.retries := by
  unfold decidePosition; split <;> rfl
@[simp] theorem decidePosition_retryLimit (a v c : Bool) : (decidePosition a v c s).retryLimit = s.retryLimit := by
  unfold decidePosition; split <;> rfl
@[simp] theorem decidePosition_idcount (a v c : Bool) : (decidePosition a v c s).idcount = s.idcount := by
  unfold decidePosition; split <;> rfl
@[simp] theorem decidePosition_world (a v c : Bool) : (decidePosition a v c s).world = s.world := by
  unfold decidePosition; split <;> rfl

/-! ### writeOutcome -/

@[simp] theorem writeOutcome_cmd (o : PassOutcome) : (writeOutcome o s).cmd = s.cmd := rfl
@[simp] theorem writeOutcome_status (o : PassOutcome) : (writeOutcome o s).status = s.status := rfl
@[simp] theorem writeOutcome_data (o : PassOutcome) : (writeOutcome o s).data = s.data := rfl
@[simp] theorem writeOutcome_rx (o : PassOutcome) : (writeOutcome o s).rx = s.rx := rfl
@[simp] theorem writeOutcome_crc (o : PassOutcome) : (writeOutcome o s).crc = s.crc := rfl
@[simp] theorem writeOutcome_timeout (o : PassOutcome) : (writeOutcome o s).timeout = s.timeout := rfl
@[simp] theorem writeOutcome_mask (o : PassOutcome) : (writeOutcome o s).mask = s.mask := rfl
@[simp] theorem writeOutcome_romid (o : PassOutcome) : (writeOutcome o s).romid = s.romid := rfl
@[simp] theorem writeOutcome_retries (o : PassOutcome) : (writeOutcome o s).retries = s.retries := rfl
@[simp] theorem writeOutcome_retryLimit (o : PassOutcome) : (writeOutcome o s).retryLimit = s.retryLimit := rfl
@[simp] theorem writeOutcome_idcount (o : PassOutcome) : (writeOutcome o s).idcount = s.idcount := rfl
@[simp] theorem writeOutcome_seq (o : PassOutcome) : (writeOutcome o s).seq = s.seq := rfl
@[simp] theorem writeOutcome_world (o : PassOutcome) : (writeOutcome o s).world = s.world := rfl

/-! ### closeSession -/

@[simp] theorem closeSession_cmd : (closeSession s).cmd = s.cmd := rfl
@[simp] theorem closeSession_status : (closeSession s).status = s.status := rfl
@[simp] theorem closeSession_data : (closeSession s).data = s.data := rfl
@[simp] theorem closeSession_rx : (closeSession s).rx = s.rx := rfl
@[simp] theorem closeSession_crc : (closeSession s).crc = s.crc := rfl
@[simp] theorem closeSession_timeout : (closeSession s).timeout = s.timeout := rfl
@[simp] theorem closeSession_mask : (closeSession s).mask = s.mask := rfl
@[simp] theorem closeSession_nmask : (closeSession s).nmask = s.nmask := rfl
@[simp] theorem closeSession_cand : (closeSession s).cand = s.cand := rfl
@[simp] theorem closeSession_romid : (closeSession s).romid = s.romid := rfl
@[simp] theorem closeSession_retries : (closeSession s).retries = s.retries := rfl
@[simp] theorem closeSession_retryLimit : (closeSession s).retryLimit = s.retryLimit := rfl
@[simp] theorem closeSession_idcount : (closeSession s).idcount = s.idcount := rfl
@[simp] theorem closeSession_seq : (closeSession s).seq = s.seq := rfl
@[simp] theorem closeSession_world : (closeSession s).world = s.world := rfl

/-! ### endSession -/

@[simp] theorem endSession_cmd : (endSession s).cmd = s.cmd := rfl
@[simp] theorem endSession_status : (endSession s).status = s.status := rfl
@[simp] theorem endSession_data : (endSession s).data = s.data := rfl
@[simp] theorem endSession_rx : (endSession s).rx = s.rx := rfl
@[simp] theorem endSession_crc : (endSession s).crc = s.crc := rfl
@[simp] theorem endSession_timeout : (endSession s).timeout = s.timeout := rfl
@[simp] theorem endSession_mask : (endSession s).mask = s.mask := rfl
@[simp] theorem endSession_nmask : (endSession s).nmask = s.nmask := rfl
@[simp] theorem endSession_cand : (endSession s).cand = s.cand := rfl
@[simp] theorem endSession_romid : (endSession s).romid = s.romid := rfl
@[simp] theorem endSession_retries : (endSession s).retries = s.retries := rfl
@[simp] theorem endSession_retryLimit : (endSession s).retryLimit = s.retryLimit := rfl
@[simp] theorem endSession_idcount : (endSession s).idcount = s.idcount := rfl
@[simp] theorem endSession_seq : (endSession s).seq = s.seq := rfl
@[simp] theorem endSession_world : (endSession s).world = s.world := rfl

/-! ### clearResult -/

@[simp] theorem clearResult_cmd : (clearResult s).cmd = s.cmd := rfl
@[simp] theorem clearResult_status : (clearResult s).status = s.status := rfl
@[simp] theorem clearResult_data : (clearResult s).data = s.data := rfl
@[simp] theorem clearResult_rx : (clearResult s).rx = s.rx := rfl
@[simp] theorem clearResult_crc : (clearResult s).crc = s.crc := rfl
@[simp] theorem clearResult_timeout : (clearResult s).timeout = s.timeout := rfl
@[simp] theorem clearResult_mask : (clearResult s).mask = s.mask := rfl
@[simp] theorem clearResult_nmask : (clearResult s).nmask = s.nmask := rfl
@[simp] theorem clearResult_cand : (clearResult s).cand = s.cand := rfl
@[simp] theorem clearResult_romid : (clearResult s).romid = s.romid := rfl
@[simp] theorem clearResult_retryLimit : (clearResult s).retryLimit = s.retryLimit := rfl
@[simp] theorem clearResult_idcount : (clearResult s).idcount = s.idcount := rfl
@[simp] theorem clearResult_seq : (clearResult s).seq = s.seq := rfl
@[simp] theorem clearResult_world : (clearResult s).world = s.world := rfl

/-! ### overrun -/

@[simp] theorem overrun_cmd : (overrun s).cmd = s.cmd := rfl
@[simp] theorem overrun_data : (overrun s).data = s.data := rfl
@[simp] theorem overrun_rx : (overrun s).rx = s.rx := rfl
@[simp] theorem overrun_crc : (overrun s).crc = s.crc := rfl
@[simp] theorem overrun_timeout : (overrun s).timeout = s.timeout := rfl
@[simp] theorem overrun_mask : (overrun s).mask = s.mask := rfl
@[simp] theorem overrun_nmask : (overrun s).nmask = s.nmask := rfl
@[simp] theorem overrun_cand : (overrun s).cand = s.cand := rfl
@[simp] theorem overrun_romid : (overrun s).romid = s.romid := rfl
@[simp] theorem overrun_sstat : (overrun s).sstat = s.sstat := rfl
@[simp] theorem overrun_retries : (overrun s).retries = s.retries := rfl
@[simp] theorem overrun_retryLimit : (overrun s).retryLimit = s.retryLimit := rfl
@[simp] theorem overrun_idcount : (overrun s).idcount = s.idcount := rfl
@[simp] theorem overrun_seq : (overrun s).seq = s.seq := rfl
@[simp] theorem overrun_world : (overrun s).world = s.world := rfl

/-! ### requestAbort -/

@[simp] theorem requestAbort_cmd : (requestAbort s).cmd = s.cmd := by
  unfold requestAbort; split <;> rfl
@[simp] theorem requestAbort_status : (requestAbort s).status = s.status := by
  unfold requestAbort; split <;> rfl
@[simp] theorem requestAbort_data : (requestAbort s).data = s.data := by
  unfold requestAbort; split <;> rfl
@[simp] theorem requestAbort_rx : (requestAbort s).rx = s.rx := by
  unfold requestAbort; split <;> rfl
@[simp] theorem requestAbort_crc : (requestAbort s).crc = s.crc := by
  unfold requestAbort; split <;> rfl
@[simp] theorem requestAbort_timeout : (requestAbort s).timeout = s.timeout := by
  unfold requestAbort; split <;> rfl
@[simp] theorem requestAbort_mask : (requestAbort s).mask = s.mask := by
  unfold requestAbort; split <;> rfl
@[simp] theorem requestAbort_nmask : (requestAbort s).nmask = s.nmask := by
  unfold requestAbort; split <;> rfl
@[simp] theorem requestAbort_cand : (requestAbort s).cand = s.cand := by
  unfold requestAbort; split <;> rfl
@[simp] theorem requestAbort_romid : (requestAbort s).romid = s.romid := by
  unfold requestAbort; split <;> rfl
@[simp] theorem requestAbort_sstat : (requestAbort s).sstat = s.sstat := by
  unfold requestAbort; split <;> rfl
@[simp] theorem requestAbort_retries : (requestAbort s).retries = s.retries := by
  unfold requestAbort; split <;> rfl
@[simp] theorem requestAbort_retryLimit : (requestAbort s).retryLimit = s.retryLimit := by
  unfold requestAbort; split <;> rfl
@[simp] theorem requestAbort_idcount : (requestAbort s).idcount = s.idcount := by
  unfold requestAbort; split <;> rfl
@[simp] theorem requestAbort_world : (requestAbort s).world = s.world := by
  unfold requestAbort; split <;> rfl

/-! ### The fields the updates write -/

@[simp] theorem accept_cmd (w : Word) : (accept w s).cmd = w := rfl
@[simp] theorem accept_seq (w : Word) :
    (accept w s).seq = { Sequencer.idle with phase := .run, cmdw := w } := rfl
@[simp] theorem complete_seq : (complete s).seq = Sequencer.idle := rfl
@[simp] theorem raise_status (e : ErrCode) :
    (raise e s).status = { s.status with errcode := e, err := true } := rfl
@[simp] theorem raise_seq (e : ErrCode) : (raise e s).seq = Sequencer.idle := rfl
@[simp] theorem succeed_status : (succeed s).status = { s.status with errcode := .ok } := rfl
@[simp] theorem succeed_seq : (succeed s).seq = Sequencer.idle := rfl
@[simp] theorem emit_world (e : SerialEvent) :
    (emit e s).world = { s.world with events := s.world.events ++ [e] } := rfl
@[simp] theorem serialTx_seq (b : Byte) : (serialTx b s).seq = { s.seq with inFlight := true } := rfl
@[simp] theorem serialTx_world (b : Byte) :
    (serialTx b s).world = { s.world with events := s.world.events ++ [.tx b] } := rfl
@[simp] theorem serialRx_seq :
    (serialRx s).seq = { s.seq with inFlight := false, index := s.seq.index + 1 } := rfl
@[simp] theorem notePresence_status (e : Byte) :
    (notePresence e s).status = { s.status with presence := presenceOf e } := rfl
@[simp] theorem noteSample_status (e : Byte) :
    (noteSample e s).status = { s.status with sample := sampleOf e } := rfl
@[simp] theorem slotEcho_status (e : Byte) :
    (slotEcho e s).status = { s.status with sample := sampleOf e } := rfl
@[simp] theorem slotEcho_seq (e : Byte) :
    (slotEcho e s).seq = { s.seq with acc := putBit s.seq.acc (s.seq.index - 1) (sampleOf e) } := rfl
@[simp] theorem finishRead_rx : (finishRead s).rx = s.seq.acc := rfl
@[simp] theorem finishRead_status : (finishRead s).status = { s.status with errcode := .ok } := rfl
@[simp] theorem finishRead_seq : (finishRead s).seq = Sequencer.idle := rfl
@[simp] theorem goTo_seq (g : Stage) : (goTo g s).seq = { s.seq with stage := g } := rfl
@[simp] theorem beginPass_seq :
    (beginPass s).seq = { s.seq with stage := .passReset, m0 := s.mask, w := s.mask, candAcc := 0#64, pos := 0,
                                     scrc := 0x00#8 } := rfl
@[simp] theorem writeOutcome_cand (o : PassOutcome) : (writeOutcome o s).cand = s.seq.candAcc := rfl
@[simp] theorem writeOutcome_nmask (o : PassOutcome) : (writeOutcome o s).nmask = s.seq.w := rfl
@[simp] theorem closeSession_sstat : (closeSession s).sstat = { s.sstat with active := false } := rfl
@[simp] theorem endSession_sstat :
    (endSession s).sstat = { s.sstat with active := false, done := true } := rfl
@[simp] theorem clearResult_sstat : (clearResult s).sstat = { s.sstat with idv := false } := rfl
@[simp] theorem clearResult_retries : (clearResult s).retries = 0#32 := rfl
@[simp] theorem overrun_status : (overrun s).status = { s.status with ovr := true } := rfl

/-- The fields of STATUS that setting the rate leaves alone, and the rate. -/
theorem setRate_status (r : Rate) : (setRate r s).status = { s.status with rate := r } := by
  unfold setRate
  split
  · next h => simp [← h]
  · rfl

@[simp] theorem noteExtra_status (a : List Byte) :
    (noteExtra a s).status = { s.status with adv := s.status.adv || decide (1 < a.length) } := by
  unfold noteExtra
  split <;> simp [*]

end Sys2Proof.Machine
end

