-- ==== Sys2Proof/Laws/Ops.lean ====
section
/-! SUPPORT. What the shared operations can do, each said once: turns, the schedule's grant, the answers, and the round
trip. -/

namespace Sys2Proof.Machine

/-! ### Turns -/

@[simp] theorem runTurns_zero (turn : State → State) (s : State) : runTurns turn 0 s = s := rfl

/-- No turn happens once the command has ended. -/
theorem runTurns_idle (turn : State → State) (n : Nat) {s : State} (h : s.seq.phase = .idle) :
    runTurns turn n s = s := by
  cases n with
  | zero => rfl
  | succ n => simp [runTurns, h]

theorem runTurns_succ (turn : State → State) (n : Nat) {s : State} (h : s.seq.phase = .run) :
    runTurns turn (n + 1) s = runTurns turn n (turn s) := by
  simp [runTurns, h]

/-- Turns run one after the other. -/
theorem runTurns_add (turn : State → State) (m n : Nat) (s : State) :
    runTurns turn (m + n) s = runTurns turn n (runTurns turn m s) := by
  induction m generalizing s with
  | zero => simp
  | succ m ih =>
    rw [Nat.add_right_comm]
    cases h : s.seq.phase with
    | idle => simp [runTurns_idle, h]
    | run => rw [runTurns_succ _ _ h, runTurns_succ _ _ h, ih]

/-- What every turn keeps, any number of turns keeps. -/
theorem runTurns_keeps {P : State → Prop} {turn : State → State} (hturn : ∀ s, s.seq.phase = .run → P s → P (turn s))
    (n : Nat) {s : State} (h : P s) : P (runTurns turn n s) := by
  induction n generalizing s with
  | zero => exact h
  | succ n ih =>
    cases hp : s.seq.phase with
    | idle => rwa [runTurns_idle _ _ hp]
    | run => rw [runTurns_succ _ _ hp]; exact ih (hturn s hp h)

/-- What acceptance, using the grant and every turn keep, a launched command keeps. -/
theorem launch_keeps {P : State → Prop} {turn : State → State} {w : Word}
    (haccept : ∀ s, s.seq.phase = .idle → P s → P (accept w s)) (hgrant : ∀ s, P s → P (granted s))
    (hturn : ∀ s, s.seq.phase = .run → P s → P (turn s)) {s : State} (h : P s) : P (launch w turn s) := by
  unfold launch
  cases hp : s.seq.phase with
  | idle => exact runTurns_keeps hturn _ (hgrant _ (haccept s hp h))
  | run => exact runTurns_keeps hturn _ (hgrant _ h)

/-- A launched command from idle: acceptance, then the granted turns. -/
theorem launch_idle {w : Word} {turn : State → State} {s : State} (h : s.seq.phase = .idle) :
    launch w turn s = runTurns turn s.world.grant (accept w (granted s)) := by
  simp only [launch, h]
  rfl

/-- A launched command that is running: the granted turns. -/
theorem launch_run {w : Word} {turn : State → State} {s : State} (h : s.seq.phase = .run) :
    launch w turn s = runTurns turn s.world.grant (granted s) := by
  simp only [launch, h]
  rfl

/-! ### The grant -/

@[simp] theorem useGrant_answers (w : World) : w.useGrant.answers = w.answers := by
  unfold World.useGrant; split <;> rfl
@[simp] theorem useGrant_draws (w : World) : w.useGrant.draws = w.draws := by
  unfold World.useGrant; split <;> rfl
@[simp] theorem useGrant_events (w : World) : w.useGrant.events = w.events := by
  unfold World.useGrant; split <;> rfl
@[simp] theorem useGrant_reads (w : World) : w.useGrant.reads = w.reads := by
  unfold World.useGrant; split <;> rfl

/-- An answer depends on the script and the draws alone. -/
theorem answer_congr {v w : World} (ha : v.answers = w.answers) (hd : v.draws = w.draws) (k : Nat) :
    v.answer k = w.answer k := by
  simp [World.answer, ha, hd]

@[simp] theorem useGrant_answer (w : World) (k : Nat) : w.useGrant.answer k = w.answer k :=
  answer_congr (by simp) (by simp) k

@[simp] theorem answer_events (w : World) (ev : List SerialEvent) (k : Nat) :
    ({ w with events := ev } : World).answer k = w.answer k := rfl

/-! ### The answers -/

@[simp] theorem popAnswer_moves (w : World) : w.popAnswer.moves = w.moves := by
  unfold World.popAnswer; split <;> rfl
@[simp] theorem popAnswer_events (w : World) : w.popAnswer.events = w.events := by
  unfold World.popAnswer; split <;> rfl
@[simp] theorem popAnswer_reads (w : World) : w.popAnswer.reads = w.reads := by
  unfold World.popAnswer; split <;> rfl

/-- Setting the history and popping an answer commute. -/
theorem popAnswer_events_comm (w : World) (ev : List SerialEvent) :
    ({ w with events := ev } : World).popAnswer = { w.popAnswer with events := ev } := by
  unfold World.popAnswer
  cases h : w.answers <;> simp

/-- After one receive, the next answer is the one that was second. -/
@[simp] theorem popAnswer_answer (w : World) (k : Nat) : w.popAnswer.answer k = w.answer (k + 1) := by
  cases h : w.answers with
  | nil => simp [World.popAnswer, World.answer, h, Nat.add_assoc, Nat.add_comm 1 k]
  | cons a rest => simp [World.popAnswer, World.answer, h]

@[simp] theorem popAnswers_moves (n : Nat) (w : World) : (popAnswers n w).moves = w.moves := by
  induction n generalizing w with
  | zero => rfl
  | succ n ih => simp [popAnswers, ih]
@[simp] theorem popAnswers_events (n : Nat) (w : World) : (popAnswers n w).events = w.events := by
  induction n generalizing w with
  | zero => rfl
  | succ n ih => simp [popAnswers, ih]
@[simp] theorem popAnswers_reads (n : Nat) (w : World) : (popAnswers n w).reads = w.reads := by
  induction n generalizing w with
  | zero => rfl
  | succ n ih => simp [popAnswers, ih]
@[simp] theorem popAnswers_answer (n : Nat) (w : World) (k : Nat) :
    (popAnswers n w).answer k = w.answer (k + n) := by
  induction n generalizing w with
  | zero => rfl
  | succ n ih => rw [popAnswers, ih, popAnswer_answer, Nat.add_assoc]

/-- The last of `n + 1` receives. -/
theorem popAnswers_succ (n : Nat) (w : World) : popAnswers (n + 1) w = (popAnswers n w).popAnswer := by
  induction n generalizing w with
  | zero => rfl
  | succ n ih => rw [popAnswers, ih]; rfl

theorem popAnswers_events_comm (n : Nat) (w : World) (ev : List SerialEvent) :
    popAnswers n ({ w with events := ev } : World) = { popAnswers n w with events := ev } := by
  induction n generalizing w with
  | zero => rfl
  | succ n ih => rw [popAnswers, popAnswers, popAnswer_events_comm, ih]

/-! ### The round trip -/

/-- Setting the rate: the field, and an event exactly when it changes (40_signal_codec.md R111). -/
theorem setRate_world (r : Rate) (s : State) :
    (setRate r s).world = { s.world with events := s.world.events ++ rateEvents s.status.rate r } := by
  unfold setRate rateEvents
  split <;> simp [emit]

theorem setRate_eq (r : Rate) (s : State) :
    setRate r s = { s with status := { s.status with rate := r },
                           world := { s.world with events := s.world.events ++ rateEvents s.status.rate r } } := by
  unfold setRate rateEvents
  split
  · next h => simp [← h]
  · rfl

theorem noteExtra_eq (a : List Byte) (s : State) :
    noteExtra a s = { s with status := { s.status with adv := s.status.adv || decide (1 < a.length) } } := by
  unfold noteExtra
  split <;> simp [*]

/-- A receive, as the update it makes. -/
theorem serialRx_eq (s : State) :
    serialRx s = { s with seq := { s.seq with inFlight := false, index := s.seq.index + 1 },
                          world := { s.world.popAnswer with events := s.world.events ++ [.rx (s.world.answer 0)] } } := by
  simp [serialRx, emit]

/-- The state after a whole round trip, before the command uses its echo. -/
def tripped (r : Rate) (b : Byte) (s : State) : State :=
  { s with
    status := { s.status with rate := r, adv := s.status.adv || decide (1 < (s.world.answer 0).length) }
    seq := { s.seq with inFlight := false, index := s.seq.index + 1 }
    world := { s.world.popAnswer with
      events := s.world.events ++ rateEvents s.status.rate r ++ [.tx b, .rx (s.world.answer 0)] } }

/-- The transmit turn: an abort, or the byte on its way. -/
theorem startRoundTrip_cases (onError : State → State) (r : Rate) (b : Byte) (s : State) :
    (s.seq.abortReq = true ∧ startRoundTrip onError r b s = raise .aborted (onError s)) ∨
    (s.seq.abortReq = false ∧ startRoundTrip onError r b s = serialTx b (setRate r s)) := by
  unfold startRoundTrip
  cases s.seq.abortReq <;> simp

/-- The receive turn: a wiring fault, or the echo used. -/
theorem receive_cases (onError : State → State) (onEcho : Byte → State → State) (s : State) :
    (s.world.answer 0 = [] ∧ receive onError onEcho s = raise .wiringFault (onError (serialRx s))) ∨
    (s.world.answer 0 ≠ [] ∧
      receive onError onEcho s = onEcho (echoAt s.world 0) (noteExtra (s.world.answer 0) (serialRx s))) := by
  unfold receive
  cases h : s.world.answer 0 with
  | nil => simp
  | cons e extra => simp [echoAt, h]

/-- The state after a transmit at rate `r`. -/
def sent (r : Rate) (b : Byte) (s : State) : State :=
  { s with
    status := { s.status with rate := r }
    seq := { s.seq with inFlight := true }
    world := { s.world with events := s.world.events ++ rateEvents s.status.rate r ++ [.tx b] } }

/-- The state after an answered receive, before the command uses its echo. -/
def received (s : State) : State :=
  { s with
    status := { s.status with adv := s.status.adv || decide (1 < (s.world.answer 0).length) }
    seq := { s.seq with inFlight := false, index := s.seq.index + 1 }
    world := { s.world.popAnswer with events := s.world.events ++ [.rx (s.world.answer 0)] } }

/-- The transmit turn, as the update it makes. -/
theorem startRoundTrip_eq (onError : State → State) (r : Rate) (b : Byte) (s : State) :
    startRoundTrip onError r b s = if s.seq.abortReq then raise .aborted (onError s) else sent r b s := by
  unfold startRoundTrip
  rw [setRate_eq]
  rfl

/-- The transmit turn does one of two things. -/
theorem startRoundTrip_either (onError : State → State) (r : Rate) (b : Byte) (s : State) :
    startRoundTrip onError r b s = raise .aborted (onError s) ∨ startRoundTrip onError r b s = sent r b s := by
  rw [startRoundTrip_eq]
  split
  · exact .inl rfl
  · exact .inr rfl

/-- The receive turn does one of two things. -/
theorem receive_either (onError : State → State) (onEcho : Byte → State → State) (s : State) :
    receive onError onEcho s = raise .wiringFault (onError (serialRx s)) ∨
      receive onError onEcho s = onEcho (echoAt s.world 0) (received s) := by
  rcases receive_cases onError onEcho s with ⟨-, h⟩ | ⟨-, h⟩
  · exact .inl h
  · right
    rw [h, noteExtra_eq, serialRx_eq]
    rfl

/-- A transmit and its receive, answered, are one round trip. -/
theorem receive_after_start {onError : State → State} {onEcho : Byte → State → State} {r : Rate} {b : Byte} {s : State}
    (hans : s.world.answer 0 ≠ []) :
    receive onError onEcho (serialTx b (setRate r s)) = onEcho (echoAt s.world 0) (tripped r b s) := by
  have hw : (serialTx b (setRate r s)).world.answer 0 = s.world.answer 0 := by
    rw [serialTx_world, setRate_world]; rfl
  have he : echoAt (serialTx b (setRate r s)).world 0 = echoAt s.world 0 := by simp only [echoAt, hw]
  rcases receive_cases onError onEcho (serialTx b (setRate r s)) with ⟨h, -⟩ | ⟨-, h⟩
  · exact absurd (hw ▸ h) hans
  · rw [h, he, hw, noteExtra_eq, serialRx_eq, hw, setRate_eq]
    simp only [serialTx, emit, tripped, popAnswer_events_comm, List.append_assoc, List.cons_append, List.nil_append]

/-- Two turns of a running command at a boundary that starts a round trip, with no abort pending and an answer: one round
trip, and the echo used. -/
theorem turn_turn {c : Command} {r : Rate} {b : Byte} {s : State} (hrun : s.seq.phase = .run)
    (hfly : s.seq.inFlight = false) (hab : s.seq.abortReq = false)
    (hb : c.boundary s = startRoundTrip c.onError r b s) (hans : s.world.answer 0 ≠ []) (n : Nat) :
    runTurns c.turn (n + 2) s = runTurns c.turn n (c.onEcho (echoAt s.world 0) (tripped r b s)) := by
  have hstart : c.turn s = serialTx b (setRate r s) := by
    simp only [Command.turn, hfly, hb, startRoundTrip, hab]; rfl
  have hrun' : (serialTx b (setRate r s)).seq.phase = .run := by simp [hrun]
  have hrecv : c.turn (serialTx b (setRate r s)) = receive c.onError c.onEcho (serialTx b (setRate r s)) := by
    simp [Command.turn]
  rw [show n + 2 = (n + 1) + 1 from rfl, runTurns_succ _ _ hrun, hstart, runTurns_succ _ _ hrun', hrecv,
    receive_after_start hans]

end Sys2Proof.Machine
end

