-- ==== Sys2Proof/Laws/Trips.lean ====
section
/-! SUPPORT. What several round trips leave behind grows by one round trip at a time: the laws of afterTrips and
afterSlots (Sys2Proof/Safety.lean). -/

namespace Sys2Proof.Machine

theorem extraWithin_succ (w : World) (n : Nat) :
    extraWithin w (n + 1) = (extraWithin w n || decide (1 < (w.answer n).length)) := by
  simp [extraWithin, List.range_succ, List.any_append]

@[simp] theorem extraWithin_zero (w : World) : extraWithin w 0 = false := rfl

theorem extraWithin_events (w : World) (ev : List SerialEvent) (n : Nat) :
    extraWithin ({ w with events := ev } : World) n = extraWithin w n := rfl

/-- The events of a list of trips and one more. -/
theorem tripEvents_snoc (w : World) (first : Nat) (bs : List Byte) (b : Byte) :
    tripEvents w first (bs ++ [b]) = tripEvents w first bs ++ [.tx b, .rx (w.answer (first + bs.length))] := by
  induction bs generalizing first with
  | nil => simp [tripEvents]
  | cons c rest ih => simp [tripEvents, ih, Nat.add_comm 1, Nat.add_assoc]

/-- afterTrips on at least one trip, without the case distinction. -/
theorem afterTrips_ne_nil {r : Rate} {bs : List Byte} (h : bs ≠ []) (s : State) :
    afterTrips r bs s =
      { s with
        status := { s.status with rate := r, adv := s.status.adv || extraWithin s.world bs.length }
        world := { popAnswers bs.length s.world with
          events := s.world.events ++ rateEvents s.status.rate r ++ tripEvents s.world 0 bs } } := by
  cases bs with
  | nil => exact absurd rfl h
  | cons b rest => rfl

@[simp] theorem rateEvents_self (r : Rate) : rateEvents r r = [] := by simp [rateEvents]

/-- The first trip. -/
theorem afterTrips_singleton (r : Rate) (b : Byte) (s : State) :
    { tripped r b s with seq := s.seq } = afterTrips r [b] s := by
  simp [afterTrips, tripped, popAnswers, tripEvents, extraWithin]

/-- One trip more. -/
theorem afterTrips_snoc (r : Rate) (bs : List Byte) (b : Byte) (s : State) :
    { tripped r b (afterTrips r bs s) with seq := s.seq } = afterTrips r (bs ++ [b]) s := by
  cases hbs : bs with
  | nil => exact afterTrips_singleton r b s
  | cons c rest =>
    rw [← hbs]
    have hne : bs ≠ [] := by simp [hbs]
    rw [afterTrips_ne_nil hne, afterTrips_ne_nil (by simp), tripEvents_snoc]
    simp only [tripped, answer_events, popAnswers_answer, rateEvents_self, List.append_nil, Nat.zero_add,
      List.length_append, List.length_cons, List.length_nil, extraWithin_succ, Bool.or_assoc, List.append_assoc,
      popAnswer_events_comm, popAnswers_succ]

@[simp] theorem afterTrips_seq (r : Rate) (bs : List Byte) (s : State) : (afterTrips r bs s).seq = s.seq := by
  cases bs <;> rfl

@[simp] theorem afterTrips_answer (r : Rate) (bs : List Byte) (s : State) (k : Nat) :
    (afterTrips r bs s).world.answer k = s.world.answer (k + bs.length) := by
  cases bs with
  | nil => rfl
  | cons b rest =>
    show (popAnswers (rest.length + 1) s.world).answer k = _
    simp

/-- Trips do not look at the sequencer. -/
theorem afterTrips_withSeq (r : Rate) (bs : List Byte) (s : State) (q : Sequencer) :
    afterTrips r bs { s with seq := q } = { afterTrips r bs s with seq := q } := by
  cases bs <;> rfl

@[simp] theorem afterSlots_seq (bs : List Byte) (s : State) : (afterSlots bs s).seq = s.seq := by
  simp [afterSlots]

@[simp] theorem afterSlots_answer (bs : List Byte) (s : State) (k : Nat) :
    (afterSlots bs s).world.answer k = s.world.answer (k + bs.length) := afterTrips_answer .slot bs s k

@[simp] theorem afterSlots_nil (s : State) : afterSlots [] s = s := rfl

theorem afterSlots_withSeq (bs : List Byte) (s : State) (q : Sequencer) :
    afterSlots bs { s with seq := q } = { afterSlots bs s with seq := q } := by
  simp [afterSlots, afterTrips_withSeq]

/-- Nor at the word CMD reads. -/
theorem afterSlots_withCmd (bs : List Byte) (s : State) (w : Word) (q : Sequencer) :
    afterSlots bs { s with cmd := w, seq := q } = { afterSlots bs s with cmd := w, seq := q } := by
  cases bs <;> rfl

/-- What slots leave of the fields that are not the port's: everything. -/
theorem afterTrips_rest (r : Rate) (bs : List Byte) (s : State) :
    afterTrips r bs s = { s with status := (afterTrips r bs s).status, world := (afterTrips r bs s).world } := by
  cases bs <;> rfl

theorem afterSlots_rest (bs : List Byte) (s : State) :
    afterSlots bs s = { s with status := (afterSlots bs s).status, world := (afterSlots bs s).world } := by
  unfold afterSlots
  rw [afterTrips_rest]

/-- One slot more: the round trip and its sample. -/
theorem afterSlots_snoc (bs : List Byte) (b : Byte) (s : State) :
    { noteSample (echoAt (afterSlots bs s).world 0) (tripped .slot b (afterSlots bs s)) with seq := s.seq } =
      afterSlots (bs ++ [b]) s := by
  have h := afterTrips_snoc .slot bs b s
  have he : echoAt (afterTrips .slot bs s).world 0 = echoAt s.world bs.length := by simp [echoAt]
  unfold afterSlots
  rw [← h]
  simp only [noteSample, tripped, he, List.length_append, List.length_cons, List.length_nil, lastSample, sampleAt]

/-- Two turns of a running command at a boundary that starts a round trip, with no abort pending and an empty receive: the
command ends with WIRING_FAULT. -/
theorem turn_turn_empty {c : Command} {r : Rate} {b : Byte} {s : State} (hrun : s.seq.phase = .run)
    (hfly : s.seq.inFlight = false) (hab : s.seq.abortReq = false)
    (hb : c.boundary s = startRoundTrip c.onError r b s) (hans : s.world.answer 0 = []) (n : Nat) :
    runTurns c.turn (n + 2) s =
      raise .wiringFault (c.onError { afterEmptyTrip r b s with
        seq := { s.seq with inFlight := false, index := s.seq.index + 1 } }) := by
  have hstart : c.turn s = serialTx b (setRate r s) := by
    simp only [Command.turn, hfly, hb, startRoundTrip, hab]; rfl
  have hrun' : (serialTx b (setRate r s)).seq.phase = .run := by simp [hrun]
  have hw : (serialTx b (setRate r s)).world.answer 0 = [] := by
    rw [serialTx_world, setRate_world]; exact hans
  have hrecv : c.turn (serialTx b (setRate r s)) = raise .wiringFault (c.onError (serialRx (serialTx b (setRate r s)))) := by
    rcases receive_cases c.onError c.onEcho (serialTx b (setRate r s)) with ⟨-, h⟩ | ⟨h, -⟩
    · simpa [Command.turn] using h
    · exact absurd hw h
  rw [show n + 2 = (n + 1) + 1 from rfl, runTurns_succ _ _ hrun, hstart, runTurns_succ _ _ hrun', hrecv,
    runTurns_idle _ _ rfl, serialRx_eq, hw, setRate_eq]
  simp [serialTx, emit, afterEmptyTrip, popAnswer_events_comm]

end Sys2Proof.Machine
end

