-- ==== Sys2Proof/Laws/Codec.lean ====
section
/-! SUPPORT. What the turns of a command of bit slots come to (spec/40_signal_codec.md R115, R117, R121, R122). -/

namespace Sys2Proof.Machine

/-- The bytes of the first `m` slots. -/
def slotBytes (f : Nat → Byte) (m : Nat) : List Byte := (List.range m).map f

@[simp] theorem slotBytes_length (f : Nat → Byte) (m : Nat) : (slotBytes f m).length = m := by simp [slotBytes]

theorem slotBytes_succ (f : Nat → Byte) (m : Nat) : slotBytes f (m + 1) = slotBytes f m ++ [f m] := by
  simp [slotBytes, List.range_succ]

/-- The state at the boundary after `m` slots of a command that began at `s`. -/
def atSlot (f : Nat → Byte) (m : Nat) (s : State) : State :=
  { afterSlots (slotBytes f m) s with seq := { s.seq with index := m, acc := sampledBits s.world m } }

@[simp] theorem atSlot_data (f : Nat → Byte) (m : Nat) (s : State) : (atSlot f m s).data = s.data := by
  rw [atSlot, afterSlots_rest]

@[simp] theorem atSlot_answer (f : Nat → Byte) (m : Nat) (s : State) (k : Nat) :
    (atSlot f m s).world.answer k = s.world.answer (k + m) := by
  simp [atSlot]

/-- The sequencer as a command begins: running, no progress, no abort. -/
def Sequencer.fresh (q : Sequencer) : Prop :=
  q.phase = .run ∧ q.abortReq = false ∧ q.inFlight = false ∧ q.index = 0 ∧ q.acc = 0#64

theorem atSlot_zero {f : Nat → Byte} {s : State} (h : s.seq.fresh) : atSlot f 0 s = s := by
  obtain ⟨-, -, -, hi, ha⟩ := h
  have hq : ({ s.seq with index := 0, acc := 0#64 } : Sequencer) = s.seq := by
    cases hq : s.seq
    simp_all
  show { s with seq := { s.seq with index := 0, acc := 0#64 } } = s
  rw [hq]

/-- One slot takes the state at slot `m` to the state at slot `m + 1`. -/
theorem slotEcho_atSlot (f : Nat → Byte) (m : Nat) {s : State} (hfly : s.seq.inFlight = false) :
    slotEcho (echoAt (atSlot f m s).world 0) (tripped .slot (f m) (atSlot f m s)) = atSlot f (m + 1) s := by
  have h := afterSlots_snoc (slotBytes f m) (f m) s
  have he : echoAt (atSlot f m s).world 0 = echoAt (afterSlots (slotBytes f m) s).world 0 := rfl
  have he' : echoAt (afterSlots (slotBytes f m) s).world 0 = echoAt s.world m := by simp [echoAt]
  rw [← slotBytes_succ] at h
  rw [show atSlot f (m + 1) s = { afterSlots (slotBytes f (m + 1)) s with
    seq := { s.seq with index := m + 1, acc := sampledBits s.world (m + 1) } } from rfl]
  rw [← h, he, he']
  simp [slotEcho, noteSample, tripped, atSlot, sampledBits, sampleAt, hfly]

/-- The turns of `m` answered slots of a command of `n` slots. -/
theorem runTurns_slots {c : Command} {n : Nat} {f : Nat → Byte} {s : State} (hq : s.seq.fresh)
    (hecho : c.onEcho = slotEcho)
    (hb : ∀ j, j < n → c.boundary (atSlot f j s) = startRoundTrip c.onError .slot (f j) (atSlot f j s)) :
    ∀ m, m ≤ n → answered s.world m → ∀ k, runTurns c.turn (2 * m + k) s = runTurns c.turn k (atSlot f m s) := by
  intro m
  induction m with
  | zero => intro _ _ k; rw [atSlot_zero hq]; simp
  | succ m ih =>
    intro hm hans k
    have hrun := ih (by omega) (fun j hj => hans j (by omega)) (2 + k)
    rw [show 2 * (m + 1) + k = 2 * m + (2 + k) by omega, hrun, Nat.add_comm 2 k]
    obtain ⟨h1, h2, h3, -, -⟩ := hq
    rw [turn_turn (r := .slot) (b := f m) (by simpa [atSlot] using h1) (by simpa [atSlot] using h3)
      (by simpa [atSlot] using h2) (hb m (by omega)) (by simpa using hans m (by omega)), hecho, slotEcho_atSlot f m h3]

/-- The sequencer right after acceptance. -/
@[simp] theorem accept_fresh (w : Word) (s : State) : (accept w s).seq.fresh := ⟨rfl, rfl, rfl, rfl, rfl⟩

@[simp] theorem answered_accept (w : Word) (s : State) (n : Nat) :
    answered (accept w (granted s)).world n ↔ answered s.world n := by
  simp [answered, granted]

/-- The state at slot `m` of a command just accepted. -/
theorem atSlot_accept (f : Nat → Byte) (m : Nat) (w : Word) (s : State) :
    atSlot f m (accept w s) =
      { afterSlots (slotBytes f m) s with
        cmd := w
        seq := { Sequencer.idle with phase := .run, cmdw := w, index := m, acc := sampledBits s.world m } } := by
  simp [atSlot, accept, afterSlots_withCmd]

/-- A command of slots, launched on an idle block with turns and answers enough: acceptance, all its slots, and its
end. -/
theorem launch_slots {c : Command} {n : Nat} {f : Nat → Byte} {w : Word} {s : State} (hs : readyIdle s (2 * n + 1))
    (hans : answered s.world n) (hecho : c.onEcho = slotEcho)
    (hb : ∀ j, j < n → c.boundary (atSlot f j (accept w (granted s))) =
      startRoundTrip c.onError .slot (f j) (atSlot f j (accept w (granted s))))
    (hend : (c.boundary (atSlot f n (accept w (granted s)))).seq.phase = .idle) :
    launch w c.turn s = c.boundary (atSlot f n (accept w (granted s))) := by
  obtain ⟨hidle, hg⟩ := hs
  obtain ⟨k, hk⟩ := Nat.exists_eq_add_of_le hg
  rw [launch_idle hidle, hk, show 2 * n + 1 + k = 2 * n + (k + 1) by omega,
    runTurns_slots (accept_fresh w _) hecho hb n (Nat.le_refl n) ((answered_accept w s n).mpr hans),
    runTurns_succ _ _ (by rfl)]
  have : c.turn (atSlot f n (accept w (granted s))) = c.boundary (atSlot f n (accept w (granted s))) := by
    simp [Command.turn, atSlot, Sequencer.idle]
  rw [this, runTurns_idle _ _ hend]

end Sys2Proof.Machine
end

