-- ==== Sys2Proof/Laws/Crc8.lean ====
section
/-! SUPPORT. The laws of one CRC update and of many (spec/41_crc8.md R150, R151). -/

namespace Sys2Proof.Machine

/-- One update is a shift, and the feedback constant where the bit shifted out differs from the one shifted in. -/
theorem upd_eq (r : Byte) (x : Bool) :
    upd r x = (r >>> 1) ^^^ (if r.getLsbD 0 ^^ x then crcFeedback else 0x00#8) := by
  unfold upd
  split <;> simp

/-- One update is linear. -/
theorem upd_xor (r1 r2 : Byte) (x y : Bool) : upd (r1 ^^^ r2) (x ^^ y) = upd r1 x ^^^ upd r2 y := by
  have h : ∀ a b : Bool, (if (a ^^ b) then crcFeedback else 0x00#8) =
      (if a then crcFeedback else 0x00#8) ^^^ (if b then crcFeedback else 0x00#8) := by decide
  have hx : (r1.getLsbD 0 ^^ r2.getLsbD 0 ^^ (x ^^ y)) = ((r1.getLsbD 0 ^^ x) ^^ (r2.getLsbD 0 ^^ y)) := by
    cases r1.getLsbD 0 <;> cases r2.getLsbD 0 <;> cases x <;> cases y <;> rfl
  simp only [upd_eq, BitVec.getLsbD_xor, BitVec.ushiftRight_xor_distrib]
  rw [hx, h]
  ac_rfl

/-- Updates one after the other: the later ones take the later bits. -/
theorem updN_add (r : Byte) (v : DWord) (m n : Nat) : updN r v (m + n) = updN (updN r v m) (v >>> m) n := by
  induction n with
  | zero => rfl
  | succ n ih => rw [← Nat.add_assoc, updN, ih, updN]; simp

/-- Updates depend on the bits they take alone. -/
theorem updN_congr {v w : DWord} {n : Nat} (h : ∀ k, k < n → v.getLsbD k = w.getLsbD k) (r : Byte) :
    updN r v n = updN r w n := by
  induction n with
  | zero => rfl
  | succ n ih => rw [updN, updN, ih fun k hk => h k (by omega), h n (by omega)]

end Sys2Proof.Machine
end

