-- ==== Sys2Proof/Laws/Decode.lean ====
section
/-! SUPPORT. Each field of a command word read back from the word its fields make (spec/30_encoding.md R90). -/

namespace Sys2Proof

variable (a b : Bool) (n : Nat) (o : Byte)

@[simp] theorem opcField_commandWord : opcField (commandWord a b n o) = o := by
  ext i hi
  have h32 : i < 32 := by omega
  have h17 : i < 17 := by omega
  have h16 : i < 16 := by omega
  simp [opcField, commandWord, atBit, BitVec.getElem_extractLsb', h32, h17, h16, hi]

@[simp] theorem bField_commandWord : bField (commandWord a b n o) = b := by
  simp [bField, commandWord, atBit]

@[simp] theorem aField_commandWord : aField (commandWord a b n o) = a := by
  simp [aField, commandWord, atBit]

@[simp] theorem nField_commandWord : nField (commandWord a b n o) = n % 128 := by
  have h : (commandWord a b n o).extractLsb' 8 7 = BitVec.ofNat 7 n := by
    ext i hi
    have h17 : 8 + i < 17 := by omega
    have h16 : 8 + i < 16 := by omega
    have h32 : 8 + i < 32 := by omega
    simp [commandWord, atBit, BitVec.getElem_extractLsb', h17, h16, h32, hi]
  simp [nField, h]

@[simp] theorem reservedSet_commandWord : reservedSet (commandWord a b n o) = false := by
  have h : (commandWord a b n o).extractLsb' 18 14 = 0#14 := by
    ext i hi
    have h17 : 18 + i - 17 ≠ 0 := by omega
    have h16 : 18 + i - 16 ≠ 0 := by omega
    have h8 : 7 ≤ 18 + i - 8 := by omega
    have ho : o.getLsbD (18 + i) = false := BitVec.getLsbD_of_ge _ _ (by omega)
    simp [commandWord, atBit, BitVec.getElem_extractLsb', h17, h16, BitVec.getLsbD_of_ge _ _ h8, ho]
  have h15 : (commandWord a b n o).getLsbD 15 = false := by simp [commandWord, atBit]
  rw [reservedSet, h, h15]
  rfl

/-- An opcode that the map gives stands in a row of it. -/
theorem opcodeOf_mem {o : Byte} {op : Opcode} (h : opcodeOf o = some op) : (o, op) ∈ opcodeMap := by
  obtain ⟨row, hrow, rfl⟩ := Option.map_eq_some_iff.mp h
  have hmem := List.mem_of_find?_eq_some hrow
  have hopc := List.find?_some hrow
  rw [beq_iff_eq] at hopc
  subst hopc
  exact hmem

/-- Where no reserved bit is set, bit 15 and the bits from 18 on are 0 (R95). -/
theorem reserved_bits {w : Word} (h : reservedSet w = false) :
    w.getLsbD 15 = false ∧ ∀ k, 18 ≤ k → w.getLsbD k = false := by
  simp only [reservedSet, Bool.or_eq_false_iff, bne_eq_false_iff_eq] at h
  refine ⟨h.2, fun k hk => ?_⟩
  by_cases hk32 : k < 32
  · have h1 : (w.extractLsb' 18 14).getLsbD (k - 18) = (0#14).getLsbD (k - 18) := by rw [h.1]
    simpa [show k - 18 < 14 by omega, show 18 + (k - 18) = k by omega] using h1
  · exact BitVec.getLsbD_of_ge _ _ (by omega)

/-- A word with no reserved bit set is the word of its fields (R90). -/
theorem commandWord_fields {w : Word} (hr : reservedSet w = false) :
    commandWord (aField w) (bField w) (nField w) (opcField w) = w := by
  obtain ⟨h15, h18⟩ := reserved_bits hr
  apply BitVec.eq_of_getLsbD_eq
  intro i hi
  have hn : BitVec.ofNat 7 (nField w) = w.extractLsb' 8 7 := by unfold nField; exact BitVec.ofNat_toNat _ _
  unfold commandWord atBit
  rw [hn]
  simp only [aField, bField, opcField]
  rcases Nat.lt_or_ge i 18 with h | h
  · interval_cases i <;> first | (simp; done) | (rw [h15]; simp)
  · rw [h18 i h]
    have h1 : i - 17 ≠ 0 := by omega
    have h2 : i - 16 ≠ 0 := by omega
    have h3 : ¬ (i - 8 < 7) := by omega
    have h4 : ¬ (i < 8) := by omega
    simp [h1, h2, h3, h4]

/-- No command but ABORT has the opcode 0x3F (R96). -/
theorem opcField_encode_ne_abort {i : Instr} (h : i ≠ .abort) : opcField (encode i) ≠ 0x3F#8 := by
  cases i <;> first | exact absurd rfl h | simp [encode]

/-- A word the decoder rejects does not have the opcode of ABORT (R98). -/
theorem opcField_illegal {w : Word} {why : DecodeError} (h : decode w = .illegal why) : opcField w ≠ 0x3F#8 := by
  intro hw
  simp [decode, hw, opcodeOf, opcodeMap] at h

/-- A word with the opcode of ABORT decodes to ABORT, whatever its other bits (R190). -/
theorem decode_of_abort {w : Word} (h : opcField w = 0x3F#8) : decode w = .legal .abort := by
  simp [decode, h, opcodeOf, opcodeMap]

end Sys2Proof
end

