-- ==== Sys2Proof/Laws/Operands.lean ====
section
/-! SUPPORT. Bits of the operand registers: a bit put in place, the halves of a 64-bit register, and the offsets of the
window. -/

namespace Sys2Proof.Machine

/-- A bit of a value after one bit is put in place (spec/00_scope.md R7). -/
theorem putBit_getLsbD (x : DWord) {i : Nat} (k : Nat) (b : Bool) (hi : i < 64) :
    (putBit x i b).getLsbD k = if k = i then b else x.getLsbD k := by
  unfold putBit
  cases b
  · simp only [Bool.false_eq_true, if_false, BitVec.getLsbD_and, BitVec.getLsbD_not, BitVec.getLsbD_shiftLeft]
    by_cases hk : k = i
    · subst hk; simp [hi]
    · simp only [hk, if_false]
      by_cases h64 : k < 64
      · have : ((1#64).getLsbD (k - i) && !decide (k < i)) = false := by
          by_cases h : k < i
          · simp [h]
          · simp [show k - i ≠ 0 by omega]
        simp [h64]; omega
      · simp [BitVec.getLsbD_of_ge _ _ (Nat.not_lt.mp h64)]
  · simp only [if_true, BitVec.getLsbD_or, BitVec.getLsbD_shiftLeft]
    by_cases hk : k = i
    · subst hk; simp [hi]
    · simp [hk]; omega

/-- A value zero from `p` on, after bit `p` is put in place, is zero from `p + 1` on. -/
theorem zeroFrom_putBit {x : DWord} {p : Nat} (b : Bool) (h : zeroFrom x p) (hp : p < 64) :
    zeroFrom (putBit x p b) (p + 1) := by
  intro k hk
  rw [putBit_getLsbD _ _ _ hp, if_neg (by omega)]
  exact h k (by omega)

theorem zeroFrom_zero (p : Nat) : zeroFrom 0#64 p := fun k _ => by simp

/-! ### The halves of a register (spec/20_memory.md R63) -/

theorem joinHalves_getLsbD (hi lo : Word) (k : Nat) :
    (joinHalves hi lo).getLsbD k = if k < 32 then lo.getLsbD k else hi.getLsbD (k - 32) := by
  simp only [joinHalves, BitVec.getLsbD_or, BitVec.getLsbD_shiftLeft, BitVec.getLsbD_setWidth]
  by_cases h : k < 32
  · simp [h, show k < 64 by omega]
  · by_cases h64 : k < 64
    · simp [h, h64, show k - 32 < 64 by omega, BitVec.getLsbD_of_ge lo k (by omega)]
    · simp [h, h64, BitVec.getLsbD_of_ge hi (k - 32) (by omega)]

@[simp] theorem loHalf_joinHalves (hi lo : Word) : loHalf (joinHalves hi lo) = lo := by
  apply BitVec.eq_of_getLsbD_eq
  intro i h
  simp only [loHalf, BitVec.getLsbD_extractLsb', joinHalves_getLsbD, h, Nat.zero_add, decide_true, Bool.true_and,
    if_true]

@[simp] theorem hiHalf_joinHalves (hi lo : Word) : hiHalf (joinHalves hi lo) = hi := by
  apply BitVec.eq_of_getLsbD_eq
  intro i h
  simp only [hiHalf, BitVec.getLsbD_extractLsb', joinHalves_getLsbD, h, decide_true, Bool.true_and]
  rw [if_neg (by omega), Nat.add_sub_cancel_left]

@[simp] theorem loHalf_withLo (x : DWord) (v : Word) : loHalf (withLo x v) = v := loHalf_joinHalves _ _
@[simp] theorem hiHalf_withLo (x : DWord) (v : Word) : hiHalf (withLo x v) = hiHalf x := hiHalf_joinHalves _ _
@[simp] theorem loHalf_withHi (x : DWord) (v : Word) : loHalf (withHi x v) = loHalf x := loHalf_joinHalves _ _
@[simp] theorem hiHalf_withHi (x : DWord) (v : Word) : hiHalf (withHi x v) = v := hiHalf_joinHalves _ _

/-! ### The offsets (spec/10_state.md R20) -/

@[simp] theorem regAt_offset (r : Reg) : regAt r.offset = some r := by cases r <;> decide

theorem offset_of_regAt {addr : BitVec 8} {r : Reg} (h : regAt addr = some r) : r.offset = addr := by
  simpa using List.find?_some h

theorem offset_ne_of_regAt {addr : BitVec 8} (h : regAt addr = none) (r : Reg) : r.offset ≠ addr := by
  rintro rfl
  rw [regAt_offset] at h
  cases h

/-- No two registers share an offset. -/
theorem offset_injective {r q : Reg} (h : r.offset = q.offset) : r = q := by
  have hr := regAt_offset r
  rw [h, regAt_offset] at hr
  exact (Option.some.inj hr).symm

/-- An aligned offset is one of 64. -/
theorem aligned_offset {addr : BitVec 8} (h : addr.toNat % 4 = 0) : ∃ k, k < 64 ∧ addr = BitVec.ofNat 8 (4 * k) := by
  have hlt := addr.isLt
  refine ⟨addr.toNat / 4, by omega, BitVec.eq_of_toNat_eq ?_⟩
  simp
  omega

end Sys2Proof.Machine
end

