-- ==== Sys2Proof/Laws/HostBus.lean ====
section
/-! SUPPORT. What a step does with each kind of move, and what the window's operations can do. -/

namespace Sys2Proof.Machine

/-! ### The step, move by move -/

theorem step_nil {s : State} (h : s.world.moves = []) : step s = sequencerStep s := by
  unfold step scheduledStep
  rw [h]

theorem step_turns {s : State} {n : Nat} {rest : List Move} (h : s.world.moves = .turns n :: rest) :
    step s = sequencerStep s := by
  unfold step scheduledStep
  rw [h]

theorem step_blockReset {s : State} {rest : List Move} (h : s.world.moves = .blockReset :: rest) :
    step s = .next (blockReset { s with world := { s.world with moves := rest } }) := by
  unfold step scheduledStep
  rw [h]

theorem step_host {s : State} {a : HostAccess} {rest : List Move} (h : s.world.moves = .host a :: rest) :
    step s = hostAccess a { s with world := { s.world with moves := rest } } := by
  unfold step scheduledStep
  rw [h]

/-- An access is defined exactly where it is aligned and of four bytes (spec/20_memory.md R61). -/
theorem accessDefined_iff (addr : BitVec 8) (size : Nat) :
    accessDefined addr size = true ↔ size = 4 ∧ addr.toNat % 4 = 0 := by
  simp [accessDefined]

theorem hostAccess_read {addr : BitVec 8} (h : addr.toNat % 4 = 0) (s : State) :
    hostAccess (.read addr 4) s = .next (hostRead addr s) := by
  have hd := (accessDefined_iff addr 4).mpr ⟨rfl, h⟩
  simp only [hostAccess, if_pos hd]

theorem hostAccess_write {addr : BitVec 8} (h : addr.toNat % 4 = 0) (v : Word) (s : State) :
    hostAccess (.write addr 4 v) s = hostWrite addr v s := by
  have hd := (accessDefined_iff addr 4).mpr ⟨rfl, h⟩
  simp only [hostAccess, if_pos hd]

/-! ### Writes -/

theorem guardedWrite_idle {f : State → State} {s : State} (h : s.busy = false) : guardedWrite f s = f s := by
  simp [guardedWrite, h]

theorem guardedWrite_busy {f : State → State} {s : State} (h : s.busy = true) : guardedWrite f s = overrun s := by
  simp [guardedWrite, h]

/-- A write of a register other than CMD. -/
theorem hostWrite_offset {r : Reg} (h : r ≠ .cmd) (v : Word) (s : State) :
    hostWrite r.offset v s = .next (writeReg v s r) := by
  unfold hostWrite
  rw [regAt_offset]
  cases r <;> first | rfl | exact absurd rfl h

/-- A write of CMD. -/
theorem hostWrite_cmd (v : Word) (s : State) : hostWrite 0x00#8 v s = writeCmd v s := rfl

/-- A write of an unmapped offset (spec/20_memory.md R62). -/
theorem hostWrite_unmapped {addr : BitVec 8} (h : regAt addr = none) (v : Word) (s : State) :
    hostWrite addr v s = .next s := by
  unfold hostWrite
  rw [h]

theorem busy_iff (s : State) : s.busy = true ↔ s.seq.phase = .run := by simp [State.busy]

theorem busy_eq_false_iff (s : State) : s.busy = false ↔ s.seq.phase = .idle := by
  unfold State.busy
  cases s.seq.phase <;> decide

/-! ### No command and no illegal word is refused -/

theorem exec_isNext (i : Instr) (s : State) : ∃ t, exec i s = .next t := by
  cases i <;> exact ⟨_, rfl⟩

theorem sequencerStep_isNext (s : State) : ∃ t, sequencerStep s = .next t := by
  unfold sequencerStep
  split
  · exact ⟨_, rfl⟩
  · split
    · exact exec_isNext _ _
    · exact ⟨_, rfl⟩

theorem writeCmd_isNext (v : Word) (s : State) : ∃ t, writeCmd v s = .next t := by
  unfold writeCmd
  split
  · exact exec_isNext _ _
  · split
    · exact ⟨_, rfl⟩
    · exact exec_isNext _ _
  · split <;> exact ⟨_, rfl⟩

theorem hostWrite_isNext (addr : BitVec 8) (v : Word) (s : State) : ∃ t, hostWrite addr v s = .next t := by
  unfold hostWrite
  split
  · exact ⟨_, rfl⟩
  · exact writeCmd_isNext _ _
  · exact ⟨_, rfl⟩

end Sys2Proof.Machine
end

