-- ==== Sys2Proof/Laws/Search.lean ====
section
/-! SUPPORT. What the turns of a search pass come to: the pass as one function (spec/42_search.md R173,
Sys2Proof/Safety.lean passOf). -/

namespace Sys2Proof.Machine

@[simp] theorem afterReset_seq (s : State) : (afterReset s).seq = s.seq := rfl
@[simp] theorem afterReset_sstat (s : State) : (afterReset s).sstat = s.sstat := rfl

@[simp] theorem afterReset_answer (s : State) (k : Nat) :
    (afterReset s).world.answer k = s.world.answer (k + 1) := afterTrips_answer .reset [resetByte] s k

/-- The state of a pass after its reset round trip and slots that sent `sent`, with the sequencer at `q`. -/
def midPass (sent : List Byte) (q : Sequencer) (s : State) : State :=
  { afterSlots sent (afterReset s) with seq := q }

@[simp] theorem midPass_seq (sent : List Byte) (q : Sequencer) (s : State) : (midPass sent q s).seq = q := rfl

@[simp] theorem midPass_sstat (sent : List Byte) (q : Sequencer) (s : State) :
    (midPass sent q s).sstat = s.sstat := by
  rw [midPass, afterSlots_rest]; rfl

@[simp] theorem midPass_answer (sent : List Byte) (q : Sequencer) (s : State) (k : Nat) :
    (midPass sent q s).world.answer k = s.world.answer (k + sent.length + 1) := by
  simp [midPass]

/-- The sequencer after one more round trip. -/
def Sequencer.tick (q : Sequencer) : Sequencer := { q with inFlight := false, index := q.index + 1 }

/-- One more slot of a pass. -/
theorem noteSample_midPass (sent : List Byte) (b : Byte) (q : Sequencer) (s : State) :
    noteSample (echoAt (midPass sent q s).world 0) (tripped .slot b (midPass sent q s)) =
      midPass (sent ++ [b]) q.tick s := by
  have h := afterSlots_snoc sent b (afterReset s)
  have hw : echoAt (midPass sent q s).world 0 = echoAt (afterSlots sent (afterReset s)).world 0 := rfl
  rw [hw]
  unfold midPass
  rw [← h]
  rfl

/-- The command runs passes: its turns at a boundary and its use of echoes are those of a pass in mode `al`. -/
structure RunsPass (c : Command) (al : Bool) (ss : SStat) where
  alarm : State → Bool
  first : State → State
  finish : PassOutcome → State → State
  mode : ∀ s, s.sstat = ss → alarm s = al
  boundary : c.boundary = passBoundary alarm c.onError first finish
  echo : c.onEcho = passEcho alarm

variable {c : Command} {al : Bool} {ss : SStat}

/-- Two turns of a slot of a pass. -/
theorem runTurns_passSlot (hc : RunsPass c al ss) {sent : List Byte} {q : Sequencer} {s : State} {b : Byte}
    (hq : q.between) (hb : c.boundary (midPass sent q s) = startRoundTrip c.onError .slot b (midPass sent q s))
    (hans : s.world.answer (sent.length + 1) ≠ []) (k : Nat) :
    runTurns c.turn (k + 2) (midPass sent q s) =
      runTurns c.turn k (passEcho hc.alarm (echoAt s.world (sent.length + 1))
        (tripped .slot b (midPass sent q s))) := by
  have he : echoAt (midPass sent q s).world 0 = echoAt s.world (sent.length + 1) := by simp [echoAt]
  rw [turn_turn (by simpa using hq.1) (by simpa using hq.2.1) (by simpa using hq.2.2) hb (by simpa using hans),
    hc.echo, he]

theorem noteSample_midPass' (sent : List Byte) (b : Byte) (q : Sequencer) (s : State) :
    noteSample (echoAt s.world (sent.length + 1)) (tripped .slot b (midPass sent q s)) =
      midPass (sent ++ [b]) q.tick s := by
  rw [← noteSample_midPass]
  congr 1
  simp [echoAt]

/-- A slot of the command byte. -/
theorem runTurns_passCmd (hc : RunsPass c al ss) {sent : List Byte} {q : Sequencer} {s : State} {i : Nat}
    (hss : s.sstat = ss) (hq : q.between) (hst : q.stage = .passCmd i)
    (hans : s.world.answer (sent.length + 1) ≠ []) (k : Nat) :
    runTurns c.turn (k + 2) (midPass sent q s) =
      runTurns c.turn k (midPass (sent ++ [slotByte ((searchByte al).getLsbD i)])
        { q.tick with stage := if i < 7 then .passCmd (i + 1) else .value } s) := by
  have hm : hc.alarm (midPass sent q s) = al := hc.mode _ (by simpa using hss)
  rw [runTurns_passSlot hc hq (b := slotByte ((searchByte al).getLsbD i))
    (by rw [hc.boundary]; simp [passBoundary, hst, hm]) hans]
  congr 1
  have hst' : (tripped .slot (slotByte ((searchByte al).getLsbD i)) (midPass sent q s)).seq.stage = .passCmd i := hst
  unfold passEcho
  rw [hst']
  simp only []
  rw [noteSample_midPass']
  rfl

/-- The value slot of a position. -/
theorem runTurns_passValue (hc : RunsPass c al ss) {sent : List Byte} {q : Sequencer} {s : State}
    (hq : q.between) (hst : q.stage = .value) (hans : s.world.answer (sent.length + 1) ≠ []) (k : Nat) :
    runTurns c.turn (k + 2) (midPass sent q s) =
      runTurns c.turn k (midPass (sent ++ [readSlotByte])
        { q.tick with stage := .complement (sampleAt s.world (sent.length + 1)) } s) := by
  rw [runTurns_passSlot hc hq (b := readSlotByte) (by rw [hc.boundary]; simp [passBoundary, hst]) hans]
  congr 1
  have hst' : (tripped .slot readSlotByte (midPass sent q s)).seq.stage = .value := hst
  unfold passEcho
  rw [hst']
  simp only []
  rw [noteSample_midPass']
  rfl

/-- The complement slot of a position. -/
theorem runTurns_passComplement (hc : RunsPass c al ss) {sent : List Byte} {q : Sequencer} {s : State} {v : Bool}
    (hss : s.sstat = ss) (hq : q.between) (hst : q.stage = .complement v)
    (hans : s.world.answer (sent.length + 1) ≠ []) (k : Nat) :
    runTurns c.turn (k + 2) (midPass sent q s) =
      runTurns c.turn k (decidePosition al v (sampleAt s.world (sent.length + 1))
        (midPass (sent ++ [readSlotByte]) q.tick s)) := by
  have hm : hc.alarm (tripped .slot readSlotByte (midPass sent q s)) = al := hc.mode _ (by simpa [tripped] using hss)
  rw [runTurns_passSlot hc hq (b := readSlotByte) (by rw [hc.boundary]; simp [passBoundary, hst]) hans]
  congr 1
  have hst' : (tripped .slot readSlotByte (midPass sent q s)).seq.stage = .complement v := hst
  unfold passEcho
  rw [hst']
  simp only [hm]
  rw [noteSample_midPass']
  rfl

/-- The write-back slot of a position. -/
theorem runTurns_passSelect (hc : RunsPass c al ss) {sent : List Byte} {q : Sequencer} {s : State} {b : Bool}
    (hq : q.between) (hst : q.stage = .select b) (hans : s.world.answer (sent.length + 1) ≠ []) (k : Nat) :
    runTurns c.turn (k + 2) (midPass sent q s) =
      runTurns c.turn k (acceptBit b (midPass (sent ++ [slotByte b]) q.tick s)) := by
  rw [runTurns_passSlot hc hq (b := slotByte b) (by rw [hc.boundary]; simp [passBoundary, hst]) hans]
  congr 1
  have hst' : (tripped .slot (slotByte b) (midPass sent q s)).seq.stage = .select b := hst
  unfold passEcho
  rw [hst']
  simp only []
  rw [noteSample_midPass']

/-- The sequencer where a pass ended. -/
def endSequencer (r : PassResult) (q : Sequencer) : Sequencer :=
  { q with
    stage := .passEnd r.outcome
    index := q.index + r.trips
    w := r.mask
    candAcc := r.cand
    pos := match r.outcome with
      | .noPresence => 0
      | .valid | .crcBad => 63
      | .noResponse | .violation => r.failPos
    scrc := r.crc }

/-- The sequencer at the value slot of position `p`. -/
def atPosition (p : Nat) (mask cand : DWord) (n : Nat) (q : Sequencer) : Sequencer :=
  { q with stage := .value, index := q.index + n + 1, w := mask, candAcc := cand, pos := p }

theorem passPositions_sent_length (sample : Nat → Bool) (left p : Nat) (mask cand : DWord) (sent : List Byte) :
    sent.length ≤ (passPositions al sample left p mask cand sent).sent.length := by
  induction left generalizing p mask cand sent with
  | zero => simp [passPositions]
  | succ left ih =>
    rw [passPositions]
    split
    · simp
    · exact Nat.le_trans (by simp) (ih ..)

/-- The two answers of a position. -/
theorem runTurns_pair (hc : RunsPass c al ss) {s : State} (hss : s.sstat = ss) {q : Sequencer} (hq : q.between)
    (hst : q.stage = .value) {sent : List Byte} (h1 : s.world.answer (sent.length + 1) ≠ [])
    (h2 : s.world.answer (sent.length + 2) ≠ []) (k : Nat) :
    runTurns c.turn (k + 4) (midPass sent q s) =
      runTurns c.turn k (decidePosition al (sampleAt s.world (sent.length + 1)) (sampleAt s.world (sent.length + 2))
        (midPass (sent ++ [readSlotByte, readSlotByte])
          { q.tick.tick with stage := .complement (sampleAt s.world (sent.length + 1)) } s)) := by
  obtain ⟨ha, hb, hd⟩ := hq
  rw [show k + 4 = (k + 2) + 2 from rfl, runTurns_passValue hc ⟨ha, hb, hd⟩ hst h1,
    runTurns_passComplement hc (sent := sent ++ [readSlotByte])
      (q := { q.tick with stage := .complement (sampleAt s.world (sent.length + 1)) })
      (v := sampleAt s.world (sent.length + 1)) hss ⟨ha, rfl, hd⟩ rfl (by simpa using h2)]
  simp [List.append_assoc, Sequencer.tick]

/-- A position at which nobody responded. -/
theorem runTurns_silent (hc : RunsPass c al ss) {s : State} (hss : s.sstat = ss) (hq : s.seq.between)
    {p : Nat} {mask cand : DWord} {sent : List Byte}
    (hch : choose (sampleAt s.world (sent.length + 1)) (sampleAt s.world (sent.length + 2)) p mask = none)
    (h1 : s.world.answer (sent.length + 1) ≠ []) (h2 : s.world.answer (sent.length + 2) ≠ []) (k : Nat) :
    runTurns c.turn (k + 4) (midPass sent (atPosition p mask cand sent.length s.seq) s) =
      runTurns c.turn k (midPass (sent ++ [readSlotByte, readSlotByte])
        { atPosition p mask cand (sent.length + 2) s.seq with stage := .passEnd (silentOutcome al) } s) := by
  rw [runTurns_pair hc hss (q := atPosition p mask cand sent.length s.seq) hq rfl h1 h2]
  obtain ⟨-, hfly, -⟩ := hq
  simp only [decidePosition, atPosition, Sequencer.tick, hch, goTo, midPass, ← hfly]
  rfl

/-- A position at which a bit is selected. -/
theorem runTurns_selected (hc : RunsPass c al ss) {s : State} (hss : s.sstat = ss) (hq : s.seq.between)
    {p : Nat} {mask cand : DWord} {sent : List Byte} {b : Bool} {w' : DWord}
    (hch : choose (sampleAt s.world (sent.length + 1)) (sampleAt s.world (sent.length + 2)) p mask = some (b, w'))
    (h1 : s.world.answer (sent.length + 1) ≠ []) (h2 : s.world.answer (sent.length + 2) ≠ [])
    (h3 : s.world.answer (sent.length + 3) ≠ []) (k : Nat) :
    runTurns c.turn (k + 6) (midPass sent (atPosition p mask cand sent.length s.seq) s) =
      runTurns c.turn k (acceptBit b (midPass (sent ++ [readSlotByte, readSlotByte, slotByte b])
        { atPosition p w' cand (sent.length + 3) s.seq with stage := .select b } s)) := by
  have hd : decidePosition al (sampleAt s.world (sent.length + 1)) (sampleAt s.world (sent.length + 2))
      (midPass (sent ++ [readSlotByte, readSlotByte])
        { (atPosition p mask cand sent.length s.seq).tick.tick with
          stage := .complement (sampleAt s.world (sent.length + 1)) } s) =
      midPass (sent ++ [readSlotByte, readSlotByte])
        { atPosition p w' cand (sent.length + 2) s.seq with stage := .select b, inFlight := false } s := by
    simp only [decidePosition, atPosition, Sequencer.tick, hch, midPass]
    rfl
  rw [show k + 6 = (k + 2) + 4 from rfl,
    runTurns_pair hc hss (q := atPosition p mask cand sent.length s.seq) hq rfl h1 h2, hd,
    runTurns_passSelect hc (sent := sent ++ [readSlotByte, readSlotByte]) (b := b)
      (q := { atPosition p w' cand (sent.length + 2) s.seq with stage := .select b, inFlight := false })
      ⟨hq.1, rfl, hq.2.2⟩ rfl (by simpa using h3)]
  obtain ⟨-, hfly, -⟩ := hq
  simp only [List.append_assoc, List.cons_append, List.nil_append, Sequencer.tick, atPosition, hfly, Nat.add_assoc]
  
/-- The positions of a pass from `p` on: two turns a slot. -/
theorem runTurns_positions (hc : RunsPass c al ss) {s : State} (hss : s.sstat = ss) (hq : s.seq.between)
    (hz : s.seq.scrc = 0x00#8) :
    ∀ (left p : Nat) (mask cand : DWord) (sent : List Byte), p + left = 63 →
      answered s.world (passPositions al (sampleAt s.world) (left + 1) p mask cand sent).trips →
      ∀ k, runTurns c.turn (2 * ((passPositions al (sampleAt s.world) (left + 1) p mask cand sent).sent.length
          - sent.length) + k) (midPass sent (atPosition p mask cand sent.length s.seq) s) =
        runTurns c.turn k (midPass (passPositions al (sampleAt s.world) (left + 1) p mask cand sent).sent
          (endSequencer (passPositions al (sampleAt s.world) (left + 1) p mask cand sent) s.seq) s) := by
  intro left
  induction left with
  | zero =>
    intro p mask cand sent hp
    have hp' : p = 63 := by omega
    subst hp'
    rw [passPositions]
    cases hch : choose (sampleAt s.world (sent.length + 1)) (sampleAt s.world (sent.length + 2)) 63 mask with
    | none =>
      intro hans k
      simp only [PassResult.trips, List.length_append, List.length_cons, List.length_nil] at hans
      simp only [List.length_append, List.length_cons, List.length_nil]
      rw [show 2 * (sent.length + (0 + 1 + 1) - sent.length) + k = k + 4 by omega,
        runTurns_silent hc hss hq hch (hans _ (by omega)) (hans _ (by omega))]
      congr 2
      unfold endSequencer silentOutcome
      cases al <;> simp [atPosition, PassResult.trips, hz, Nat.add_assoc]
    | some bw =>
      obtain ⟨b, w'⟩ := bw
      intro hans k
      simp only [passPositions, PassResult.trips, List.length_append, List.length_cons, List.length_nil] at hans
      simp only [passPositions, List.length_append, List.length_cons, List.length_nil]
      rw [show 2 * (sent.length + (0 + 1 + 1 + 1) - sent.length) + k = k + 6 by omega,
        runTurns_selected hc hss hq hch (hans _ (by omega)) (hans _ (by omega)) (hans _ (by omega))]
      congr 1
      simp only [acceptBit, midPass_seq, atPosition, validate, endSequencer]
      unfold checkedOutcome
      by_cases hcrc : romCrc (putBit cand 63 b) = 0x00#8 <;>
        simp [hcrc, midPass, PassResult.trips, Nat.add_assoc]
  | succ left ih =>
    intro p mask cand sent hp
    rw [passPositions]
    cases hch : choose (sampleAt s.world (sent.length + 1)) (sampleAt s.world (sent.length + 2)) p mask with
    | none =>
      intro hans k
      simp only [PassResult.trips, List.length_append, List.length_cons, List.length_nil] at hans
      simp only [List.length_append, List.length_cons, List.length_nil]
      rw [show 2 * (sent.length + (0 + 1 + 1) - sent.length) + k = k + 4 by omega,
        runTurns_silent hc hss hq hch (hans _ (by omega)) (hans _ (by omega))]
      congr 2
      unfold endSequencer silentOutcome
      cases al <;> simp [atPosition, PassResult.trips, hz, Nat.add_assoc]
    | some bw =>
      obtain ⟨b, w'⟩ := bw
      intro hans k
      simp only [] at hans ⊢
      have hlen := passPositions_sent_length (al := al) (sampleAt s.world) (left + 1) (p + 1) w' (putBit cand p b)
        (sent ++ [readSlotByte, readSlotByte, slotByte b])
      simp only [List.length_append, List.length_cons, List.length_nil] at hlen
      have hih := ih (p + 1) w' (putBit cand p b) (sent ++ [readSlotByte, readSlotByte, slotByte b]) (by omega) hans k
      generalize hr : passPositions al (sampleAt s.world) (left + 1) (p + 1) w' (putBit cand p b)
        (sent ++ [readSlotByte, readSlotByte, slotByte b]) = r at *
      simp only [PassResult.trips] at hans
      simp only [List.length_append, List.length_cons, List.length_nil] at hih
      rw [show 2 * (r.sent.length - sent.length) + k = (2 * (r.sent.length - (sent.length + (0 + 1 + 1 + 1))) + k) + 6 by omega,
        runTurns_selected hc hss hq hch (hans _ (by omega)) (hans _ (by omega)) (hans _ (by omega)), ← hih]
      congr 1
      simp only [acceptBit, midPass_seq, atPosition, show p < 63 by omega, if_true]
      rfl

/-- The first `j` slots of the command byte. -/
def commandPrefix (al : Bool) (j : Nat) : List Byte :=
  (List.range j).map fun i => slotByte ((searchByte al).getLsbD i)

@[simp] theorem commandPrefix_length (j : Nat) : (commandPrefix al j).length = j := by simp [commandPrefix]

theorem commandPrefix_succ (j : Nat) :
    commandPrefix al (j + 1) = commandPrefix al j ++ [slotByte ((searchByte al).getLsbD j)] := by
  simp [commandPrefix, List.range_succ]

/-- The sequencer at slot `j` of the command byte; after the last, at the first value slot. -/
def atCommandSlot (j : Nat) (q : Sequencer) : Sequencer :=
  { q with stage := if j < 8 then .passCmd j else .value, inFlight := false, index := q.index + j + 1 }

/-- The command byte of a pass: two turns a slot. -/
theorem runTurns_command (hc : RunsPass c al ss) {s : State} (hss : s.sstat = ss) (hq : s.seq.between) :
    ∀ j, j ≤ 8 → answered s.world (j + 1) →
      ∀ k, runTurns c.turn (2 * j + k) (midPass [] (atCommandSlot 0 s.seq) s) =
        runTurns c.turn k (midPass (commandPrefix al j) (atCommandSlot j s.seq) s) := by
  intro j
  induction j with
  | zero => intro _ _ k; simp [commandPrefix]
  | succ j ih =>
    intro hj hans k
    rw [show 2 * (j + 1) + k = 2 * j + (k + 2) by omega, ih (by omega) (fun i hi => hans i (by omega)),
      runTurns_passCmd hc (i := j) (q := atCommandSlot j s.seq) hss ⟨hq.1, rfl, hq.2.2⟩
        (by simp [atCommandSlot, show j < 8 by omega]) (by simpa using hans (j + 1) (by omega)),
      commandPrefix_succ]
    congr 2
    simp only [Sequencer.tick, atCommandSlot, Nat.add_assoc]
    by_cases h7 : j < 7
    · simp [h7, show j + 1 < 8 by omega]
    · simp [h7, show ¬ j + 1 < 8 by omega]

/-- The reset round trip of a pass: two turns. -/
theorem runTurns_passReset (hc : RunsPass c al ss) {s : State} (hq : s.seq.between) (hst : s.seq.stage = .passReset)
    (hans : s.world.answer 0 ≠ []) (k : Nat) :
    runTurns c.turn (k + 2) s =
      runTurns c.turn k (midPass []
        { s.seq.tick with stage := if presenceOf (echoAt s.world 0) then .passCmd 0 else .passEnd .noPresence } s) := by
  rw [turn_turn (r := .reset) (b := resetByte) hq.1 hq.2.1 hq.2.2 (by rw [hc.boundary]; simp [passBoundary, hst]) hans,
    hc.echo]
  congr 1
  have hst' : (tripped .reset resetByte s).seq.stage = .passReset := hst
  unfold passEcho
  rw [hst']
  simp only [midPass, afterSlots_nil, afterReset]
  rw [← afterTrips_singleton]
  rfl

/-- A whole pass: two turns a round trip, and it stands where the pass as one function says. -/
theorem runTurns_pass (hc : RunsPass c al ss) {s : State} (hss : s.sstat = ss) (hq : s.seq.passBegun s.mask)
    (hans : answered s.world (nextPass al s).trips) (k : Nat) :
    runTurns c.turn (2 * (nextPass al s).trips + k) s =
      runTurns c.turn k (midPass (nextPass al s).sent (endSequencer (nextPass al s) s.seq) s) := by
  obtain ⟨hbet, hst, hw, hcand, hpos, hscrc⟩ := hq
  have hfly := hbet.2.1
  revert hans
  unfold nextPass passOf
  cases hp : presenceOf (echoAt s.world 0) with
  | false =>
    intro hans
    simp only [PassResult.trips, Bool.false_eq_true, if_false, List.length_nil] at hans ⊢
    rw [show 2 * (0 + 1) + k = k + 2 by omega, runTurns_passReset hc hbet hst (hans 0 (by omega)), hp]
    congr 2
    simp only [endSequencer, Sequencer.tick, PassResult.trips, List.length_nil]
    cases hs : s.seq
    simp_all
  | true =>
    intro hans
    simp only [if_true] at hans ⊢
    have hlen := passPositions_sent_length (al := al) (sampleAt s.world) 64 0 s.mask 0#64 (commandSlots al)
    have h8 : (commandSlots al).length = 8 := by simp [commandSlots]
    rw [h8] at hlen
    have hpos' := runTurns_positions hc hss hbet hscrc 63 0 s.mask 0#64 (commandSlots al) (by omega) hans k
    generalize passPositions al (sampleAt s.world) (63 + 1) 0 s.mask 0#64 (commandSlots al) = r at *
    rw [← hpos', h8]
    simp only [PassResult.trips] at hans ⊢
    rw [show 2 * (r.sent.length + 1) + k = ((2 * 8 + (2 * (r.sent.length - 8) + k))) + 2 by omega,
      runTurns_passReset hc hbet hst (hans 0 (by omega)), hp, if_pos rfl]
    have hcmd := runTurns_command hc hss hbet 8 (by omega) (fun i hi => hans i (by omega)) (2 * (r.sent.length - 8) + k)
    have h0 : atCommandSlot 0 s.seq = { s.seq.tick with stage := .passCmd 0 } := rfl
    have hend : atCommandSlot 8 s.seq = atPosition 0 s.mask 0#64 8 s.seq := by
      simp only [atCommandSlot, atPosition]
      cases hs : s.seq
      simp_all
    rw [← h0, hcmd, hend]
    rfl

theorem afterPass_withCmd (r : PassResult) (w : Word) (q : Sequencer) (s : State) :
    afterPass r { s with cmd := w, seq := q } = { afterPass r s with cmd := w, seq := q } := by
  unfold afterPass
  cases r.sent <;> rfl

/-- What a pass leaves of the fields it does not name: everything. -/
theorem afterPass_rest (r : PassResult) (s : State) :
    afterPass r s = { s with status := (afterPass r s).status, world := (afterPass r s).world,
                             cand := (afterPass r s).cand, nmask := (afterPass r s).nmask,
                             sstat := (afterPass r s).sstat } := by
  unfold afterPass
  rw [afterSlots_rest]
  rfl

/-- What the outcome of a pass says of its other results. -/
structure PassResult.Agrees (r : PassResult) : Prop where
  position : r.failPos < 64
  absent : r.outcome = .noPresence → r.failPos = 0 ∧ r.crc = 0x00#8
  visited : r.outcome = .valid ∨ r.outcome = .crcBad → r.failPos = 0
  valid : r.outcome = .valid → r.crc = 0x00#8
  silent : r.outcome = .noResponse ∨ r.outcome = .violation → r.crc = 0x00#8

theorem passPositions_agrees (sample : Nat → Bool) (left : Nat) :
    ∀ (p : Nat) (mask cand : DWord) (sent : List Byte), p + left ≤ 64 →
      (passPositions al sample left p mask cand sent).Agrees ∧
        (passPositions al sample left p mask cand sent).outcome ≠ .noPresence := by
  induction left with
  | zero =>
    intro p mask cand sent _
    simp only [passPositions, checkedOutcome]
    refine ⟨⟨by simp, ?_, ?_, ?_, ?_⟩, ?_⟩ <;> split <;> simp_all
  | succ left ih =>
    intro p mask cand sent hp
    rw [passPositions]
    split
    · refine ⟨⟨by dsimp only; omega, ?_, ?_, ?_, ?_⟩, ?_⟩ <;> unfold silentOutcome <;> cases al <;> simp
    · exact ih _ _ _ _ (by omega)

theorem passOf_agrees (m0 : DWord) (presence : Bool) (sample : Nat → Bool) :
    (passOf al m0 presence sample).Agrees := by
  unfold passOf
  cases presence
  · exact ⟨by simp, by simp, by simp, by simp, by simp⟩
  · exact (passPositions_agrees sample 64 0 m0 0#64 (commandSlots al) (by omega)).1

/-- What writeOutcome records where a pass has ended is what afterPass says. -/
theorem writeOutcome_endSequencer (s : State) (q : Sequencer) :
    writeOutcome (nextPass al s).outcome (midPass (nextPass al s).sent (endSequencer (nextPass al s) q) s) =
      { afterPass (nextPass al s) s with seq := endSequencer (nextPass al s) q } := by
  obtain ⟨h1, h2, h3, h4, h5⟩ : (nextPass al s).Agrees := passOf_agrees _ _ _
  generalize nextPass al s = r at *
  have hss : (afterSlots r.sent (afterReset s)).sstat = s.sstat := by rw [afterSlots_rest]; rfl
  cases ho : r.outcome <;> simp [ho] at h2 h3 h4 h5 <;>
    simp [writeOutcome, afterPass, recordedScrc, recordedFailPos, endSequencer, midPass, *]

/-- SEARCH_PASS runs passes in its own mode. -/
def srchPass_runsPass (a : Bool) (ss : SStat) : RunsPass (srchPassCommand a) a ss where
  alarm := fun _ => a
  first := passFirst
  finish := passFinish
  mode := fun _ _ => rfl
  boundary := rfl
  echo := rfl

/-- SEARCH_NEXT runs passes in the session's mode. -/
def srchNext_runsPass (ss : SStat) : RunsPass srchNextCommand ss.alarm ss where
  alarm := sessionAlarm
  first := nextFirst
  finish := nextFinish
  mode := fun s h => by simp [sessionAlarm, h]
  boundary := rfl
  echo := rfl

end Sys2Proof.Machine
end

