-- ==== Sys2Proof/Laws/Turns.lean ====
section
/-! SUPPORT. What a turn of each command can do, said once for each shape of command: whatever the pieces of a turn
keep, the turn keeps. A frame or an invariant is proved of the pieces and follows for the command. -/

namespace Sys2Proof.Machine

variable {P : State → Prop}

/-- The transmit turn. -/
theorem startRoundTrip_keeps {onError : State → State} {r : Rate} {b : Byte} {s : State} (hsent : P (sent r b s))
    (habort : P (raise .aborted (onError s))) : P (startRoundTrip onError r b s) := by
  rcases startRoundTrip_either onError r b s with h | h <;> rw [h] <;> assumption

/-- The receive turn. -/
theorem receive_keeps {onError : State → State} {onEcho : Byte → State → State} {s : State}
    (hfault : P (raise .wiringFault (onError (serialRx s)))) (hecho : ∀ e, P (onEcho e (received s))) :
    P (receive onError onEcho s) := by
  rcases receive_either onError onEcho s with h | h <;> rw [h]
  · exact hfault
  · exact hecho _

/-- A turn of a command: its receive, or its boundary. -/
theorem turn_keeps {c : Command} {s : State} (hrecv : s.seq.inFlight = true → P (receive c.onError c.onEcho s))
    (hbound : s.seq.inFlight = false → P (c.boundary s)) : P (c.turn s) := by
  unfold Command.turn
  split
  · next h => exact hrecv h
  · next h => exact hbound (by simpa using h)

/-- A turn of a command of codec slots. -/
theorem slotTurn_keeps {n : Nat} {byteAt : State → Nat → Byte} {finish : State → State} {c : Command} {s : State}
    (hb : c.boundary = slotBoundary n byteAt finish) (he : c.onEcho = slotEcho) (hn : c.onError = noErrorWrites)
    (hfault : s.seq.inFlight = true → P (raise .wiringFault (serialRx s)))
    (hecho : s.seq.inFlight = true → ∀ e, P (slotEcho e (received s)))
    (hsent : s.seq.inFlight = false → s.seq.index < n → P (sent .slot (byteAt s s.seq.index) s))
    (habort : s.seq.inFlight = false → s.seq.index < n → P (raise .aborted s))
    (hfin : s.seq.inFlight = false → ¬ s.seq.index < n → P (finish s)) : P (c.turn s) := by
  refine turn_keeps (fun h => ?_) (fun h => ?_)
  · rw [he, hn]
    exact receive_keeps (hfault h) (hecho h)
  · rw [hb]
    unfold slotBoundary
    split
    · next hi => exact startRoundTrip_keeps (hsent h hi) (habort h hi)
    · next hi => exact hfin h hi

/-- A turn of WRITE_BYTE is its check of DATA, or a turn of 8 write slots. -/
theorem wrbyteTurn_either (s : State) :
    (s.seq.inFlight = false ∧ s.seq.index = 0 ∧ byteTooLarge s.data = true ∧
        wrbyteCommand.turn s = raise .invalidByte s) ∨
      wrbyteCommand.turn s = (writeSlotsCommand 8).turn s := by
  unfold Command.turn
  dsimp only [wrbyteCommand, writeSlotsCommand]
  split
  · exact .inr rfl
  · next h =>
    unfold wrbyteBoundary
    split
    · next hd => exact .inl ⟨by simpa using h, hd.1, hd.2, rfl⟩
    · exact .inr rfl

/-- A turn of RESET. -/
theorem resetTurn_keeps {s : State} (hfault : s.seq.inFlight = true → P (raise .wiringFault (serialRx s)))
    (hecho : s.seq.inFlight = true → ∀ e, P (notePresence e (received s)))
    (hsent : s.seq.inFlight = false → P (sent .reset resetByte s))
    (habort : s.seq.inFlight = false → P (raise .aborted s)) (hfin : s.seq.inFlight = false → P (succeed s)) :
    P (resetCommand.turn s) := by
  refine turn_keeps (fun h => ?_) (fun h => ?_)
  · exact receive_keeps (hfault h) (hecho h)
  · show P (resetBoundary s)
    unfold resetBoundary
    split
    · exact startRoundTrip_keeps (hsent h) (habort h)
    · exact hfin h

/-- What a pass does with an echo is an update of the sequencer, over SAMPLE or PRESENCE. -/
theorem passEcho_either (alarm : State → Bool) (e : Byte) (s : State) :
    ∃ q : Sequencer, q.phase = s.seq.phase ∧ q.cmdw = s.seq.cmdw ∧ q.abortReq = s.seq.abortReq ∧
      q.inFlight = s.seq.inFlight ∧ q.index = s.seq.index ∧
      (passEcho alarm e s = { s with seq := q } ∨ passEcho alarm e s = { noteSample e s with seq := q } ∨
        passEcho alarm e s = { notePresence e s with seq := q }) := by
  refine ⟨(passEcho alarm e s).seq, ?_⟩
  unfold passEcho
  split
  · exact ⟨rfl, rfl, rfl, rfl, rfl, .inl rfl⟩
  · exact ⟨rfl, rfl, rfl, rfl, rfl, .inr (.inr rfl)⟩
  · exact ⟨rfl, rfl, rfl, rfl, rfl, .inr (.inl rfl)⟩
  · exact ⟨rfl, rfl, rfl, rfl, rfl, .inr (.inl rfl)⟩
  · unfold decidePosition
    split <;> exact ⟨rfl, rfl, rfl, rfl, rfl, .inr (.inl rfl)⟩
  · unfold acceptBit validate
    dsimp only
    split <;> exact ⟨rfl, rfl, rfl, rfl, rfl, .inr (.inl rfl)⟩
  · exact ⟨rfl, rfl, rfl, rfl, rfl, .inl rfl⟩

/-- A turn of a command of passes. -/
theorem passTurn_keeps {c : Command} {al : Bool} {ss : SStat} (hc : RunsPass c al ss) {s : State}
    (hfault : s.seq.inFlight = true → P (raise .wiringFault (c.onError (serialRx s))))
    (hecho : s.seq.inFlight = true → ∀ e, P (passEcho hc.alarm e (received s)))
    (hsent : s.seq.inFlight = false → ∀ r b, P (sent r b s))
    (habort : s.seq.inFlight = false → P (raise .aborted (c.onError s)))
    (hfirst : s.seq.inFlight = false → s.seq.stage = .start → P (hc.first s))
    (hfin : ∀ o, s.seq.inFlight = false → s.seq.stage = .passEnd o → P (hc.finish o s)) : P (c.turn s) := by
  refine turn_keeps (fun h => ?_) (fun h => ?_)
  · rw [hc.echo]
    exact receive_keeps (hfault h) (hecho h)
  · rw [hc.boundary]
    unfold passBoundary
    split
    · next hst => exact hfirst h hst
    · exact startRoundTrip_keeps (hsent h _ _) (habort h)
    · exact startRoundTrip_keeps (hsent h _ _) (habort h)
    · exact startRoundTrip_keeps (hsent h _ _) (habort h)
    · exact startRoundTrip_keeps (hsent h _ _) (habort h)
    · exact startRoundTrip_keeps (hsent h _ _) (habort h)
    · next hst => exact hfin _ h hst

/-- A command with no round trip, launched on an idle block with a turn: its body on the accepted block. -/
theorem launch_body {w : Word} {body : State → State} {s : State} (hs : readyIdle s 1)
    (h : (body (accept w (granted s))).seq.phase = .idle) : launch w body s = body (accept w (granted s)) := by
  obtain ⟨hidle, hg⟩ := hs
  obtain ⟨k, hk⟩ := Nat.exists_eq_add_of_le hg
  rw [launch_idle hidle, hk, Nat.add_comm, runTurns_succ _ _ (by rfl), runTurns_idle _ _ h]

/-- A turn that ends a running command, launched with a turn. -/
theorem launch_last {w : Word} {turn : State → State} {s : State} (hrun : s.seq.phase = .run) (hg : 1 ≤ s.world.grant)
    (h : (turn (granted s)).seq.phase = .idle) : launch w turn s = turn (granted s) := by
  obtain ⟨k, hk⟩ := Nat.exists_eq_add_of_le hg
  rw [launch_run hrun, hk, Nat.add_comm, runTurns_succ _ _ (by exact hrun), runTurns_idle _ _ h]

end Sys2Proof.Machine
end

