-- ==== Sys2Proof/Laws/Invariant.lean ====
section
/-! SUPPORT. The pieces of the invariant: what the event history keeps at each event, the part of the invariant that does
not look at the sequencer, and the invariant at the end of a command and inside a running one. -/

namespace Sys2Proof.Machine

/-! ### The event history -/

theorem tripOpen_sent {h : List SerialEvent} (ho : tripOpen h = some false) (old new : Rate) (b : Byte) :
    tripOpen (h ++ rateEvents old new ++ [.tx b]) = some true := by
  unfold tripOpen at *
  simp only [List.foldl_append, ho, rateEvents]
  split
  · rfl
  · cases new <;> rfl

theorem tripOpen_rx {h : List SerialEvent} (ho : tripOpen h = some true) (a : List Byte) :
    tripOpen (h ++ [.rx a]) = some false := by
  unfold tripOpen at *
  simp [List.foldl_append, ho, tripOrder]

theorem tripOpen_blockReset {h : List SerialEvent} {o : Bool} (ho : tripOpen h = some o) :
    tripOpen (h ++ [.setRate .reset]) = some false := by
  unfold tripOpen at *
  rw [List.foldl_append, ho]
  cases o <;> rfl

theorem lastRate_sent {h : List SerialEvent} {old : Rate} (hl : lastRate h = some old) (new : Rate) (b : Byte) :
    lastRate (h ++ rateEvents old new ++ [.tx b]) = some new := by
  unfold lastRate at *
  simp only [List.foldl_append, hl, rateEvents]
  split
  · next he => subst he; rfl
  · rfl

theorem lastRate_rx (h : List SerialEvent) (a : List Byte) : lastRate (h ++ [.rx a]) = lastRate h := by
  simp [lastRate, rateAfter, List.foldl_append]

theorem lastRate_setRate (h : List SerialEvent) (r : Rate) : lastRate (h ++ [.setRate r]) = some r := by
  unfold lastRate
  rw [List.foldl_append]
  cases h.foldl rateAfter none <;> rfl

/-! ### The parts of the invariant -/

/-- The part of the invariant that does not look at the sequencer. -/
structure RestInv (s : State) : Prop where
  session : ¬(s.sstat.active = true ∧ s.sstat.done = true)
  delivered : s.sstat.idv = true → romCrc s.romid = 0x00#8
  recorded : passRecord s.sstat s.cand
  rate : lastRate s.world.events = some s.status.rate

/-- The invariant of a running command. -/
structure RunInv (s : State) : Prop extends RestInv s where
  run : s.seq.phase = .run
  latched : s.cmd = s.seq.cmdw ∧ opcField s.seq.cmdw ≠ 0x3F#8
  position : s.seq.pos < 64
  progress : stageRecord s.seq
  flight : s.seq.inFlight = true → runsRoundTrips s.seq.cmdw = true
  ordered : tripOpen s.world.events = some s.seq.inFlight

theorem State.Inv.restInv {s : State} (h : s.Inv) : RestInv s := ⟨h.session, h.delivered, h.recorded, h.rate⟩

theorem State.Inv.runInv {s : State} (h : s.Inv) (hr : s.seq.phase = .run) : RunInv s :=
  ⟨h.restInv, hr, h.latched hr, h.position, h.progress, h.flight, h.ordered⟩

theorem RunInv.inv {s : State} (h : RunInv s) : s.Inv where
  idle hi := by rw [h.run] at hi; cases hi
  latched _ := h.latched
  position := h.position
  progress := h.progress
  session := h.session
  delivered := h.delivered
  recorded := h.recorded
  flight := h.flight
  ordered := h.ordered
  rate := h.rate

/-- The end of a command. -/
theorem RestInv.complete_inv {s : State} (h : RestInv s) (ho : tripOpen s.world.events = some false) :
    (complete s).Inv where
  idle _ := rfl
  latched hr := by cases hr
  position := by simp [complete, Sequencer.idle]
  progress := ⟨rfl, rfl⟩
  session := h.session
  delivered := h.delivered
  recorded := h.recorded
  flight hf := by cases hf
  ordered := ho
  rate := h.rate

theorem RestInv.raise_inv {e : ErrCode} {s : State} (h : RestInv s) (ho : tripOpen s.world.events = some false) :
    (raise e s).Inv :=
  RestInv.complete_inv (s := { s with status := { s.status with errcode := e, err := true } })
    ⟨h.session, h.delivered, h.recorded, h.rate⟩ ho

theorem RestInv.succeed_inv {s : State} (h : RestInv s) (ho : tripOpen s.world.events = some false) :
    (succeed s).Inv :=
  RestInv.complete_inv (s := { s with status := { s.status with errcode := .ok } })
    ⟨h.session, h.delivered, h.recorded, h.rate⟩ ho

/-- A transmit of a running command. -/
theorem RunInv.sent_runInv {s : State} (h : RunInv s) (hf : s.seq.inFlight = false)
    (ht : runsRoundTrips s.seq.cmdw = true) (r : Rate) (b : Byte) : RunInv (sent r b s) where
  session := h.session
  delivered := h.delivered
  recorded := h.recorded
  rate := lastRate_sent h.rate r b
  run := h.run
  latched := h.latched
  position := h.position
  progress := h.progress
  flight _ := ht
  ordered := tripOpen_sent (by rw [h.ordered, hf]) _ r b

/-- An answered receive of a running command. -/
theorem RunInv.received_runInv {s : State} (h : RunInv s) (hf : s.seq.inFlight = true) : RunInv (received s) where
  session := h.session
  delivered := h.delivered
  recorded := h.recorded
  rate := (lastRate_rx _ _).trans h.rate
  run := h.run
  latched := h.latched
  position := h.position
  progress := h.progress
  flight hh := by cases hh
  ordered := tripOpen_rx (by rw [h.ordered, hf]) _

theorem RunInv.serialRx_restInv {s : State} (h : RunInv s) : RestInv (serialRx s) := by
  rw [serialRx_eq]
  exact ⟨h.session, h.delivered, h.recorded, (lastRate_rx _ _).trans h.rate⟩

/-- A pass begins. -/
theorem RunInv.beginPass_runInv {s : State} (h : RunInv s) : RunInv (beginPass s) where
  session := h.session
  delivered := h.delivered
  recorded := h.recorded
  rate := h.rate
  run := h.run
  latched := h.latched
  position := by simp [beginPass]
  progress := ⟨rfl, rfl⟩
  flight := h.flight
  ordered := h.ordered

theorem RestInv.closeSession_restInv {s : State} (h : RestInv s) : RestInv (closeSession s) :=
  ⟨by simp [closeSession], h.delivered, h.recorded, h.rate⟩

/-- The outcome of a pass is recorded. -/
theorem RunInv.writeOutcome_restInv {s : State} {o : PassOutcome} (h : RunInv s) (ho : s.seq.stage = .passEnd o) :
    RestInv (writeOutcome o s) := by
  refine ⟨h.session, h.delivered, ?_, h.rate⟩
  have hp := h.progress
  have h64 := h.position
  unfold stageRecord at hp
  rw [ho] at hp
  cases o <;> simp [passRecord, writeOutcome, recordedScrc, recordedFailPos] <;> simp at hp
  · exact hp
  · exact hp
  · exact hp
  · rw [Nat.mod_eq_of_lt h64]; exact hp
  · rw [Nat.mod_eq_of_lt h64]; exact hp

/-- A pass uses an echo. -/
theorem RunInv.passEcho_inv {u : State} (h : RunInv u) (alarm : State → Bool) (e : Byte) :
    (passEcho alarm e u).Inv := by
  have keep : ∀ v : State, v.sstat = u.sstat → v.romid = u.romid → v.cand = u.cand → v.status.rate = u.status.rate →
      v.world = u.world → v.cmd = u.cmd → v.seq.phase = u.seq.phase → v.seq.cmdw = u.seq.cmdw →
      v.seq.inFlight = u.seq.inFlight → v.seq.pos < 64 → stageRecord v.seq → v.Inv := by
    intro v e1 e2 e3 e4 e5 e6 e7 e8 e9 hpos hst
    have hl := h.latched
    have hs := h.session
    have hd := h.delivered
    have hc := h.recorded
    have hr := h.rate
    have hf := h.flight
    have ho := h.ordered
    rw [← e1] at hs hd hc
    rw [← e2] at hd
    rw [← e3] at hc
    rw [← e4, ← e5] at hr
    rw [← e6, ← e8] at hl
    rw [← e8, ← e9] at hf
    rw [← e5, ← e9] at ho
    exact RunInv.inv ⟨⟨hs, hd, hc, hr⟩, e7.trans h.run, hl, hpos, hst, hf, ho⟩
  have hp := h.progress
  have hpos := h.position
  unfold stageRecord at hp
  unfold passEcho
  split
  · exact h.inv
  · next hst =>
    rw [hst] at hp
    refine keep _ rfl rfl rfl rfl rfl rfl rfl rfl rfl hpos ?_
    simp only [goTo]
    split
    · exact ⟨by omega, hp.1, hp.2⟩
    · exact hp.2
  · next i hst =>
    rw [hst] at hp
    refine keep _ rfl rfl rfl rfl rfl rfl rfl rfl rfl hpos ?_
    simp only [goTo]
    split
    · exact ⟨by omega, hp.2.1, hp.2.2⟩
    · show zeroFrom u.seq.candAcc _
      rw [hp.2.2]
      exact zeroFrom_zero _
  · next hst =>
    rw [hst] at hp
    exact keep _ rfl rfl rfl rfl rfl rfl rfl rfl rfl hpos hp
  · next v hst =>
    rw [hst] at hp
    unfold decidePosition
    split
    · refine keep _ rfl rfl rfl rfl rfl rfl rfl rfl rfl hpos ?_
      unfold silentOutcome goTo
      split <;> exact hp
    · exact keep _ rfl rfl rfl rfl rfl rfl rfl rfl rfl hpos hp
  · next b hst =>
    rw [hst] at hp
    unfold acceptBit
    dsimp only
    split
    · next h63 =>
      refine keep _ rfl rfl rfl rfl rfl rfl rfl rfl rfl ?_ (zeroFrom_putBit b hp hpos)
      have h63' : u.seq.pos < 63 := h63
      show u.seq.pos + 1 < 64
      omega
    · refine keep _ rfl rfl rfl rfl rfl rfl rfl rfl rfl hpos ?_
      unfold validate checkedOutcome
      dsimp only
      generalize putBit _ _ b = x
      by_cases hx : romCrc x = 0x00#8
      · rw [if_pos hx]; exact ⟨hx, hx⟩
      · rw [if_neg hx]; exact ⟨hx, rfl⟩
  · exact h.inv

/-- The schedule's grant is used up. -/
theorem State.Inv.granted_inv {s : State} (h : s.Inv) : (granted s).Inv := by
  have he : (granted s).world.events = s.world.events := by simp [granted]
  exact ⟨h.idle, h.latched, h.position, h.progress, h.session, h.delivered, h.recorded, h.flight,
    by rw [he]; exact h.ordered, by rw [he]; exact h.rate⟩

/-- A word that is no ABORT is accepted. -/
theorem State.Inv.accept_inv {s : State} (h : s.Inv) {w : Word} (hw : opcField w ≠ 0x3F#8)
    (hi : s.seq.phase = .idle) : (accept w s).Inv := by
  have ho := h.ordered
  rw [h.idle hi] at ho
  exact RunInv.inv ⟨⟨h.session, h.delivered, h.recorded, h.rate⟩, rfl, ⟨rfl, hw⟩, by simp [accept, Sequencer.idle], ⟨rfl, rfl⟩, (fun hf => by cases hf), ho⟩

end Sys2Proof.Machine
end

