-- ==== Sys2Proof/Laws/PerInstr.lean ====
section
/-! SUPPORT. The families of statements made of every instruction, one lemma for each constructor of Instr. -/

namespace Sys2Proof.Laws.EncodedWord

/-- The word of a command sets no reserved bit (spec/30_encoding.md R95), and has the opcode 0x3F exactly where it is an
ABORT (R96). -/
def Statement (i : Instr) : Prop :=
  reservedSet (encode i) = false ∧ (opcField (encode i) = 0x3F#8 ↔ i = .abort)

theorem owReset : Statement .owReset := by simp [Statement, encode]

theorem owWrbit (b : Bool) : Statement (.owWrbit b) := by simp [Statement, encode]

theorem owRdbit : Statement .owRdbit := by simp [Statement, encode]

theorem owWrbits (n : Nat) : Statement (.owWrbits n) := by simp [Statement, encode]

theorem owRdbits (n : Nat) : Statement (.owRdbits n) := by simp [Statement, encode]

theorem owWrbyte : Statement .owWrbyte := by simp [Statement, encode]

theorem owRdbyte : Statement .owRdbyte := by simp [Statement, encode]

theorem crcClr : Statement .crcClr := by simp [Statement, encode]

theorem crcBit (b : Bool) : Statement (.crcBit b) := by simp [Statement, encode]

theorem crcBits (n : Nat) : Statement (.crcBits n) := by simp [Statement, encode]

theorem srchBegin (a : Bool) : Statement (.srchBegin a) := by simp [Statement, encode]

theorem srchPass (a : Bool) : Statement (.srchPass a) := by simp [Statement, encode]

theorem srchNext : Statement .srchNext := by simp [Statement, encode]

theorem abort : Statement .abort := by simp [Statement, encode]

end Sys2Proof.Laws.EncodedWord
end

