-- ==== Sys2Proof/Laws/Spread.lean ====
section
/-! SUPPORT. What a turn of a command does not see of the world: the schedule, the record of reads, and, where the answers
to come are given, the count of free values drawn (00_scope.md R11, spec/20_memory.md R67). -/

namespace Sys2Proof.Machine

/-! ### The turn of each command -/

/-- One turn of command `i`; an ABORT has none. -/
def Instr.turn : Instr → State → State
  | .owReset => resetCommand.turn
  | .owWrbit b => (wrbitCommand b).turn
  | .owRdbit => (readSlotsCommand 1).turn
  | .owWrbits n => (writeSlotsCommand n).turn
  | .owRdbits n => (readSlotsCommand n).turn
  | .owWrbyte => wrbyteCommand.turn
  | .owRdbyte => (readSlotsCommand 8).turn
  | .crcClr => crcClrBody
  | .crcBit b => crcBitBody b
  | .crcBits n => crcBitsBody n
  | .srchBegin a => srchBeginBody a
  | .srchPass a => (srchPassCommand a).turn
  | .srchNext => srchNextCommand.turn
  | .abort => id

/-- Every command but ABORT is its launch. -/
theorem exec_launch {i : Instr} (hi : i ≠ .abort) (s : State) : exec i s = .next (launch (encode i) (Instr.turn i) s) := by
  cases i <;> first | rfl | exact absurd rfl hi

/-- One turn of the latched word `w`, a word that does not decode included. -/
def wordTurn (w : Word) : State → State :=
  match decode w with
  | .legal i => Instr.turn i
  | .illegal _ => illegalBody

/-- A running block that gets turns takes turns of its latched word. -/
theorem sequencerStep_run {s : State} (hr : s.seq.phase = .run) (ha : decode s.seq.cmdw ≠ .legal .abort) :
    sequencerStep s = .next (runTurns (wordTurn s.seq.cmdw) s.world.grant (granted s)) := by
  unfold sequencerStep wordTurn
  cases hd : decode s.seq.cmdw with
  | legal i =>
    simp only [hr]
    rw [exec_launch (fun h => ha (by rw [hd, h])), launch_run hr]
  | illegal _ =>
    simp only [hr]
    rw [execIllegal, launch_run hr]

/-! ### Worlds a turn cannot tell apart -/

/-- `s` in another world. -/
def inWorld (s : State) (w : World) : State := { s with world := w }

/-- `f` neither reads nor writes the world. -/
def WorldFree (f : State → State) : Prop := ∀ s w, f (inWorld s w) = inWorld (f s) w

/-- A world with another history. -/
def World.setEvents (w : World) (e : List SerialEvent) : World := { w with events := e }

/-- A change of the world that a turn at the world `w` does not see. -/
structure Unseen (U : World → World) (w : World) : Prop where
  answer : (U w).answer 0 = w.answer 0
  events : ∀ v : World, (U v).events = v.events
  withEvents : ∀ (v : World) (e : List SerialEvent), U (v.setEvents e) = (U v).setEvents e
  pop : U w.popAnswer = (U w).popAnswer

/-- `s` with its world changed by `U`. -/
def changed (U : World → World) (s : State) : State := inWorld s (U s.world)

variable {U : World → World} {s : State}

theorem WorldFree.world {f : State → State} (h : WorldFree f) (s : State) : (f s).world = s.world := by
  rw [show f s = inWorld (f s) s.world from h s s.world]
  rfl

theorem WorldFree.changed {f : State → State} (h : WorldFree f) (s : State) :
    f (Machine.changed U s) = Machine.changed U (f s) := by
  unfold Machine.changed
  rw [h, h.world]

/-- A world-free function, and then the end of the command with an error. -/
theorem WorldFree.raise {f : State → State} (h : WorldFree f) (e : ErrCode) :
    WorldFree fun s => Machine.raise e (f s) := by
  intro s w
  dsimp only
  rw [h]
  rfl

theorem sent_changed (h : Unseen U s.world) (r : Rate) (b : Byte) : sent r b (changed U s) = changed U (sent r b s) := by
  show inWorld (sent r b s) ((U s.world).setEvents ((U s.world).events ++ rateEvents s.status.rate r ++ [.tx b])) =
    inWorld (sent r b s) (U (s.world.setEvents (s.world.events ++ rateEvents s.status.rate r ++ [.tx b])))
  rw [h.withEvents, h.events]

theorem serialRx_changed (h : Unseen U s.world) : serialRx (changed U s) = changed U (serialRx s) := by
  rw [serialRx_eq, serialRx_eq]
  show inWorld (serialRx s) ((U s.world).popAnswer.setEvents ((U s.world).events ++ [.rx ((U s.world).answer 0)])) =
    inWorld (serialRx s) (U (s.world.popAnswer.setEvents (s.world.events ++ [.rx (s.world.answer 0)])))
  rw [h.withEvents, h.pop, h.events, h.answer]

theorem startRoundTrip_changed (h : Unseen U s.world) {onError : State → State} (ho : WorldFree onError) (r : Rate)
    (b : Byte) : startRoundTrip onError r b (changed U s) = changed U (startRoundTrip onError r b s) := by
  rw [startRoundTrip_eq, startRoundTrip_eq, show (changed U s).seq.abortReq = s.seq.abortReq from rfl]
  split
  · exact (ho.raise .aborted).changed s
  · exact sent_changed h r b

theorem noteExtra_worldFree (a : List Byte) : WorldFree (noteExtra a) := by
  intro s w
  rw [noteExtra_eq, noteExtra_eq]
  rfl

theorem receive_changed (h : Unseen U s.world) {onError : State → State} {onEcho : Byte → State → State}
    (ho : WorldFree onError) (hf : ∀ e, WorldFree (onEcho e)) :
    receive onError onEcho (changed U s) = changed U (receive onError onEcho s) := by
  unfold receive
  rw [show (changed U s).world.answer 0 = s.world.answer 0 from h.answer, serialRx_changed h]
  cases s.world.answer 0 with
  | nil => exact (ho.raise .wiringFault).changed _
  | cons e extra =>
    dsimp only
    rw [(noteExtra_worldFree _).changed, (hf e).changed]

/-- A turn of a command, its boundary given. -/
theorem Command.turn_changed (h : Unseen U s.world) {c : Command} (ho : WorldFree c.onError)
    (hf : ∀ e, WorldFree (c.onEcho e)) (hb : c.boundary (changed U s) = changed U (c.boundary s)) :
    c.turn (changed U s) = changed U (c.turn s) := by
  unfold Command.turn
  rw [show (changed U s).seq = s.seq from rfl]
  split
  · exact receive_changed h ho hf
  · exact hb

/-! ### The codec commands -/

theorem noErrorWrites_worldFree : WorldFree noErrorWrites := fun _ _ => rfl

theorem slotEcho_worldFree (e : Byte) : WorldFree (slotEcho e) := fun _ _ => rfl

theorem slotBoundary_changed (h : Unseen U s.world) (n : Nat) {byteAt : State → Nat → Byte} {finish : State → State}
    (hb : ∀ s w i, byteAt (inWorld s w) i = byteAt s i) (hfin : WorldFree finish) :
    slotBoundary n byteAt finish (changed U s) = changed U (slotBoundary n byteAt finish s) := by
  unfold slotBoundary
  rw [show (changed U s).seq = s.seq from rfl]
  split
  · rw [show byteAt (changed U s) s.seq.index = byteAt s s.seq.index from hb ..]
    exact startRoundTrip_changed h noErrorWrites_worldFree _ _
  · exact hfin.changed s

theorem writeSlots_changed (h : Unseen U s.world) (n : Nat) :
    (writeSlotsCommand n).turn (changed U s) = changed U ((writeSlotsCommand n).turn s) :=
  Command.turn_changed h noErrorWrites_worldFree slotEcho_worldFree
    (slotBoundary_changed h n (byteAt := dataSlotByte) (finish := succeed) (fun _ _ _ => rfl) (fun _ _ => rfl))

theorem readSlots_changed (h : Unseen U s.world) (n : Nat) :
    (readSlotsCommand n).turn (changed U s) = changed U ((readSlotsCommand n).turn s) :=
  Command.turn_changed h noErrorWrites_worldFree slotEcho_worldFree
    (slotBoundary_changed h n (byteAt := readSlots) (finish := finishRead) (fun _ _ _ => rfl) (fun _ _ => rfl))

theorem wrbit_changed (h : Unseen U s.world) (b : Bool) :
    (wrbitCommand b).turn (changed U s) = changed U ((wrbitCommand b).turn s) :=
  Command.turn_changed h noErrorWrites_worldFree slotEcho_worldFree
    (slotBoundary_changed h 1 (byteAt := fun _ _ => slotByte b) (finish := succeed) (fun _ _ _ => rfl) (fun _ _ => rfl))

theorem wrbyte_changed (h : Unseen U s.world) : wrbyteCommand.turn (changed U s) = changed U (wrbyteCommand.turn s) := by
  refine Command.turn_changed h noErrorWrites_worldFree slotEcho_worldFree ?_
  show wrbyteBoundary (changed U s) = changed U (wrbyteBoundary s)
  unfold wrbyteBoundary
  rw [show (changed U s).seq = s.seq from rfl, show (changed U s).data = s.data from rfl]
  split
  · rfl
  · exact slotBoundary_changed h 8 (byteAt := dataSlotByte) (finish := succeed) (fun _ _ _ => rfl) (fun _ _ => rfl)

theorem reset_changed (h : Unseen U s.world) : resetCommand.turn (changed U s) = changed U (resetCommand.turn s) := by
  refine Command.turn_changed h noErrorWrites_worldFree (fun _ _ _ => rfl) ?_
  show resetBoundary (changed U s) = changed U (resetBoundary s)
  unfold resetBoundary
  rw [show (changed U s).seq = s.seq from rfl]
  split
  · exact startRoundTrip_changed h noErrorWrites_worldFree _ _
  · rfl

/-! ### The search commands -/

theorem closeSession_worldFree : WorldFree closeSession := fun _ _ => rfl

theorem passEcho_worldFree {alarm : State → Bool} (ha : ∀ s w, alarm (inWorld s w) = alarm s) (e : Byte) :
    WorldFree (passEcho alarm e) := by
  intro s w
  unfold passEcho
  rw [show (inWorld s w).seq = s.seq from rfl, ha]
  split
  · rfl
  · rfl
  · rfl
  · rfl
  · unfold decidePosition
    rw [show (noteSample e (inWorld s w)).seq = (noteSample e s).seq from rfl]
    split <;> rfl
  · unfold acceptBit validate
    rw [show (noteSample e (inWorld s w)).seq = (noteSample e s).seq from rfl]
    split <;> rfl
  · rfl

theorem passFinish_worldFree (o : PassOutcome) : WorldFree (passFinish o) := by
  intro s w
  cases o <;> rfl

theorem nextFinish_worldFree (o : PassOutcome) : WorldFree (nextFinish o) := by
  intro s w
  cases o with
  | noPresence => rfl
  | noResponse => rfl
  | violation => rfl
  | valid =>
    unfold nextFinish deliver
    dsimp only
    rw [show (writeOutcome .valid (inWorld s w)).seq = (writeOutcome .valid s).seq from rfl]
    split <;> rfl
  | crcBad =>
    unfold nextFinish nextRetry
    dsimp only
    rw [show (writeOutcome .crcBad (inWorld s w)).retries = (writeOutcome .crcBad s).retries from rfl,
      show (writeOutcome .crcBad (inWorld s w)).retryLimit = (writeOutcome .crcBad s).retryLimit from rfl]
    split <;> rfl

theorem passBoundary_changed (h : Unseen U s.world) {alarm : State → Bool} {onError first : State → State}
    {finish : PassOutcome → State → State} (ha : ∀ s w, alarm (inWorld s w) = alarm s) (ho : WorldFree onError)
    (hfirst : first (changed U s) = changed U (first s)) (hfin : ∀ o, WorldFree (finish o)) :
    passBoundary alarm onError first finish (changed U s) = changed U (passBoundary alarm onError first finish s) := by
  unfold passBoundary
  rw [show (changed U s).seq = s.seq from rfl, show alarm (changed U s) = alarm s from ha ..]
  split
  · exact hfirst
  · exact startRoundTrip_changed h ho _ _
  · exact startRoundTrip_changed h ho _ _
  · exact startRoundTrip_changed h ho _ _
  · exact startRoundTrip_changed h ho _ _
  · exact startRoundTrip_changed h ho _ _
  · exact (hfin _).changed s

theorem passFirst_changed (h : Unseen U s.world) : passFirst (changed U s) = changed U (passFirst s) :=
  startRoundTrip_changed (s := beginPass s) h (onError := passErrorWrites) (fun _ _ => rfl) .reset resetByte

theorem srchPass_changed (h : Unseen U s.world) (a : Bool) :
    (srchPassCommand a).turn (changed U s) = changed U ((srchPassCommand a).turn s) :=
  Command.turn_changed h (c := srchPassCommand a) (fun _ _ => rfl) (passEcho_worldFree fun _ _ => rfl)
    (passBoundary_changed h (alarm := fun _ => a) (onError := passErrorWrites) (first := passFirst) (finish := passFinish)
      (fun _ _ => rfl) (fun _ _ => rfl) (passFirst_changed h) passFinish_worldFree)

theorem nextFirst_changed (h : Unseen U s.world) : nextFirst (changed U s) = changed U (nextFirst s) := by
  unfold nextFirst
  rw [show (changed U s).sstat = s.sstat from rfl]
  split
  · exact startRoundTrip_changed (s := beginPass (clearResult s)) h closeSession_worldFree _ _
  · rfl

theorem srchNext_changed (h : Unseen U s.world) : srchNextCommand.turn (changed U s) = changed U (srchNextCommand.turn s) :=
  Command.turn_changed h (c := srchNextCommand) closeSession_worldFree (passEcho_worldFree fun _ _ => rfl)
    (passBoundary_changed h (alarm := sessionAlarm) (onError := closeSession) (first := nextFirst) (finish := nextFinish)
      (fun _ _ => rfl) closeSession_worldFree (nextFirst_changed h) nextFinish_worldFree)

/-- A turn of any command. -/
theorem wordTurn_changed (h : Unseen U s.world) (w : Word) :
    wordTurn w (changed U s) = changed U (wordTurn w s) := by
  unfold wordTurn
  cases decode w with
  | illegal _ => rfl
  | legal i =>
    cases i with
    | owReset => exact reset_changed h
    | owWrbit b => exact wrbit_changed h b
    | owRdbit => exact readSlots_changed h 1
    | owWrbits n => exact writeSlots_changed h n
    | owRdbits n => exact readSlots_changed h n
    | owWrbyte => exact wrbyte_changed h
    | owRdbyte => exact readSlots_changed h 8
    | crcClr => rfl
    | crcBit b => rfl
    | crcBits n => rfl
    | srchBegin a => rfl
    | srchPass a => exact srchPass_changed h a
    | srchNext => exact srchNext_changed h
    | abort => rfl

/-! ### Changes that turns do not see -/

/-- A world with another schedule. -/
def World.setMoves (w : World) (ms : List Move) : World := { w with moves := ms }

/-- A world with another record of reads and another count of draws. -/
def World.setRecord (w : World) (l : List (BitVec 8 × Word)) (d : Nat) : World := { w with reads := l, draws := d }

theorem unseen_setMoves (w : World) (ms : List Move) : Unseen (fun v => v.setMoves ms) w where
  answer := rfl
  events _ := rfl
  withEvents _ _ := rfl
  pop := by
    unfold World.popAnswer World.setMoves
    cases w.answers <;> rfl

theorem unseen_setRecord {w : World} (h : w.answers ≠ []) (l : List (BitVec 8 × Word)) (d : Nat) :
    Unseen (fun v => v.setRecord l d) w where
  answer := by
    cases ha : w.answers with
    | nil => exact absurd ha h
    | cons a rest => simp [World.answer, World.setRecord, ha]
  events _ := rfl
  withEvents _ _ := rfl
  pop := by
    cases ha : w.answers with
    | nil => exact absurd ha h
    | cons a rest => simp [World.popAnswer, World.setRecord, ha]

/-! ### Many turns -/

/-- Turns do not see the schedule. -/
theorem runTurns_setMoves (w : Word) (n : Nat) (s : State) (ms : List Move) :
    runTurns (wordTurn w) n (changed (fun v => v.setMoves ms) s) =
      changed (fun v => v.setMoves ms) (runTurns (wordTurn w) n s) := by
  induction n generalizing s with
  | zero => rfl
  | succ n ih =>
    cases hp : s.seq.phase with
    | idle => rw [runTurns_idle _ _ hp, runTurns_idle _ _ (by exact hp)]
    | run =>
      rw [runTurns_succ _ _ hp, runTurns_succ _ _ (by exact hp), wordTurn_changed (unseen_setMoves _ ms), ih]

/-- What one turn does at the serial port: nothing, a transmit with its rate change, or a receive (20_memory.md R71). -/
inductive PortTurn (s t : State) : Prop where
  | quiet (h : t.world.events = s.world.events)
  | transmit (r : Rate) (b : Byte) (h : t.world.events = s.world.events ++ rateEvents s.status.rate r ++ [.tx b])
  | receive (a : List Byte) (h : t.world.events = s.world.events ++ [.rx a])

/-- What every turn keeps to: it does one thing at the port, takes at most one answer, and leaves the latched word, unless
the command has ended (10_state.md R50). -/
structure Follows (s t : State) : Prop where
  port : PortTurn s t
  answers : s.world.answers.length ≤ t.world.answers.length + 1
  latched : t.seq.phase = .run → t.seq.cmdw = s.seq.cmdw

/-- A turn that leaves the world alone. -/
theorem follows_quiet {t : State} (hw : t.world = s.world) (hl : t.seq.phase = .run → t.seq.cmdw = s.seq.cmdw) :
    Follows s t :=
  ⟨.quiet (by rw [hw]), by rw [hw]; exact Nat.le_succ _, hl⟩

/-- A turn that ends the command and leaves the world alone. -/
theorem follows_ended {t : State} (hw : t.world = s.world) (hi : t.seq.phase = .idle) : Follows s t :=
  follows_quiet hw fun h => by rw [hi] at h; cases h

theorem popAnswer_length (w : World) : w.answers.length ≤ w.popAnswer.answers.length + 1 := by
  unfold World.popAnswer
  cases w.answers <;> simp

/-- A turn that takes an answer. -/
theorem follows_received {t : State} (hw : t.world = (received s).world)
    (hl : t.seq.phase = .run → t.seq.cmdw = s.seq.cmdw) : Follows s t :=
  ⟨.receive _ (by rw [hw]; rfl), by rw [hw]; exact popAnswer_length _, hl⟩

theorem follows_raise (e : ErrCode) : Follows s (raise e s) := follows_ended rfl rfl
theorem follows_succeed : Follows s (succeed s) := follows_ended rfl rfl

/-- An empty receive, whatever else the error writes. -/
theorem follows_fault {onError : State → State} (ho : WorldFree onError) :
    Follows s (raise .wiringFault (onError (serialRx s))) :=
  follows_received (by
    show (onError (serialRx s)).world = _
    rw [ho.world, serialRx_eq]
    rfl) (fun h => by cases h)

theorem follows_sent (r : Rate) (b : Byte) : Follows s (sent r b s) :=
  ⟨.transmit r b rfl, Nat.le_succ _, fun _ => rfl⟩

theorem follows_slotEcho (e : Byte) : Follows s (slotEcho e (received s)) := follows_received rfl fun _ => rfl

theorem follows_passEcho (alarm : State → Bool) (e : Byte) : Follows s (passEcho alarm e (received s)) := by
  obtain ⟨q, -, hw, -, -, -, h | h | h⟩ := passEcho_either alarm e (received s) <;> rw [h] <;>
    exact follows_received rfl fun _ => hw

theorem follows_slots {n : Nat} {byteAt : State → Nat → Byte} {finish : State → State} {c : Command}
    (hb : c.boundary = slotBoundary n byteAt finish) (he : c.onEcho = slotEcho) (hn : c.onError = noErrorWrites)
    (hfin : Follows s (finish s)) : Follows s (c.turn s) :=
  slotTurn_keeps hb he hn (fun _ => follows_fault noErrorWrites_worldFree) (fun _ => follows_slotEcho)
    (fun _ _ => follows_sent _ _) (fun _ _ => follows_raise _) (fun _ _ => hfin)

theorem follows_passFinish (o : PassOutcome) : Follows s (passFinish o s) := by
  cases o <;> exact follows_ended rfl rfl

theorem follows_nextFinish (o : PassOutcome) : Follows s (nextFinish o s) := by
  cases o with
  | noPresence => exact follows_ended rfl rfl
  | noResponse => exact follows_ended rfl rfl
  | violation => exact follows_ended rfl rfl
  | valid =>
    unfold nextFinish deliver
    dsimp only
    split <;> exact follows_ended rfl rfl
  | crcBad =>
    unfold nextFinish nextRetry
    dsimp only
    split
    · exact follows_ended rfl rfl
    · exact follows_quiet rfl fun _ => rfl

/-- The transmit of the reset round trip of a pass that begins. -/
theorem follows_passReset {onError f : State → State} (ho : WorldFree onError) (hf : WorldFree f)
    (hr : (f s).status = s.status) (hl : (f s).seq.cmdw = s.seq.cmdw) (r : Rate) (b : Byte) :
    Follows s (startRoundTrip onError r b (f s)) := by
  refine startRoundTrip_keeps (P := Follows s) ⟨.transmit r b ?_, ?_, fun _ => hl⟩ (follows_ended ?_ rfl)
  · show (f s).world.events ++ rateEvents (f s).status.rate r ++ [.tx b] = _
    rw [hf.world, hr]
  · show _ ≤ (f s).world.answers.length + 1
    rw [hf.world]
    exact Nat.le_succ _
  · show (onError (f s)).world = _
    rw [ho.world, hf.world]

theorem follows_nextFirst : Follows s (nextFirst s) := by
  unfold nextFirst
  split
  · exact follows_passReset (f := fun s => beginPass (clearResult s)) closeSession_worldFree (fun _ _ => rfl) rfl rfl _ _
  · exact follows_ended rfl rfl

/-- One turn of any command. -/
theorem wordTurn_follows (w : Word) (s : State) : Follows s (wordTurn w s) := by
  unfold wordTurn
  cases decode w with
  | illegal _ => exact follows_raise _
  | legal i =>
    cases i with
    | owReset =>
      exact resetTurn_keeps (P := Follows s) (fun _ => follows_fault noErrorWrites_worldFree)
        (fun _ _ => follows_received rfl fun _ => rfl) (fun _ => follows_sent _ _) (fun _ => follows_raise _)
        (fun _ => follows_succeed)
    | owWrbit b =>
      exact follows_slots (n := 1) (byteAt := fun _ _ => slotByte b) rfl rfl rfl follows_succeed
    | owRdbit => exact follows_slots rfl rfl rfl (follows_ended rfl rfl)
    | owWrbits n => exact follows_slots rfl rfl rfl follows_succeed
    | owRdbits n => exact follows_slots rfl rfl rfl (follows_ended rfl rfl)
    | owWrbyte =>
      show Follows s (wrbyteCommand.turn s)
      rcases wrbyteTurn_either s with ⟨-, -, -, h⟩ | h <;> rw [h]
      · exact follows_raise _
      · exact follows_slots rfl rfl rfl follows_succeed
    | owRdbyte => exact follows_slots rfl rfl rfl (follows_ended rfl rfl)
    | crcClr => exact follows_ended rfl rfl
    | crcBit b => exact follows_ended rfl rfl
    | crcBits n => exact follows_ended rfl rfl
    | srchBegin a => exact follows_ended rfl rfl
    | abort => exact follows_quiet rfl fun _ => rfl
    | srchPass a =>
      exact passTurn_keeps (P := Follows s) (srchPass_runsPass a s.sstat)
        (fun _ => follows_fault (onError := passErrorWrites) fun _ _ => rfl) (fun _ => follows_passEcho _)
        (fun _ => follows_sent) (fun _ => follows_raise _)
        (fun _ _ => follows_passReset (onError := passErrorWrites) (f := beginPass) (fun _ _ => rfl) (fun _ _ => rfl)
          rfl rfl .reset resetByte) (fun o _ _ => follows_passFinish o)
    | srchNext =>
      exact passTurn_keeps (P := Follows s) (srchNext_runsPass s.sstat)
        (fun _ => follows_fault closeSession_worldFree) (fun _ => follows_passEcho _) (fun _ => follows_sent)
        (fun _ => follows_ended rfl rfl) (fun _ _ => follows_nextFirst) (fun o _ _ => follows_nextFinish o)

/-- Where the answers to come are given, turns see neither the record of reads nor the count of draws. -/
theorem runTurns_setRecord (w : Word) (n : Nat) (s : State) (h : n ≤ s.world.answers.length)
    (l : List (BitVec 8 × Word)) (d : Nat) :
    runTurns (wordTurn w) n (changed (fun v => v.setRecord l d) s) =
      changed (fun v => v.setRecord l d) (runTurns (wordTurn w) n s) := by
  induction n generalizing s with
  | zero => rfl
  | succ n ih =>
    cases hp : s.seq.phase with
    | idle => rw [runTurns_idle _ _ hp, runTurns_idle _ _ (by exact hp)]
    | run =>
      have hne : s.world.answers ≠ [] := by
        intro h0
        rw [h0] at h
        exact absurd h (by simp)
      have hlen := (wordTurn_follows w s).answers
      rw [runTurns_succ _ _ hp, runTurns_succ _ _ (by exact hp), wordTurn_changed (unseen_setRecord hne l d),
        ih _ (by omega)]

/-- Many turns take at most as many answers, and leave the latched word of a command that is still running. -/
theorem runTurns_follows (w : Word) (n : Nat) (s : State) :
    s.world.answers.length ≤ (runTurns (wordTurn w) n s).world.answers.length + n ∧
      ((runTurns (wordTurn w) n s).seq.phase = .run → (runTurns (wordTurn w) n s).seq.cmdw = s.seq.cmdw) := by
  induction n generalizing s with
  | zero => exact ⟨Nat.le_refl _, fun _ => rfl⟩
  | succ n ih =>
    cases hp : s.seq.phase with
    | idle => rw [runTurns_idle _ _ hp]; exact ⟨by omega, fun _ => rfl⟩
    | run =>
      rw [runTurns_succ _ _ hp]
      obtain ⟨-, h1, h2⟩ := wordTurn_follows w s
      obtain ⟨h3, h4⟩ := ih (wordTurn w s)
      refine ⟨by omega, fun hr => (h4 hr).trans (h2 ?_)⟩
      cases hq : (wordTurn w s).seq.phase with
      | run => rfl
      | idle => rw [runTurns_idle _ _ hq, hq] at hr; cases hr

/-- A step of turns, in either phase: they are taken, and the schedule goes on. -/
theorem step_turns_eq {n : Nat} {rest : List Move} (hm : s.world.moves = .turns n :: rest)
    (ha : s.seq.phase = .run → decode s.seq.cmdw ≠ .legal .abort) :
    step s = .next (changed (fun v => v.setMoves rest) (runTurns (wordTurn s.seq.cmdw) n s)) := by
  have hgranted : granted s = changed (fun v => v.setMoves rest) s := by
    unfold granted World.useGrant
    rw [hm]
    rfl
  rw [step_turns hm]
  cases hp : s.seq.phase with
  | idle =>
    rw [runTurns_idle _ _ hp, ← hgranted]
    unfold sequencerStep
    rw [hp]
    rfl
  | run =>
    rw [sequencerStep_run hp (ha hp), hgranted, runTurns_setMoves]
    unfold World.grant
    rw [hm]

/-- Turns after turns, in the state the first have left under any schedule and record: they are turns of the same word. -/
theorem runTurns_runTurns {t : State} {m n : Nat} (ht : t.seq = (runTurns (wordTurn s.seq.cmdw) m s).seq) :
    runTurns (wordTurn t.seq.cmdw) n t = runTurns (wordTurn s.seq.cmdw) n t := by
  cases hp : t.seq.phase with
  | idle => rw [runTurns_idle _ _ hp, runTurns_idle _ _ hp]
  | run => rw [ht, (runTurns_follows s.seq.cmdw m s).2 (ht ▸ hp)]

/-! ### Block reset inside a turn -/

/-- What a turn leaves of the history where block reset cuts it before its transmit: a rate change or nothing. -/
theorem untilTransmit_either (l : List SerialEvent) :
    (∃ r b rest, l = .setRate r :: .tx b :: rest ∧ untilTransmit l = [.setRate r]) ∨ untilTransmit l = [] := by
  unfold untilTransmit
  split
  · exact .inl ⟨_, _, _, rfl, rfl⟩
  · exact .inr rfl
  all_goals exact .inr rfl

/-- A step of that reset is a block reset on a history that one rate change may have been added to. -/
theorem step_blockResetAfterRate {rest : List Move} (hm : s.world.moves = .blockResetAfterRate :: rest) :
    ∃ l, (l = [] ∨ ∃ r, l = [.setRate r]) ∧
      step s = .next (blockReset (inWorld s { s.world with moves := rest, events := s.world.events ++ l })) := by
  unfold step scheduledStep
  rw [hm]
  dsimp only [resetWithinTurn]
  obtain ⟨t, ht⟩ := sequencerStep_isNext { s with world := { s.world with moves := [] } }
  rw [ht]
  refine ⟨_, ?_, rfl⟩
  rcases untilTransmit_either (t.world.events.drop s.world.events.length) with ⟨r, -, -, -, h⟩ | h
  · exact .inr ⟨r, h⟩
  · exact .inl h

end Sys2Proof.Machine
end

