-- ==== Sys2Proof/Tests/Slice0.lean ====
section
/-! SUPPORT. Small tests, their expected values from spec/95_test_vectors.md and the examples of the rules, and the
witnesses: for each obligation with hypotheses, a concrete input that meets them. -/

namespace Sys2Proof.Tests

open Sys2Proof Sys2Proof.Machine

/-! ### Helpers -/

/-- The block after reset, with turns for its next command and scripted answers. -/
def bench (turns : Nat) (answers : List (List Byte)) : State :=
  { State.reset with world := { World.reset with moves := [.turns turns], answers := answers } }

/-- The block running the command of word `w`, between two round trips or in one. -/
def running (w : Word) (q : Sequencer) (turns : Nat) (answers : List (List Byte)) : State :=
  { bench turns answers with cmd := w, seq := { q with phase := .run, cmdw := w } }

/-- The block after reset with the host's next access. -/
def hosted (a : HostAccess) : State := { State.reset with world := { World.reset with moves := [.host a] } }

/-- The block running a command of word `w` with the host's next access. -/
def hostedBusy (w : Word) (a : HostAccess) : State :=
  { hosted a with cmd := w, seq := { Sequencer.idle with phase := .run, cmdw := w } }

/-- The outcome is a next state of which `p` holds. -/
def thenState (o : Host.Outcome State Fault Refusal) (p : State → Bool) : Bool :=
  match o with
  | .next t => p t
  | .fault _ => false
  | .refused _ => false

/-- The bytes a history sent. -/
def sentBytes (h : List SerialEvent) : List Byte :=
  h.filterMap fun e => match e with
    | .tx b => some b
    | .setRate _ => none
    | .rx _ => none

/-- ID2b, a ROM ID of L1-9. -/
def id2b : DWord := 0x2b0000047ff88528#64

/-! ### Well-formedness: the one check, on each instruction it covers -/

theorem test_wf_refuses_wrbits_65 : ¬WellFormed (.owWrbits 65) := by decide
theorem test_wf_refuses_rdbits_65 : ¬WellFormed (.owRdbits 65) := by decide
theorem test_wf_refuses_crcbits_65 : ¬WellFormed (.crcBits 65) := by decide
theorem test_wf_admits_0_and_64 : WellFormed (.owWrbits 0) ∧ WellFormed (.owRdbits 64) ∧ WellFormed (.crcBits 64) := by
  decide

/-! ### Decoding (L2-D1, L2-D2, 30_encoding.md R96) -/

theorem test_opcodes_distinct : (opcodeMap.map Prod.fst).Nodup ∧ (opcodeMap.map Prod.snd).Nodup := by decide

theorem test_decode_codec : decode 0x00000001#32 = .legal .owReset ∧ decode 0x00000002#32 = .legal (.owWrbit false)
    ∧ decode 0x00010002#32 = .legal (.owWrbit true) ∧ decode 0x00000003#32 = .legal .owRdbit
    ∧ decode 0x00004004#32 = .legal (.owWrbits 64) ∧ decode 0x00000305#32 = .legal (.owRdbits 3)
    ∧ decode 0x00000006#32 = .legal .owWrbyte ∧ decode 0x00000007#32 = .legal .owRdbyte := by decide

theorem test_decode_rest : decode 0x00000010#32 = .legal .crcClr ∧ decode 0x00010011#32 = .legal (.crcBit true)
    ∧ decode 0x00003812#32 = .legal (.crcBits 56) ∧ decode 0x00020020#32 = .legal (.srchBegin true)
    ∧ decode 0x00000021#32 = .legal (.srchPass false) ∧ decode 0x00000022#32 = .legal .srchNext
    ∧ decode 0x0000003F#32 = .legal .abort ∧ decode 0xFFFFFF3F#32 = .legal .abort := by decide

theorem test_decode_rejects : decode 0x00000000#32 = .illegal .reservedOpcode
    ∧ decode 0x00000140#32 = .illegal .reservedOpcode ∧ decode 0x00000101#32 = .illegal .unusedCount
    ∧ decode 0x00004104#32 = .illegal .countTooLarge ∧ decode 0x00008001#32 = .illegal .reservedBits
    ∧ decode 0x80000007#32 = .illegal .reservedBits ∧ decode 0x00010003#32 = .illegal .unusedBit
    ∧ decode 0x00020002#32 = .illegal .unusedAlarm := by decide

theorem test_decode_bytes : decodeBytes [0x04#8, 0x08#8, 0x00#8, 0x00#8] = .legal (.owWrbits 8)
    ∧ decodeTableWord 32 0x00000804 = some (.owWrbits 8) := by decide

/-! ### The Signal Codec (L2-C1 to L2-C5) -/

theorem test_reset_presence : thenState (exec .owReset (bench 3 [[0xEF#8]])) (fun t =>
    regValue t .status == 0x00000010#32 && t.world.events == [.setRate .reset, .tx 0xF0#8, .rx [0xEF#8]]) := by decide

theorem test_reset_no_presence_at_f0 : thenState (exec .owReset (bench 3 [[0xF0#8]])) (fun t =>
    regValue t .status == 0x00000000#32) := by decide

theorem test_wrbit_pulled_low : thenState (exec (.owWrbit true) (bench 3 [[0x00#8]])) (fun t =>
    regValue t .status == 0x00000040#32 && sentBytes t.world.events == [0xFF#8]) := by decide

theorem test_rdbit_fe_is_0 : thenState (exec .owRdbit (bench 3 [[0xFE#8]])) (fun t =>
    t.rx == 0#64 && regValue t .status == 0x00000040#32) := by decide

theorem test_rdbit_empty_keeps_rate_change : thenState (exec .owRdbit (bench 3 [[]])) (fun t =>
    regValue t .status == 0x00000142#32) := by decide

theorem test_wrbits_low_bit_first : thenState (exec (.owWrbits 4) { bench 9 [[0xFF#8], [0x00#8], [0xFF#8], [0x00#8]] with
    data := 0x5#64 }) (fun t => sentBytes t.world.events == [0xFF#8, 0x00#8, 0xFF#8, 0x00#8]) := by decide

theorem test_rdbits_low_bit_first : thenState (exec (.owRdbits 3) (bench 7 [[0xFF#8], [0x00#8], [0xFF#8]])) (fun t =>
    t.rx == 0x5#64) := by decide

theorem test_rdbits_fault_keeps_rx : thenState (exec (.owRdbits 4) { bench 9 [[0xFF#8], []] with rx := 0x77#64 })
    (fun t => t.rx == 0x77#64 && regValue t .status == 0x00000162#32) := by decide

theorem test_wrbyte_cc : thenState (exec .owWrbyte { bench 17 (List.replicate 8 [0xFF#8]) with data := 0xCC#64 })
    (fun t => sentBytes t.world.events ==
      [0x00#8, 0x00#8, 0xFF#8, 0xFF#8, 0x00#8, 0x00#8, 0xFF#8, 0xFF#8]) := by decide

theorem test_wrbyte_bit_32 : thenState (exec .owWrbyte { bench 17 [] with data := 0x100000000#64 })
    (fun t => regValue t .status == 0x00000202#32 && sentBytes t.world.events == []) := by decide

theorem test_rdbyte_1e : thenState (exec .owRdbyte (bench 17
    [[0x00#8], [0xFF#8], [0xFF#8], [0xFF#8], [0xFF#8], [0x00#8], [0x00#8], [0x00#8]])) (fun t => t.rx == 0x1E#64) := by
  decide

/-! ### The CRC-8 Engine (L2-R1, L2-R3, 41_crc8.md R157) -/

theorem test_upd : upd 0x00#8 true = 0x8C#8 ∧ upd 0x01#8 true = 0x00#8 ∧ upd 0x80#8 false = 0x40#8
    ∧ upd 0xFF#8 false = 0xF3#8 ∧ upd 0xFF#8 true = 0x7F#8 := by decide

theorem test_crcclr : thenState (exec .crcClr { bench 1 [] with crc := 0x5A#8 }) (fun t => t.crc == 0x00#8) := by decide

theorem test_crcbit : thenState (exec (.crcBit true) { bench 1 [] with crc := 0x80#8 }) (fun t => t.crc == 0xCC#8) := by
  decide

theorem test_crcbits_56 : thenState (exec (.crcBits 56) { bench 1 [] with data := id2b }) (fun t => t.crc == 0x2B#8) := by
  decide +kernel

theorem test_crcbits_0 : thenState (exec (.crcBits 0) { bench 1 [] with crc := 0x5A#8, data := id2b })
    (fun t => t.crc == 0x5A#8) := by decide

/-! ### The Search Engine (L2-S1, L2-S4, L2-S7, 42_search.md R177) -/

theorem test_resolve : resolve 5 0x0#64 = (true, 0x20#64) ∧ resolve 5 0x20#64 = (false, 0x0#64)
    ∧ resolve 5 0x220#64 = (true, 0x220#64) ∧ resolve 5 0x200#64 = (false, 0x200#64)
    ∧ resolve 63 0x8000000000000000#64 = (false, 0x0#64) := by decide

theorem test_srchbegin_alarm : thenState (exec (.srchBegin true) { bench 1 [] with mask := 0x1234#64 }) (fun t =>
    regValue t .sstat == 0x00000005#32 && t.mask == 0#64) := by decide

/-- The answers of L2-S4's violation: presence, the command byte, then nobody at position 0. -/
def violationAnswers : List (List Byte) :=
  [0xE0#8] :: List.replicate 4 [0x00#8] ++ List.replicate 4 [0xFF#8] ++ [[0xFF#8], [0xFF#8]]

theorem test_srchpass_violation : thenState (exec (.srchPass false) { bench 23 violationAnswers with mask := 0x1234#64 })
    (fun t => regValue t .status == 0x00000372#32 && regValue t .sstat == 0x00000050#32 && t.nmask == 0x1234#64) := by
  decide

theorem test_srchpass_no_presence : thenState (exec (.srchPass false) { bench 3 [[0xF0#8]] with mask := 0x8100#64 })
    (fun t => regValue t .sstat == 0x00000010#32 && t.nmask == 0x8100#64 && t.cand == 0#64) := by decide

/-- L2-S5: the block after the last ID of L1-9, of which SRCH.NEXT keeps SSTAT 0x2A. RETRIES 3 is put in. -/
theorem test_srchnext_no_session : thenState (exec .srchNext { bench 1 [] with
      status := { Status.reset with presence := true, rate := .slot }
      sstat := { SStat.zero with done := true, idv := true, pout := some .valid }, retries := 3#32 }) (fun t =>
    regValue t .status == 0x00000652#32 && regValue t .sstat == 0x0000002A#32 && t.retries == 3#32) := by decide

/-- A block with an open session. -/
def session (turns : Nat) (answers : List (List Byte)) : State :=
  { bench turns answers with sstat := { SStat.zero with active := true } }

/-- The answers of a bus with one device, of ROM ID `id` (L2-S2). -/
def responder (id : DWord) : List (List Byte) :=
  [0xE0#8] :: List.replicate 8 [0xFF#8] ++ (List.range 64).flatMap fun p =>
    [[slotByte (id.getLsbD p)], [slotByte (!id.getLsbD p)], [slotByte (id.getLsbD p)]]

theorem test_srchnext_finds_the_one_device : thenState (exec .srchNext (session 403 (responder id2b))) (fun t =>
    t.romid == id2b && t.idcount == 1#32 && regValue t .sstat == 0x0000002A#32) := by decide +kernel

theorem test_srchnext_violation_at_3 : thenState (exec .srchNext (session 41
    ([0xE0#8] :: List.replicate 4 [0x00#8] ++ List.replicate 4 [0xFF#8]
      ++ [[0x00#8], [0xFF#8], [0x00#8], [0x00#8], [0xFF#8], [0x00#8], [0x00#8], [0xFF#8], [0x00#8], [0xFF#8], [0xFF#8]])))
    (fun t => regValue t .status == 0x00000372#32 && regValue t .sstat == 0x00030050#32 && t.cand == 0#64) := by decide

/-! ### Control and the register window (43_control.md R190, L2-K2 to L2-K4) -/

theorem test_abort_idle : exec .abort (bench 1 []) = .next (bench 1 []) := rfl

theorem test_abort_keeps_cmd : thenState (exec .abort (running 0x22#32 Sequencer.idle 1 [])) (fun t =>
    t.seq.abortReq && t.cmd == 0x22#32 && !t.status.ovr) := by decide

theorem test_status_w1c : (Status.clearSticky 0x00000004#32 { Status.reset with
    errcode := .invalidByte, err := true, adv := true, ovr := true }).word false = 0x0000020A#32 := by decide

theorem test_overrun : thenState (step (hostedBusy 0x01#32 (.write 0x08#8 4 5#32))) (fun t =>
    t.data == 0#64 && t.status.ovr) := by decide

theorem test_idr_read : thenState (step (hosted (.read 0x50#8 4))) (fun t =>
    t.world.reads == [(0x50#8, 0x4F570001#32)]) := by decide

theorem test_crc_write : thenState (step (hosted (.write 0x18#8 4 0x000001FF#32))) (fun t => t.crc == 0xFF#8) := by
  decide

theorem test_misaligned_refused : step (hosted (.read 0x02#8 4)) = .refused .hostAccessForm := rfl

/-- R79: the wired-AND double with one device answers a reset round trip with its presence echo. -/
theorem test_wired_and_presence :
    (coupledRun WiredAnd.reply 4
      (WiredAnd.initial [⟨id2b, false⟩], { State.reset with world := { World.reset with
        moves := [cmdWrite 0x01#32, .turns 1, .turns 1, .turns 1] } })).2.status.presence = true := by decide

/-- The host begins a session, its first SRCH.NEXT takes three turns, and then the host reads. -/
def oneRound : List Actor :=
  [.host, .other (.turns 1), .host, .host, .other (.turns 1), .other (.turns 1), .other (.turns 1), .host, .host, .host]

/-- R182 on the wired-AND double with no device: `search()` gives no ID and no error (L1-5). -/
theorem test_search_of_empty_bus :
    let h := (systemRun (coupledStep WiredAnd.reply) oneRound (HostRun.start (pseudoSearch false))
      (WiredAnd.initial [], State.reset)).1
    h.todo = [] ∧ h.ids = [] ∧ h.error = none := by decide +kernel

/-- R182 on a silent line: `search()` ends with WIRING_FAULT. -/
theorem test_search_of_silent_line :
    let h := (systemRun (coupledStep silentReply) oneRound (HostRun.start (pseudoSearch false)) ((), State.reset)).1
    h.todo = [] ∧ h.ids = [] ∧ h.error = some 1#4 := by decide +kernel

/-- 40_signal_codec.md R125: a width of 0 is still one OW.WRBITS, and DATA holds the whole value. -/
theorem test_write_int_of_width_0 : pseudoWriteInt 0xFFFFFFFFFFFFFFFF#64 0 =
    [.sw .dataLo 0xFFFFFFFF#32, .sw .dataHi 0xFFFFFFFF#32, .cmd (.owWrbits 0), .wait] := by decide

/-- 70_reset_and_hazards.md R240: a reset between the rate change and the transmit of a slot. -/
theorem test_reset_before_transmit : thenState (step { running 0x03#32 Sequencer.idle 1 [] with
      world := { World.reset with moves := [.blockResetAfterRate] } }) (fun t =>
    t.world.events == [.setRate .reset, .setRate .slot, .setRate .reset] && !t.busy) := by decide

theorem test_fetch_runs_crcbit : thenState (step ({ State.reset with crc := 0x80#8 }.withFetchWord 32 0x00010011))
    (fun t => t.crc == 0xCC#8 && t.cmd == 0x00010011#32 && !t.busy) := by decide

/-! ### Witnesses: an input that meets the hypotheses of each obligation -/

theorem witness_DecodeOfEncode : WellFormed (.owWrbits 0) ∧ WellFormed (.crcBits 64) ∧ WellFormed (.srchPass true) := by
  decide

theorem witness_DecodedCommand : decode 0x00004005#32 = .legal (.owRdbits 64) := by decide

theorem witness_ResetCommand : readyIdle (bench 3 [[0xE0#8]]) 3 ∧ answered (bench 3 [[0xE0#8]]).world 1 := by
  unfold readyIdle answered; decide

theorem witness_WriteBit : readyIdle (bench 3 [[0x00#8]]) 3 ∧ answered (bench 3 [[0x00#8]]).world 1 := by
  unfold readyIdle answered; decide

theorem witness_WriteBits : (0 ≤ 64 ∧ readyIdle (bench 1 []) (2 * 0 + 1) ∧ answered (bench 1 []).world 0) ∧
    (64 ≤ 64 ∧ readyIdle (bench 129 (List.replicate 64 [0xFF#8])) (2 * 64 + 1)
      ∧ answered (bench 129 (List.replicate 64 [0xFF#8])).world 64) := by
  unfold readyIdle answered; decide

/-- DATA 255 and DATA 256. -/
def byteBench (data : DWord) : State := { bench 17 (List.replicate 8 [0xFF#8]) with data := data }

theorem witness_WriteByte : (byteBench 255#64).data.toNat ≤ 255 ∧ readyIdle (byteBench 255#64) 17
    ∧ answered (byteBench 255#64).world 8 := by
  unfold readyIdle answered; decide

theorem witness_WriteByteRefuses : 255 < (byteBench 256#64).data.toNat ∧ readyIdle (byteBench 256#64) 1 := by
  unfold readyIdle; decide

theorem witness_ReadCommands : (readyIdle (bench 3 [[0xFF#8]]) 3 ∧ answered (bench 3 [[0xFF#8]]).world 1) ∧
    (64 ≤ 64 ∧ readyIdle (bench 129 (List.replicate 64 [0xFE#8])) (2 * 64 + 1)
      ∧ answered (bench 129 (List.replicate 64 [0xFE#8])).world 64) ∧
    (readyIdle (byteBench 0#64) 17 ∧ answered (byteBench 0#64).world 8) := by
  unfold readyIdle answered; decide

theorem witness_ByteCommands : (byteBench 255#64).data.toNat ≤ 255 ∧ (byteBench 255#64).seq.phase = .idle := by decide

theorem witness_EmptyReceiveEndsMultiSlot : (2 ≤ 64 ∧ 1 < 2 ∧ readyIdle (bench 4 [[0xFF#8], []]) (2 * 1 + 2)
      ∧ answered (bench 4 [[0xFF#8], []]).world 1 ∧ (bench 4 [[0xFF#8], []]).world.answer 1 = []) ∧
    (64 ≤ 64 ∧ 0 < 64 ∧ readyIdle (bench 2 [[]]) (2 * 0 + 2) ∧ answered (bench 2 [[]]).world 0
      ∧ (bench 2 [[]]).world.answer 0 = []) ∧
    (readyIdle (bench 2 [[]]) 2 ∧ (bench 2 [[]]).world.answer 0 = []) := by
  unfold readyIdle answered; decide

theorem witness_CrcCommands : readyIdle (bench 1 []) 1 := by unfold readyIdle; decide

theorem witness_IdWithChecksum : id2b.extractLsb' 56 8 = updN 0x00#8 id2b 56 := by decide +kernel

theorem witness_CrcDetects : 63 < 64 ∧ romCrc id2b = 0x00#8 := by decide +kernel

/-- The four branches of Resolve, at positions 0 and 63. -/
theorem witness_Resolve :
    ((0x8000000000000000#64).getLsbD 63 = true ∧ ∀ k, 63 < k → k < 64 → (0x8000000000000000#64).getLsbD k = false) ∧
    ((0x3#64).getLsbD 0 = true ∧ ¬∀ k, 0 < k → k < 64 → (0x3#64).getLsbD k = false) ∧
    ((0x0#64).getLsbD 63 = false ∧ ∀ k, 63 < k → k < 64 → (0x0#64).getLsbD k = false) ∧
    ((0x2#64).getLsbD 0 = false ∧ ¬∀ k, 0 < k → k < 64 → (0x2#64).getLsbD k = false) := by
  refine ⟨⟨by decide, fun k h1 h2 => by omega⟩, ⟨by decide, fun h => ?_⟩, ⟨by decide, fun k h1 h2 => by omega⟩,
    ⟨by decide, fun h => ?_⟩⟩
  · exact absurd (h 1 (by omega) (by omega)) (by decide)
  · exact absurd (h 1 (by omega) (by omega)) (by decide)

theorem witness_SearchBegin : readyIdle (bench 1 []) 1 := by unfold readyIdle; decide

/-- A bus held low: every echo 0x00. -/
def shorted : List (List Byte) := List.replicate 201 [0x00#8]

theorem witness_SearchPass_violation : (nextPass false (bench 23 violationAnswers)).outcome = .violation
    ∧ readyIdle (bench 23 violationAnswers) (2 * (nextPass false (bench 23 violationAnswers)).trips + 1)
    ∧ answered (bench 23 violationAnswers).world (nextPass false (bench 23 violationAnswers)).trips := by
  unfold readyIdle answered; decide

theorem witness_SearchPass_shorted : (nextPass true (bench 403 shorted)).trips = 201
    ∧ readyIdle (bench 403 shorted) (2 * 201 + 1) ∧ answered (bench 403 shorted).world 201 := by
  unfold readyIdle answered; decide +kernel

/-- Nobody answers position 2: the first (1,1) pair. -/
def silentAtTwo (k : Nat) : Bool := decide (15 ≤ k) || k % 3 == 0

theorem witness_SilentPair : 2 < 64 ∧ (∀ j, j < 2 → ¬(silentAtTwo (9 + 3 * j) = true ∧ silentAtTwo (10 + 3 * j) = true)) ∧
    silentAtTwo (9 + 3 * 2) = true ∧ silentAtTwo (10 + 3 * 2) = true := by decide

/-- A pass that ends VALID, its new mask 0 and not 0. -/
theorem witness_SearchNext_valid :
    ((nextPass false (session 403 (responder id2b))).outcome = .valid
      ∧ (nextPass false (session 403 (responder id2b))).mask = 0#64
      ∧ (nextPass false (session 403 (responder id2b))).trips = 201) ∧
    ((nextPass false { session 403 (responder id2b) with mask := 0x8100#64 }).outcome = .valid
      ∧ (nextPass false { session 403 (responder id2b) with mask := 0x8100#64 }).mask = 0x8100#64) ∧
    readyIdle (session 403 (responder id2b)) (2 * 201 + 1) ∧ answered (session 403 (responder id2b)).world 201 := by
  unfold readyIdle answered; decide +kernel

theorem witness_SearchNext : (session 3 [[0xF0#8]]).sstat.active = true
    ∧ (nextPass false (session 3 [[0xF0#8]])).outcome = .noPresence
    ∧ readyIdle (session 3 [[0xF0#8]]) (2 * (nextPass false (session 3 [[0xF0#8]])).trips + 1)
    ∧ answered (session 3 [[0xF0#8]]).world (nextPass false (session 3 [[0xF0#8]])).trips := by
  unfold readyIdle answered; decide

theorem witness_SearchNextNeedsSession : (bench 1 []).sstat.active = false ∧ readyIdle (bench 1 []) 1 := by
  unfold readyIdle; decide

theorem witness_FirstBadPass : (session 403 shorted).seq.phase = .idle ∧ (session 403 shorted).sstat.active = true
    ∧ (session 403 shorted).world.grant = 2 * (nextPass false (session 403 shorted)).trips + 1
    ∧ answered (session 403 shorted).world 201 ∧ (nextPass false (session 403 shorted)).trips = 201
    ∧ (nextPass false (session 403 shorted)).outcome = .crcBad := by
  unfold answered; decide +kernel

/-- SRCH.NEXT on a shorted bus as its second pass begins. -/
def retrying (limit retries : Word) : State :=
  { running 0x22#32 { Sequencer.idle with stage := .passReset, index := 201 } 403 shorted with
    sstat := { SStat.zero with active := true }, retryLimit := limit, retries := retries }

theorem witness_BadChecksum_begun : (retrying 1#32 1#32).seq.passBegun (retrying 1#32 1#32).mask
    ∧ answered (retrying 1#32 1#32).world 201 := by
  unfold Sequencer.passBegun Sequencer.between answered; decide +kernel

theorem witness_BadChecksum_pass : (nextPass false (retrying 1#32 1#32)).outcome = .crcBad
    ∧ (retrying 1#32 1#32).world.grant = 2 * (nextPass false (retrying 1#32 1#32)).trips + 1 := by decide +kernel

theorem witness_BadChecksum_clauses : ((1#32 : Word) ≠ 0#32 ∧ (1#32 : Word).toNat < (1#32 + 1#32 : Word).toNat) ∧
    ¬((2#32 : Word) ≠ 0#32 ∧ (2#32 : Word).toNat < (1#32 + 1#32 : Word).toNat) ∧
    ¬((0xFFFFFFFF#32 : Word) ≠ 0#32 ∧ (0xFFFFFFFF#32 : Word).toNat < (0xFFFFFFFF#32 : Word).toNat) := by decide

/-- L2-S7, transient: the second pass of a SRCH.NEXT finds the one device. -/
def secondPassFinds : State :=
  { retrying 0#32 1#32 with world := { World.reset with moves := [.turns 403], answers := responder id2b } }

theorem witness_SearchNext_second_pass : secondPassFinds.seq.passBegun secondPassFinds.mask
    ∧ 2 * (nextPass false secondPassFinds).trips + 1 ≤ secondPassFinds.world.grant
    ∧ (nextPass false secondPassFinds).trips = 201 ∧ answered secondPassFinds.world 201
    ∧ (nextPass false secondPassFinds).outcome = .valid := by
  unfold Sequencer.passBegun Sequencer.between answered; decide +kernel

theorem test_srchnext_second_pass : thenState (exec .srchNext secondPassFinds) (fun t =>
    t.romid == id2b && t.retries == 1#32 && regValue t .sstat == 0x0000002A#32) := by decide +kernel

theorem witness_FailedSearchNext : thenState (exec .srchNext (session 2 [[]])) (fun t =>
    t.seq.phase == .idle && t.status.errcode != .ok) := by decide

/-- One responder whose ID is 1. -/
def oneResponder (k : Nat) : Bool :=
  if k % 3 = 0 then decide ((k - 9) / 3 = 0) else k % 3 == 1 && decide ((k - 10) / 3 ≠ 0)

theorem witness_SingleResponder : ∀ p, p < 64 →
    oneResponder (9 + 3 * p) = (1#64).getLsbD p ∧ oneResponder (10 + 3 * p) = !(1#64).getLsbD p := by decide

/-- Two devices, 0 and 1, from mask 0: they differ at position 0, where the pass selects 1. -/
def twoDevices (k : Nat) : Bool := k % 3 == 1 && decide (10 < k)

theorem witness_StaticBus : [0#64, 1#64] ≠ [] ∧ (passOf false 0#64 true twoDevices).cand = 1#64 ∧ ∀ p, p < 64 →
    twoDevices (9 + 3 * p) = (agreeing [0#64, 1#64] 1#64 p).all (fun d => d.getLsbD p) ∧
    twoDevices (10 + 3 * p) = (agreeing [0#64, 1#64] 1#64 p).all (fun d => !d.getLsbD p) := by
  refine ⟨by decide, by decide, by decide⟩

theorem witness_AbortOnlyRequests : (bench 1 []).seq.phase = .idle
    ∧ (running 0x22#32 Sequencer.idle 1 []).seq.phase = .run ∧ (0xABCDEF3F#32 : Word).toNat % 256 = 0x3F := by decide

/-- A running command with an abort pending. -/
def aborting (w : Word) (q : Sequencer) : State := running w { q with abortReq := true } 1 []

theorem witness_PendingAbort : (aborting 0x04#32 Sequencer.idle).seq.phase = .run
    ∧ (aborting 0x04#32 Sequencer.idle).seq.inFlight = false ∧ (aborting 0x04#32 Sequencer.idle).seq.abortReq = true
    ∧ roundTripNext (.owWrbits 1) (aborting 0x04#32 Sequencer.idle) = true
    ∧ 1 ≤ (aborting 0x04#32 Sequencer.idle).world.grant := by decide

theorem witness_LateAbort : (aborting 0x01#32 { Sequencer.idle with index := 1 }).seq.phase = .run
    ∧ roundTripNext .owReset (aborting 0x01#32 { Sequencer.idle with index := 1 }) = false
    ∧ (aborting 0x01#32 { Sequencer.idle with index := 1 }).world.grant = 1
    ∧ thenState (exec .owReset (running 0x01#32 { Sequencer.idle with index := 1 } 1 [])) (fun t =>
        t.seq.phase == .idle) := by decide

/-- A read slot in flight whose receive brings in `answer`. -/
def inFlight (answer : List Byte) : State := running 0x03#32 { Sequencer.idle with inFlight := true } 1 [answer]

theorem witness_EmptyReceive : hasRoundTrips .owRdbit = true ∧ (inFlight []).seq.phase = .run
    ∧ (inFlight []).seq.inFlight = true ∧ (inFlight []).world.answer 0 = [] ∧ 1 ≤ (inFlight []).world.grant := by decide

theorem witness_ExtraBytes : hasRoundTrips .owRdbit = true ∧ (inFlight [0xFF#8, 0x00#8]).seq.phase = .run
    ∧ (inFlight [0xFF#8, 0x00#8]).seq.inFlight = true ∧ (inFlight [0xFF#8, 0x00#8]).world.grant = 1
    ∧ (inFlight [0xFF#8, 0x00#8]).world.answers = [0xFF#8, 0x00#8] :: [] := by decide

/-- An idle block, and the host's write of a command word. -/
def commanded (w : Word) : State := hosted (.write 0x00#8 4 w)

theorem witness_IdleCommandWrite : (commanded 0x3F#32).seq.phase = .idle
    ∧ (commanded 0x3F#32).world.moves = .host (.write 0x00#8 4 0x3F#32) :: []
    ∧ 1 ≤ ({ (commanded 0x3F#32).world with moves := [] } : World).grant
    ∧ (0x3F#32 : Word).toNat % 256 = 0x3F ∧ illegalWord 0x00004104#32 ∧ ¬illegalWord 0x00004004#32 := by
  unfold illegalWord; decide

theorem witness_StepRuns : (decode 0x01#32 = .legal .owReset ∧ (commanded 0x01#32).seq.phase = .idle
      ∧ (commanded 0x01#32).world.moves = .host (.write 0x00#8 4 0x01#32) :: []) ∧
    (decode 0xFF00003F#32 = .legal .abort
      ∧ (hostedBusy 0x03#32 (.write 0x00#8 4 0xFF00003F#32)).seq.phase = .run) ∧
    (decode (inFlight []).seq.cmdw = .legal .owRdbit ∧ (inFlight []).seq.phase = .run
      ∧ (inFlight []).world.moves = .turns 1 :: []) ∧
    (decode (aborting 0x40#32 Sequencer.idle).seq.cmdw = .illegal .reservedOpcode
      ∧ (aborting 0x40#32 Sequencer.idle).seq.phase = .run
      ∧ (aborting 0x40#32 Sequencer.idle).world.moves = .turns (0 + 1) :: []) := by decide

/-- A read slot in flight, and turns in two steps, with and without a read of STATUS between them. -/
def spread (between : List Move) : State :=
  { inFlight [0xFF#8] with world := { World.reset with
      moves := .turns 1 :: (between ++ [.turns 1]), answers := [[0xFF#8], [0xFF#8]] } }

theorem witness_TurnsMayBeSpread : (Instr.owReset ≠ .abort ∧ (bench 3 []).seq.phase = .idle) ∧
    ((spread []).seq.phase = .run ∧ decode (spread []).seq.cmdw ≠ .legal .abort
      ∧ (spread []).world.moves = .turns 1 :: .turns 1 :: [] ∧ thenState (step (spread [])) (fun _ => true)) ∧
    ((spread [.host (.read 0x04#8 4)]).seq.phase = .run ∧ decode (spread [.host (.read 0x04#8 4)]).seq.cmdw ≠ .legal .abort
      ∧ (0x04#8 : BitVec 8).toNat % 4 = 0 ∧ 1 + 1 ≤ (spread [.host (.read 0x04#8 4)]).world.answers.length
      ∧ (spread [.host (.read 0x04#8 4)]).world.moves = .turns 1 :: .host (.read 0x04#8 4) :: .turns 1 :: []) := by
  decide

theorem witness_Acceptance : decode 0x05#32 ≠ .legal .abort ∧ State.reset.seq.phase = .idle
    ∧ ∀ n, Move.host (.read 0x04#8 4) ≠ .turns n := by
  refine ⟨by decide, rfl, fun n h => by cases h⟩

/-- Each branch: STATUS, ABORT, a writable register, a read-only one, an unmapped offset. -/
theorem witness_WritesWhileBusy : (hostedBusy 0x03#32 (.write 0x04#8 4 0xE#32)).seq.phase = .run
    ∧ (0x04#8 : BitVec 8).toNat % 4 = 0 ∧ (0x3F#32 : Word).toNat % 256 = 0x3F
    ∧ (0x48#8 : BitVec 8).toNat ∈ [0x00, 0x08, 0x0C, 0x18, 0x1C, 0x20, 0x24, 0x48]
    ∧ (0x10#8 : BitVec 8).toNat ∉ [0x00, 0x08, 0x0C, 0x18, 0x1C, 0x20, 0x24, 0x48]
    ∧ (0xFC#8 : BitVec 8).toNat ∉ [0x00, 0x08, 0x0C, 0x18, 0x1C, 0x20, 0x24, 0x48] := by decide

theorem witness_IdleWrites : (hosted (.write 0x0C#8 4 7#32)).seq.phase = .idle ∧ (0x0C#8 : BitVec 8).toNat % 4 = 0
    ∧ (0x0C#8 : BitVec 8) ≠ 0x00#8 ∧ (hosted (.write 0x0C#8 4 7#32)).world.moves = .host (.write 0x0C#8 4 7#32) :: [] := by
  decide

theorem witness_IdleReads : (hosted (.read 0x50#8 4)).seq.phase = .idle ∧ Reg.idr.offset = 0x50#8
    ∧ (hosted (.read 0x50#8 4)).world.moves = .host (.read 0x50#8 4) :: [] ∧ 0x54 ≤ (0x54#8 : BitVec 8).toNat := by decide

theorem witness_BusyReads : (hostedBusy 0x03#32 (.read 0x04#8 4)).seq.phase = .run ∧ (0x04#8 : BitVec 8).toNat % 4 = 0
    ∧ (hostedBusy 0x03#32 (.read 0x04#8 4)).world.moves = .host (.read 0x04#8 4) :: []
    ∧ Reg.dataHi.openWhileBusy = false ∧ 0x54 ≤ (0xFC#8 : BitVec 8).toNat := by decide

theorem witness_StatusWrite : (hosted (.write 0x04#8 4 0xE#32)).world.moves = .host (.write 0x04#8 4 0xE#32) :: []
    ∧ (hostedBusy 0x03#32 (.read 0x04#8 4)).world.moves = .host (.read 0x04#8 4) :: [] := by decide

theorem witness_Unmapped : 0x54 ≤ (0x54#8 : BitVec 8).toNat ∧ (0x54#8 : BitVec 8).toNat % 4 = 0
    ∧ (hosted (.read 0x54#8 4)).world.moves = .host (.read 0x54#8 4) :: []
    ∧ (hosted (.write 0xFC#8 4 1#32)).world.moves = .host (.write 0xFC#8 4 1#32) :: [] := by decide

theorem witness_BlockReset : ({ inFlight [] with world := { World.reset with moves := [.blockReset] } }).world.moves =
    .blockReset :: [] := rfl

/-- A reset inside the first turn of a read slot, which makes a rate change and a transmit, and inside its second, which
makes neither. -/
theorem witness_BlockReset_inside_turn :
    thenState (sequencerStep { running 0x03#32 Sequencer.idle 0 [] with world := { World.reset with moves := [] } })
      (fun t => t.world.events == [.setRate .reset] ++ [.setRate .slot, .tx 0xFF#8]) ∧
    thenState (sequencerStep { inFlight [] with world := { World.reset with moves := [], answers := [[0xFF#8]] } })
      (fun t => t.world.events == [.setRate .reset] ++ [.rx [0xFF#8]]) := by decide

/-- An idle block whose SRCH.NEXT has delivered an ID, the last one where `done`, and one whose command has ended with WIRING_FAULT. -/
def found (done : Bool) : State :=
  { State.reset with romid := id2b, sstat := { SStat.zero with active := !done, done := done, idv := true } }

def afterFault : State := endedWith .wiringFault 0x00000022#32 State.reset

/-- A host in the loop of `search` with an ID found, the last one found, none found, DONE with none, and an error. -/
theorem witness_SearchLoop : (HostRun.start [.searchError]).todo = .searchError :: [] ∧ State.reset.seq.phase = .idle
    ∧ State.reset.status.errcode = .ok ∧ State.reset.sstat.idv = false
    ∧ (∀ done, (found done).seq.phase = .idle ∧ (found done).status.errcode = .ok ∧ (found done).sstat.idv = true
        ∧ (found done).sstat.done = done)
    ∧ (endSession State.reset).seq.phase = .idle ∧ (endSession State.reset).sstat.done = true
    ∧ (endSession State.reset).status.errcode = .ok ∧ (endSession State.reset).sstat.idv = false
    ∧ afterFault.seq.phase = .idle ∧ afterFault.status.errcode ≠ .ok := by decide

theorem witness_Wait : (HostRun.start [.form .wait]).todo = .form .wait :: [] ∧ (inFlight []).seq.phase = .run
    ∧ State.reset.seq.phase ≠ .run := by decide

/-- A turn of a pass that has ended VALID writes its outcome, and so does the whole run of a pass that ends at once. -/
theorem witness_PassCommandsFrame :
    thenState (exec (.srchPass false) (running 0x21#32 { Sequencer.idle with stage := .passEnd .valid, candAcc := id2b } 1 []))
      (fun t => t.cand == id2b && t.seq.phase == .idle) ∧
    thenState (exec (.srchPass false) (bench 3 [[0xF0#8]])) (fun t => t.sstat.pout == some .noPresence) := by decide

/-- The frames: each command named in one answers a next state. -/
theorem witness_Frames : thenState (exec .owRdbyte (byteBench 0#64)) (fun t => t.seq.phase == .idle)
    ∧ thenState (exec (.crcBits 64) (byteBench 0#64)) (fun t => t.seq.phase == .idle)
    ∧ thenState (exec (.srchPass true) (bench 3 [[0xF0#8]])) (fun t => t.seq.phase == .idle)
    ∧ thenState (exec .srchNext (session 3 [[0xF0#8]])) (fun t => t.seq.phase == .idle) := by decide

theorem witness_RxChanges : thenState (exec .owRdbit (bench 3 [[0xFF#8]])) (fun t => t.rx != (bench 3 [[0xFF#8]]).rx) := by
  decide

/-- A block with ERR set, which the host clears. -/
def erred : State := { hosted (.write 0x04#8 4 0x2#32) with status := { Status.reset with err := true } }

theorem witness_ErrIsSticky : erred.status.err = true ∧ thenState (step erred) (fun t => t.status.err == false) := by decide

theorem witness_CrcWriters : thenState (step (hosted (.write 0x18#8 4 0x28#32))) (fun t =>
    t.crc != (hosted (.write 0x18#8 4 0x28#32)).crc) := by decide

theorem witness_EventHistory : thenState (step (running 0x01#32 Sequencer.idle 1 [])) (fun t =>
    t.world.events == [.setRate .reset, .tx 0xF0#8]) := by decide

/-- A read slot in flight, with the history that leads to it, meets the invariant. -/
def slotInFlight : State :=
  { inFlight [0xFF#8] with
    status := { Status.reset with rate := .slot }
    world := { (inFlight [0xFF#8]).world with events := [.setRate .reset, .setRate .slot, .tx 0xFF#8] } }

theorem witness_Invariant : slotInFlight.Inv ∧ thenState (step slotInFlight) (fun t => t.seq.acc == 1#64) := by
  refine ⟨⟨by decide, by decide, by decide, ?_, by decide, by decide, ?_, by decide, by decide, by decide⟩, by decide⟩
  · exact ⟨rfl, rfl⟩
  · exact ⟨rfl, rfl⟩

end Sys2Proof.Tests
end

/-! SUPPORT. The word of a decoded command (spec/30_encoding.md R98). -/

namespace Sys2Proof

/-- A row of the opcode map: the command of its opcode, the fields that the opcode does not use being 0, has the word of
those fields. -/
theorem encode_instr {n : Nat} {b a : Bool} : ∀ row ∈ opcodeMap, row.2 ≠ .abort → (row.2.usesN = false → n = 0) →
    (row.2.usesB = false → b = false) → (row.2.usesA = false → a = false) →
    encode (row.2.instr n b a) = commandWord a b n row.1 := by
  intro row hrow ha hn hb haa
  fin_cases hrow <;> simp_all [Opcode.instr, Opcode.usesN, Opcode.usesB, Opcode.usesA, encode]

/-- A word that decodes to a command other than ABORT is that command's word. -/
theorem encode_of_decode {w : Word} {i : Instr} (h : decode w = .legal i) (hi : i ≠ .abort) : encode i = w := by
  unfold decode at h
  split at h
  · cases h
  · next op hop =>
    split_ifs at h with h1 h2 h3 h4 h5 h6
    · exact absurd (Decoded.legal.inj h).symm hi
    · obtain rfl := Decoded.legal.inj h
      rw [encode_instr _ (opcodeOf_mem hop) h1, commandWord_fields (by simpa using h2)]
      · intro hu; simpa [hu] using h3
      · intro hu; simpa [hu] using h4
      · intro hu; simpa [hu] using h5

end Sys2Proof

/-! SUPPORT. What a step can do, said once. -/

namespace Sys2Proof.Machine

variable {s t : State}

/-- `s` with the schedule `rest`. -/
def withMoves (rest : List Move) (s : State) : State := inWorld s (s.world.setMoves rest)

@[simp] theorem withMoves_seq (rest : List Move) (s : State) : (withMoves rest s).seq = s.seq := rfl

/-- What the sequencer's part of a step can do: nothing but use the grant in IDLE, note an ABORT, or take turns of the
latched word. -/
theorem sequencerStep_cases (h : sequencerStep s = .next t) :
    (s.seq.phase = .idle ∧ t = granted s) ∨ t = requestAbort s ∨
      (s.seq.phase = .run ∧ t = runTurns (wordTurn s.seq.cmdw) s.world.grant (granted s)) := by
  cases hp : s.seq.phase with
  | idle =>
    simp only [sequencerStep, hp, Host.Outcome.next.injEq] at h
    exact .inl ⟨rfl, h.symm⟩
  | run =>
    by_cases ha : decode s.seq.cmdw = .legal .abort
    · simp only [sequencerStep, hp, ha, exec, execAbort, Host.Outcome.next.injEq] at h
      exact .inr (.inl h.symm)
    · rw [sequencerStep_run hp ha] at h
      exact .inr (.inr ⟨rfl, (Host.Outcome.next.inj h).symm⟩)

/-- A word that is no ABORT, delivered to an idle block: it is accepted, and the granted turns are its own. -/
theorem writeCmd_idle {v : Word} (hp : s.seq.phase = .idle) (ha : decode v ≠ .legal .abort) :
    writeCmd v s = .next (runTurns (wordTurn v) s.world.grant (accept v (granted s))) := by
  have hb : s.busy = false := (busy_eq_false_iff s).mpr hp
  unfold writeCmd wordTurn
  cases hd : decode v with
  | illegal why =>
    simp only [hb, execIllegal, launch_idle hp]
    rfl
  | legal i =>
    have hi : i ≠ .abort := fun h => ha (by rw [hd, h])
    have he : exec i s = .next (runTurns (Instr.turn i) s.world.grant (accept v (granted s))) := by
      rw [exec_launch hi, launch_idle hp, encode_of_decode hd hi]
    simp [hb, he]

/-- What a write of CMD can do: note an ABORT, set OVR while a command runs, or deliver the word. -/
theorem writeCmd_cases {v : Word} (h : writeCmd v s = .next t) :
    t = requestAbort s ∨ t = overrun s ∨ (s.seq.phase = .idle ∧ opcField v ≠ 0x3F#8 ∧
      t = runTurns (wordTurn v) s.world.grant (accept v (granted s))) := by
  by_cases ha : decode v = .legal .abort
  · simp only [writeCmd, ha, exec, execAbort, Host.Outcome.next.injEq] at h
    exact .inl h.symm
  · cases hp : s.seq.phase with
    | idle =>
      rw [writeCmd_idle hp ha] at h
      exact .inr (.inr ⟨rfl, fun ho => ha (decode_of_abort ho), (Host.Outcome.next.inj h).symm⟩)
    | run =>
      have hb : s.busy = true := (busy_iff s).mpr hp
      unfold writeCmd at h
      split at h
      · next hd => exact absurd hd ha
      · simp only [hb, if_true, Host.Outcome.next.injEq] at h
        exact .inr (.inl h.symm)
      · simp only [hb, if_true, Host.Outcome.next.injEq] at h
        exact .inr (.inl h.symm)

theorem resetWithinTurn_eq (h : sequencerStep { s with world := { s.world with moves := [] } } = .next t) :
    resetWithinTurn s = .next (blockResetWithin s t) := by
  unfold resetWithinTurn
  rw [h]

theorem step_resetWithin {rest : List Move} (hm : s.world.moves = .blockResetAfterRate :: rest)
    (h : sequencerStep (withMoves [] s) = .next t) : step s = .next (blockResetWithin (withMoves rest s) t) := by
  unfold step scheduledStep
  rw [hm]
  exact resetWithinTurn_eq (s := withMoves rest s) h

/-- What a write of a register other than CMD can do: nothing, set OVR while a command runs, clear bits of STATUS, write CRC,
or write an operand register. -/
theorem writeReg_keeps {P : State → Prop} {v : Word} {r : Reg} (hsame : P s) (hover : P (overrun s))
    (hstatus : r = .status → P { s with status := s.status.clearSticky v })
    (hcrc : r = .crc → P { s with crc := v.extractLsb' 0 8 })
    (hoperand : ∀ data timeout mask limit,
      P { s with data := data, timeout := timeout, mask := mask, retryLimit := limit }) : P (writeReg v s r) := by
  have guarded : ∀ store : State → State, P (store s) → P (guardedWrite store s) := fun store hstore => by
    unfold guardedWrite
    split
    · exact hover
    · exact hstore
  unfold writeReg
  cases r <;> dsimp only
  case status => exact hstatus rfl
  case crc => exact guarded _ (hcrc rfl)
  case dataLo | dataHi | timeout | maskLo | maskHi | retryLimit => exact guarded _ (hoperand ..)
  all_goals exact hsame

/-- What a write of an offset can do: nothing where it is unmapped, else the write of its register. -/
theorem hostWrite_cases {addr : BitVec 8} {v : Word} (h : hostWrite addr v s = .next t) :
    (regAt addr = none ∧ t = s) ∨ (∃ r : Reg, r ≠ .cmd ∧ r.offset = addr ∧ t = writeReg v s r) ∨
      (addr = 0x00#8 ∧ writeCmd v s = .next t) := by
  cases hr : regAt addr with
  | none =>
    rw [hostWrite_unmapped hr] at h
    exact .inl ⟨rfl, (Host.Outcome.next.inj h).symm⟩
  | some r =>
    obtain rfl := offset_of_regAt hr
    by_cases hc : r = .cmd
    · subst hc
      exact .inr (.inr ⟨rfl, h⟩)
    · rw [hostWrite_offset hc] at h
      exact .inr (.inl ⟨r, hc, rfl, (Host.Outcome.next.inj h).symm⟩)

/-- What a step that answers a next state has done. -/
inductive StepTo (s : State) : State → Prop
  /-- The sequencer had its part. -/
  | turns {t : State} (h : sequencerStep s = .next t)
      (hm : s.world.moves = [] ∨ ∃ n rest, s.world.moves = .turns n :: rest) : StepTo s t
  /-- The platform reset the block. -/
  | blockReset (rest : List Move) (hm : s.world.moves = .blockReset :: rest) :
      StepTo s (blockReset (withMoves rest s))
  /-- The platform reset the block inside the turn that would have led to `t`. -/
  | resetWithin (rest : List Move) (hm : s.world.moves = .blockResetAfterRate :: rest) (t : State)
      (h : sequencerStep (withMoves [] s) = .next t) : StepTo s (blockResetWithin (withMoves rest s) t)
  /-- The host read an offset. -/
  | read (addr : BitVec 8) (rest : List Move) (hm : s.world.moves = .host (.read addr 4) :: rest) :
      StepTo s (hostRead addr (withMoves rest s))
  /-- The host wrote an unmapped offset. -/
  | unmapped (rest : List Move) {addr : BitVec 8} {v : Word} (hm : s.world.moves = .host (.write addr 4 v) :: rest)
      (hr : regAt addr = none) : StepTo s (withMoves rest s)
  /-- The host wrote a register other than CMD. -/
  | write (r : Reg) (v : Word) (rest : List Move) (hm : s.world.moves = .host (.write r.offset 4 v) :: rest)
      (hr : r ≠ .cmd) : StepTo s (writeReg v (withMoves rest s) r)
  /-- The host wrote CMD. -/
  | command (v : Word) (rest : List Move) (hm : s.world.moves = .host (.write 0x00#8 4 v) :: rest) {t : State}
      (h : writeCmd v (withMoves rest s) = .next t) : StepTo s t

/-- A step, move by move. -/
theorem step_cases (h : step s = .next t) : StepTo s t := by
  cases hm : s.world.moves with
  | nil => exact .turns (step_nil hm ▸ h) (.inl hm)
  | cons m rest =>
    cases m with
    | turns n => exact .turns (step_turns hm ▸ h) (.inr ⟨n, rest, hm⟩)
    | blockReset =>
      obtain rfl := Host.Outcome.next.inj ((step_blockReset hm).symm.trans h)
      exact .blockReset rest hm
    | blockResetAfterRate =>
      obtain ⟨u, hu⟩ := sequencerStep_isNext (withMoves [] s)
      obtain rfl := Host.Outcome.next.inj ((step_resetWithin hm hu).symm.trans h)
      exact .resetWithin rest hm u hu
    | host a =>
      rw [step_host hm] at h
      cases a with
      | read addr size =>
        by_cases hd : accessDefined addr size = true
        · obtain ⟨rfl, ha⟩ := (accessDefined_iff _ _).mp hd
          rw [hostAccess_read ha] at h
          obtain rfl := Host.Outcome.next.inj h
          exact .read addr rest hm
        · simp [hostAccess, hd] at h
      | write addr size v =>
        by_cases hd : accessDefined addr size = true
        · obtain ⟨rfl, ha⟩ := (accessDefined_iff _ _).mp hd
          rw [hostAccess_write ha] at h
          rcases hostWrite_cases h with ⟨hr, rfl⟩ | ⟨r, hr, rfl, rfl⟩ | ⟨rfl, hc⟩
          · exact .unmapped rest hm hr
          · exact .write r v rest hm hr
          · exact .command v rest hm hc
        · simp [hostAccess, hd] at h

end Sys2Proof.Machine

/-! SUPPORT. Every step keeps the invariant. -/

namespace Sys2Proof.Machine

variable {s t : State}

/-! ### What the invariant does not look at -/

theorem RestInv.congr (h : RestInv s) (hss : t.sstat = s.sstat) (hid : t.romid = s.romid) (hcand : t.cand = s.cand)
    (hrate : t.status.rate = s.status.rate) (hev : t.world.events = s.world.events) : RestInv t where
  session := hss ▸ h.session
  delivered := by rw [hss, hid]; exact h.delivered
  recorded := by rw [hss, hcand]; exact h.recorded
  rate := by rw [hev, hrate]; exact h.rate

/-- The invariant looks at CMD, the sequencer, SSTAT, ROMID, CAND, STATUS.RATE and the history alone. -/
theorem State.Inv.congr (h : s.Inv) (hcmd : t.cmd = s.cmd) (hseq : t.seq = s.seq) (hss : t.sstat = s.sstat)
    (hid : t.romid = s.romid) (hcand : t.cand = s.cand) (hrate : t.status.rate = s.status.rate)
    (hev : t.world.events = s.world.events) : t.Inv :=
  have hr : RestInv t := h.restInv.congr hss hid hcand hrate hev
  { idle := by rw [hseq]; exact h.idle
    latched := by rw [hseq, hcmd]; exact h.latched
    position := by rw [hseq]; exact h.position
    progress := by rw [hseq]; exact h.progress
    session := hr.session
    delivered := hr.delivered
    recorded := hr.recorded
    flight := by rw [hseq]; exact h.flight
    ordered := by rw [hseq, hev]; exact h.ordered
    rate := hr.rate }

theorem State.Inv.withMoves_inv (h : s.Inv) (rest : List Move) : (withMoves rest s).Inv :=
  h.congr rfl rfl rfl rfl rfl rfl rfl

theorem State.Inv.overrun_inv (h : s.Inv) : (overrun s).Inv := h.congr rfl rfl rfl rfl rfl rfl rfl

theorem State.Inv.hostRead_inv (h : s.Inv) (addr : BitVec 8) : (hostRead addr s).Inv :=
  h.congr rfl rfl rfl rfl rfl rfl rfl

/-- An ABORT is noted: only int.ABORTREQ of a running command changes. -/
theorem State.Inv.requestAbort_inv (h : s.Inv) : (requestAbort s).Inv := by
  unfold requestAbort
  cases hp : s.seq.phase with
  | idle => exact h
  | run =>
    exact ⟨fun hi => by simp [hp] at hi, h.latched, h.position, h.progress, h.session, h.delivered, h.recorded,
      h.flight, h.ordered, h.rate⟩

/-- No register that the host writes is one the invariant looks at. -/
theorem State.Inv.writeReg_inv (h : s.Inv) (v : Word) (r : Reg) : (writeReg v s r).Inv :=
  writeReg_keeps h h.overrun_inv (fun _ => h.congr rfl rfl rfl rfl rfl rfl rfl)
    (fun _ => h.congr rfl rfl rfl rfl rfl rfl rfl) (fun _ _ _ _ => h.congr rfl rfl rfl rfl rfl rfl rfl)

/-! ### The turns of a command -/

/-- A running command that can have no round trip in flight has none. -/
theorem RunInv.not_inFlight (h : RunInv s) (hw : runsRoundTrips s.seq.cmdw = false) : s.seq.inFlight = false := by
  cases hf : s.seq.inFlight with
  | false => rfl
  | true => rw [h.flight hf] at hw; cases hw

/-- Outside a round trip the history is closed. -/
theorem RunInv.closed (h : RunInv s) (hf : s.seq.inFlight = false) : tripOpen s.world.events = some false := by
  rw [h.ordered, hf]

theorem RunInv.raise_inv (h : RunInv s) (hf : s.seq.inFlight = false) (e : ErrCode) : (raise e s).Inv :=
  h.toRestInv.raise_inv (h.closed hf)

theorem RunInv.succeed_inv (h : RunInv s) (hf : s.seq.inFlight = false) : (succeed s).Inv :=
  h.toRestInv.succeed_inv (h.closed hf)

/-- An empty receive closes the round trip and ends the command. -/
theorem RunInv.fault_inv (h : RunInv s) (hf : s.seq.inFlight = true) : (raise .wiringFault (serialRx s)).Inv := by
  refine h.serialRx_restInv.raise_inv ?_
  rw [serialRx_eq]
  exact tripOpen_rx (by rw [h.ordered, hf]) _

theorem RunInv.slotEcho_inv (h : RunInv s) (hf : s.seq.inFlight = true) (e : Byte) : (slotEcho e (received s)).Inv :=
  have hr := h.received_runInv hf
  RunInv.inv ⟨hr.toRestInv.congr rfl rfl rfl rfl rfl, hr.run, hr.latched, hr.position, hr.progress, hr.flight,
    hr.ordered⟩

theorem RunInv.notePresence_inv (h : RunInv s) (hf : s.seq.inFlight = true) (e : Byte) :
    (notePresence e (received s)).Inv :=
  (h.received_runInv hf).inv.congr rfl rfl rfl rfl rfl rfl rfl

/-- A command of codec slots. -/
theorem RunInv.slots_inv (h : RunInv s) (ht : runsRoundTrips s.seq.cmdw = true) {n : Nat} {byteAt : State → Nat → Byte}
    {finish : State → State} {c : Command} (hb : c.boundary = slotBoundary n byteAt finish) (he : c.onEcho = slotEcho)
    (hn : c.onError = noErrorWrites) (hfin : s.seq.inFlight = false → (finish s).Inv) : (c.turn s).Inv :=
  slotTurn_keeps hb he hn h.fault_inv h.slotEcho_inv (fun hf _ => (h.sent_runInv hf ht _ _).inv)
    (fun hf _ => h.raise_inv hf _) (fun hf _ => hfin hf)

theorem RunInv.finishRead_inv (h : RunInv s) (hf : s.seq.inFlight = false) : (finishRead s).Inv :=
  (h.succeed_inv hf).congr rfl rfl rfl rfl rfl rfl rfl

theorem RunInv.wrbyte_inv (h : RunInv s) (ht : runsRoundTrips s.seq.cmdw = true) : (wrbyteCommand.turn s).Inv := by
  rcases wrbyteTurn_either s with ⟨hf, -, -, he⟩ | he <;> rw [he]
  · exact h.raise_inv hf _
  · exact h.slots_inv ht (c := writeSlotsCommand 8) rfl rfl rfl h.succeed_inv

theorem RunInv.reset_inv (h : RunInv s) (ht : runsRoundTrips s.seq.cmdw = true) : (resetCommand.turn s).Inv :=
  resetTurn_keeps h.fault_inv h.notePresence_inv (fun hf => (h.sent_runInv hf ht _ _).inv) (fun hf => h.raise_inv hf _)
    h.succeed_inv

/-- A session opens: every search register is cleared. -/
theorem RunInv.srchBegin_inv (h : RunInv s) (hf : s.seq.inFlight = false) (a : Bool) : (srchBeginBody a s).Inv := by
  refine RestInv.succeed_inv ⟨?_, ?_, ⟨rfl, rfl⟩, h.rate⟩ (h.closed hf)
  · simp [SStat.zero]
  · simp [SStat.zero]

/-! ### The search commands -/

/-- The session ends with DONE, and so without ACTIVE. -/
theorem RestInv.endSession_restInv (h : RestInv s) : RestInv (endSession s) :=
  ⟨by simp [endSession], h.delivered, h.recorded, h.rate⟩

/-- The outcome of a pass is recorded, and the command goes on. -/
theorem RunInv.writeOutcome_runInv (h : RunInv s) {o : PassOutcome} (ho : s.seq.stage = .passEnd o) :
    RunInv (writeOutcome o s) :=
  ⟨h.writeOutcome_restInv ho, h.run, h.latched, h.position, h.progress, h.flight, h.ordered⟩

theorem RunInv.passFinish_inv (h : RunInv s) {o : PassOutcome} (ho : s.seq.stage = .passEnd o)
    (hf : s.seq.inFlight = false) : (passFinish o s).Inv := by
  have hw := h.writeOutcome_runInv ho
  cases o with
  | violation => exact hw.raise_inv hf _
  | noPresence | valid | crcBad | noResponse => exact hw.succeed_inv hf

/-- The ID of a VALID pass passes the CRC test. -/
theorem RunInv.deliver_inv (h : RunInv s) (ho : s.seq.stage = .passEnd .valid) (hf : s.seq.inFlight = false) :
    (deliver s).Inv := by
  have hcrc : romCrc s.seq.candAcc = 0x00#8 := by
    have hp := h.progress
    rw [stageRecord, ho] at hp
    exact hp.2
  have hr : RestInv { s with romid := s.seq.candAcc, sstat := { s.sstat with idv := true }, idcount := s.idcount + 1#32,
                             mask := s.seq.w } := ⟨h.session, fun _ => hcrc, h.recorded, h.rate⟩
  unfold deliver
  dsimp only
  split
  · exact hr.endSession_restInv.succeed_inv (h.closed hf)
  · exact hr.succeed_inv (h.closed hf)

theorem RunInv.nextRetry_inv (h : RunInv s) (hf : s.seq.inFlight = false) : (nextRetry s).Inv := by
  have hr : RunInv { s with retries := bumpRetries s.retries } :=
    ⟨h.toRestInv.congr rfl rfl rfl rfl rfl, h.run, h.latched, h.position, h.progress, h.flight, h.ordered⟩
  unfold nextRetry
  dsimp only
  split
  · exact hr.toRestInv.closeSession_restInv.raise_inv (h.closed hf)
  · exact hr.beginPass_runInv.inv

theorem RunInv.nextFinish_inv (h : RunInv s) {o : PassOutcome} (ho : s.seq.stage = .passEnd o)
    (hf : s.seq.inFlight = false) : (nextFinish o s).Inv := by
  have hw := h.writeOutcome_runInv ho
  cases o with
  | noPresence | noResponse => exact hw.toRestInv.endSession_restInv.succeed_inv (h.closed hf)
  | violation => exact hw.toRestInv.closeSession_restInv.raise_inv (h.closed hf)
  | crcBad => exact hw.nextRetry_inv hf
  | valid => exact hw.deliver_inv ho hf

theorem RunInv.passFirst_inv (h : RunInv s) (ht : runsRoundTrips s.seq.cmdw = true) (hf : s.seq.inFlight = false) :
    (passFirst s).Inv :=
  have hb := h.beginPass_runInv
  startRoundTrip_keeps (hb.sent_runInv hf ht _ _).inv (hb.raise_inv hf _)

theorem RunInv.nextFirst_inv (h : RunInv s) (ht : runsRoundTrips s.seq.cmdw = true) (hf : s.seq.inFlight = false) :
    (nextFirst s).Inv := by
  have hc : RunInv (clearResult s) :=
    ⟨⟨h.session, fun hi => by simp at hi, h.recorded, h.rate⟩, h.run, h.latched, h.position, h.progress, h.flight,
      h.ordered⟩
  have hb := hc.beginPass_runInv
  unfold nextFirst
  split
  · exact startRoundTrip_keeps (hb.sent_runInv hf ht _ _).inv (hb.toRestInv.closeSession_restInv.raise_inv (h.closed hf))
  · exact h.raise_inv hf _

theorem RunInv.srchPass_inv (h : RunInv s) (ht : runsRoundTrips s.seq.cmdw = true) (a : Bool) :
    ((srchPassCommand a).turn s).Inv :=
  passTurn_keeps (srchPass_runsPass a s.sstat) h.fault_inv (fun hf e => (h.received_runInv hf).passEcho_inv _ e)
    (fun hf r b => (h.sent_runInv hf ht r b).inv) (fun hf => h.raise_inv hf _) (fun hf _ => h.passFirst_inv ht hf)
    (fun _ hf ho => h.passFinish_inv ho hf)

theorem RunInv.srchNext_inv (h : RunInv s) (ht : runsRoundTrips s.seq.cmdw = true) : (srchNextCommand.turn s).Inv := by
  refine passTurn_keeps (srchNext_runsPass s.sstat) (fun hf => ?_) (fun hf e => (h.received_runInv hf).passEcho_inv _ e)
    (fun hf r b => (h.sent_runInv hf ht r b).inv) (fun hf => ?_) (fun hf _ => h.nextFirst_inv ht hf)
    (fun _ hf ho => h.nextFinish_inv ho hf)
  · exact h.serialRx_restInv.closeSession_restInv.raise_inv (h.fault_inv hf).ordered
  · exact h.toRestInv.closeSession_restInv.raise_inv (h.closed hf)

/-- One turn of the latched word. -/
theorem RunInv.wordTurn_inv (h : RunInv s) : (wordTurn s.seq.cmdw s).Inv := by
  have hlocal := h.not_inFlight
  have htrips : ∀ {i}, decode s.seq.cmdw = .legal i → runsRoundTrips s.seq.cmdw = hasRoundTrips i := fun hd => by
    rw [runsRoundTrips, hd]
  unfold wordTurn
  cases hd : decode s.seq.cmdw with
  | illegal why => exact h.raise_inv (hlocal (by rw [runsRoundTrips, hd])) _
  | legal i =>
    have ht := htrips hd
    cases i with
    | owReset => exact h.reset_inv ht
    | owWrbit b => exact h.slots_inv ht (n := 1) (byteAt := fun _ _ => slotByte b) rfl rfl rfl h.succeed_inv
    | owRdbit => exact h.slots_inv ht (c := readSlotsCommand 1) rfl rfl rfl h.finishRead_inv
    | owWrbits n => exact h.slots_inv ht (c := writeSlotsCommand n) rfl rfl rfl h.succeed_inv
    | owRdbits n => exact h.slots_inv ht (c := readSlotsCommand n) rfl rfl rfl h.finishRead_inv
    | owWrbyte => exact h.wrbyte_inv ht
    | owRdbyte => exact h.slots_inv ht (c := readSlotsCommand 8) rfl rfl rfl h.finishRead_inv
    | crcClr | crcBit b | crcBits n => exact (h.succeed_inv (hlocal ht)).congr rfl rfl rfl rfl rfl rfl rfl
    | srchBegin a => exact h.srchBegin_inv (hlocal ht) a
    | srchPass a => exact h.srchPass_inv ht a
    | srchNext => exact h.srchNext_inv ht
    | abort => exact h.inv

/-- Turns of the latched word, the word latched until the command ends. -/
theorem State.Inv.runTurns_inv (h : s.Inv) (n : Nat) : (runTurns (wordTurn s.seq.cmdw) n s).Inv := by
  induction n generalizing s with
  | zero => exact h
  | succ n ih =>
    cases hp : s.seq.phase with
    | idle => rwa [runTurns_idle _ _ hp]
    | run =>
      have ht := ih (h.runInv hp).wordTurn_inv
      rw [runTurns_succ _ _ hp]
      rwa [runTurns_runTurns (s := s) (m := 1) (by rw [runTurns_succ _ _ hp]; rfl)] at ht

theorem sequencerStep_inv (h : s.Inv) (ht : sequencerStep s = .next t) : t.Inv := by
  rcases sequencerStep_cases ht with ⟨-, rfl⟩ | rfl | ⟨-, rfl⟩
  · exact h.granted_inv
  · exact h.requestAbort_inv
  · exact h.granted_inv.runTurns_inv _

theorem writeCmd_inv {v : Word} (h : s.Inv) (ht : writeCmd v s = .next t) : t.Inv := by
  rcases writeCmd_cases ht with rfl | rfl | ⟨hp, hv, rfl⟩
  · exact h.requestAbort_inv
  · exact h.overrun_inv
  · exact (h.granted_inv.accept_inv hv hp).runTurns_inv _

/-! ### Block reset -/

/-- An order once broken stays broken. -/
theorem tripOpen_append_none {h : List SerialEvent} (hb : tripOpen h = none) (l : List SerialEvent) :
    tripOpen (h ++ l) = none := by
  have hn : ∀ l : List SerialEvent, l.foldl tripOrder none = none := fun l => by
    induction l with
    | nil => rfl
    | cons e l ih => exact ih
  unfold tripOpen at *
  rw [List.foldl_append, hb, hn]

/-- Every start of a history in order is in order. -/
theorem tripOpen_of_prefix {h l : List SerialEvent} {o : Bool} (hp : h <+: l) (ho : tripOpen l = some o) :
    ∃ o', tripOpen h = some o' := by
  obtain ⟨l, rfl⟩ := hp
  cases hh : tripOpen h with
  | none => rw [tripOpen_append_none hh] at ho; cases ho
  | some o' => exact ⟨o', rfl⟩

/-- Block reset, from any history in order. -/
theorem blockReset_inv {o : Bool} (ho : tripOpen s.world.events = some o) : (blockReset s).Inv where
  idle _ := rfl
  latched h := by cases h
  position := Nat.zero_lt_succ 63
  progress := ⟨rfl, rfl⟩
  session := nofun
  delivered h := by cases h
  recorded := ⟨rfl, rfl⟩
  flight h := by cases h
  ordered := tripOpen_blockReset ho
  rate := lastRate_setRate _ _

/-- A turn only adds to the history. -/
theorem PortTurn.events_prefix (h : PortTurn s t) : s.world.events <+: t.world.events := by
  cases h with
  | quiet h => rw [h]
  | transmit r b h => rw [h, List.append_assoc]; exact List.prefix_append _ _
  | receive a h => rw [h]; exact List.prefix_append _ _

theorem runTurns_events_prefix (w : Word) (n : Nat) (s : State) :
    s.world.events <+: (runTurns (wordTurn w) n s).world.events :=
  runTurns_keeps (P := fun t => s.world.events <+: t.world.events)
    (fun t _ h => h.trans (wordTurn_follows w t).port.events_prefix) n (List.prefix_refl _)

theorem sequencerStep_events_prefix (h : sequencerStep s = .next t) : s.world.events <+: t.world.events := by
  have hg : (granted s).world.events = s.world.events := useGrant_events _
  rcases sequencerStep_cases h with ⟨-, rfl⟩ | rfl | ⟨-, rfl⟩
  · rw [hg]
  · rw [requestAbort_world]
  · exact hg ▸ runTurns_events_prefix _ _ _

/-- What a turn cut before its transmit leaves of its events is a start of them. -/
theorem untilTransmit_prefix (l : List SerialEvent) : untilTransmit l <+: l := by
  rcases untilTransmit_either l with ⟨r, b, rest, rfl, h⟩ | h <;> rw [h]
  · exact ⟨.tx b :: rest, rfl⟩
  · exact List.nil_prefix

/-- Block reset inside a turn: the history up to the cut is a start of what the turn would have left. -/
theorem blockResetWithin_inv (ht : t.Inv) (hp : s.world.events <+: t.world.events) : (blockResetWithin s t).Inv := by
  obtain ⟨l, hl⟩ := hp
  have hcut : s.world.events ++ untilTransmit (t.world.events.drop s.world.events.length) <+: t.world.events := by
    rw [← hl, List.drop_left]
    exact List.prefix_append_right_inj _ |>.mpr (untilTransmit_prefix l)
  obtain ⟨o, ho⟩ := tripOpen_of_prefix hcut ht.ordered
  exact blockReset_inv ho

/-! ### The step -/

/-- Settles O60, by the cases of what a step can do. -/
theorem everyStepKeepsInvariant : Obligations.EveryStepKeepsInvariant := by
  intro s t h hstep
  cases step_cases hstep with
  | turns hs => exact sequencerStep_inv h hs
  | blockReset rest => exact blockReset_inv h.ordered
  | resetWithin rest _ u hu =>
    have hp : s.world.events <+: u.world.events := sequencerStep_events_prefix (s := withMoves [] s) hu
    exact blockResetWithin_inv (s := withMoves rest s) (sequencerStep_inv (h.withMoves_inv []) hu) hp
  | read addr rest => exact (h.withMoves_inv rest).hostRead_inv addr
  | unmapped rest => exact h.withMoves_inv rest
  | write r v rest => exact (h.withMoves_inv rest).writeReg_inv v r
  | command v rest _ hc => exact writeCmd_inv (h.withMoves_inv rest) hc

/-- Settles O59: the state after reset is what block reset makes of a block with no history. -/
theorem resetStateMeetsInvariant : Obligations.ResetStateMeetsInvariant :=
  blockReset_inv (s := { State.reset with world := { World.reset with events := [] } }) (o := false) rfl

end Sys2Proof.Machine

/-! SUPPORT. Turns spread over steps, and a host that polls between them (spec/60_exceptions.md R211, 20_memory.md R67). -/

namespace Sys2Proof.Machine

variable {s : State}

/-- A command of an idle block is its acceptance, and then its turns. -/
theorem exec_idle_eq_exec_accept {i : Instr} (hi : i ≠ .abort) (hp : s.seq.phase = .idle) :
    exec i s = exec i (accept (encode i) s) := by
  rw [exec_launch hi, exec_launch hi, launch_idle hp, launch_run (s := accept (encode i) s) rfl]
  rfl

/-- `s` with another record of reads and another count of draws. -/
def withRecord (l : List (BitVec 8 × Word)) (d : Nat) (s : State) : State := changed (fun v => v.setRecord l d) s

/-- A step of a host read. -/
theorem step_hostRead {addr : BitVec 8} {rest : List Move} (ha : addr.toNat % 4 = 0)
    (hm : s.world.moves = .host (.read addr 4) :: rest) : step s = .next (hostRead addr (withMoves rest s)) :=
  (step_host hm).trans (hostAccess_read ha _)

/-- A host read leaves another record and another count of draws, and nothing else. -/
theorem step_read {addr : BitVec 8} {rest : List Move} (ha : addr.toNat % 4 = 0)
    (hm : s.world.moves = .host (.read addr 4) :: rest) :
    ∃ l d, step s = .next (withRecord l d (withMoves rest s)) :=
  ⟨_, _, step_hostRead ha hm⟩

/-- The state after `n` turns of the latched word. -/
def afterTurns (n : Nat) (s : State) : State := runTurns (wordTurn s.seq.cmdw) n s

theorem step_withMoves_turns (n : Nat) (rest : List Move) (ha : s.seq.phase = .run → decode s.seq.cmdw ≠ .legal .abort) :
    step (withMoves (.turns n :: rest) s) = .next (withMoves rest (afterTurns n s)) := by
  have h : runTurns (wordTurn s.seq.cmdw) n (withMoves (.turns n :: rest) s) =
      withMoves (.turns n :: rest) (afterTurns n s) := runTurns_setMoves s.seq.cmdw n s _
  rw [step_turns_eq (s := withMoves (.turns n :: rest) s) rfl ha, withMoves_seq, h]
  rfl

/-- The word stays latched while its command runs. -/
theorem afterTurns_latched {m : Nat} (hr : (afterTurns m s).seq.phase = .run) :
    (afterTurns m s).seq.cmdw = s.seq.cmdw :=
  (runTurns_follows s.seq.cmdw m s).2 hr

theorem afterTurns_afterTurns (m n : Nat) (s : State) : afterTurns n (afterTurns m s) = afterTurns (m + n) s := by
  unfold afterTurns
  rw [runTurns_runTurns (s := s) rfl, runTurns_add]

/-- Turns do not see the record, where the answers to come are given. -/
theorem afterTurns_withRecord {n : Nat} (h : n ≤ s.world.answers.length) (l : List (BitVec 8 × Word)) (d : Nat) :
    afterTurns n (withRecord l d s) = withRecord l d (afterTurns n s) :=
  runTurns_setRecord s.seq.cmdw n s h l d

/-- Turns after turns, the schedule saying so. -/
theorem step_turns_after (m n : Nat) (rest : List Move) (ha : decode s.seq.cmdw ≠ .legal .abort) :
    step (withMoves (.turns n :: rest) (afterTurns m s)) = .next (withMoves rest (afterTurns (m + n) s)) := by
  rw [step_withMoves_turns _ _ fun hr => by rwa [afterTurns_latched hr], afterTurns_afterTurns]

/-- Turns after turns and a host's reads, where the answers to come are given. -/
theorem step_turns_after_reads {m n : Nat} (rest : List Move) (ha : decode s.seq.cmdw ≠ .legal .abort)
    (hlen : m + n ≤ s.world.answers.length) (l : List (BitVec 8 × Word)) (d : Nat) :
    step (withMoves (.turns n :: rest) (withRecord l d (afterTurns m s))) =
      .next (withRecord l d (withMoves rest (afterTurns (m + n) s))) := by
  have hleft : s.world.answers.length ≤ (afterTurns m s).world.answers.length + m := (runTurns_follows s.seq.cmdw m s).1
  have hlatched : (withRecord l d (afterTurns m s)).seq.phase = .run →
      decode (withRecord l d (afterTurns m s)).seq.cmdw ≠ .legal .abort := fun hr => by
    rwa [show (withRecord l d (afterTurns m s)).seq.cmdw = s.seq.cmdw from afterTurns_latched hr]
  rw [step_withMoves_turns _ _ hlatched, afterTurns_withRecord (by omega), afterTurns_afterTurns]
  rfl

/-- Settles O37: acceptance, turns after turns, and turns after a read. -/
theorem turnsMayBeSpreadOverSteps : Obligations.TurnsMayBeSpreadOverSteps := by
  have first : ∀ {m : Nat} {ms : List Move} {s : State}, decode s.seq.cmdw ≠ .legal .abort →
      s.world.moves = .turns m :: ms → step s = .next (withMoves ms (afterTurns m s)) := fun ha hm =>
    step_turns_eq hm fun _ => ha
  refine ⟨fun i s hi hp => exec_idle_eq_exec_accept hi hp, ?_, ?_⟩
  · intro m n rest s t _ ha hm ht
    obtain rfl := Host.Outcome.next.inj ((first ha hm).symm.trans ht)
    exact (step_turns_after m n rest ha).trans (step_withMoves_turns (m + n) rest fun _ => ha).symm
  · intro m n addr rest s _ ha haddr hlen hm
    obtain ⟨l, d, hread⟩ :=
      step_read (s := withMoves (.host (.read addr 4) :: .turns n :: rest) (afterTurns m s)) haddr rfl
    exact ⟨_, _, _, _, l, d, first ha hm, hread, step_turns_after_reads rest ha hlen l d,
      step_withMoves_turns (m + n) rest fun _ => ha, rfl⟩

end Sys2Proof.Machine

/-! SUPPORT. Frames: a property that looks at nothing that a command's pieces write is kept by the command, however many
turns it takes. Each frame says of its property which pieces write nothing that it looks at. -/

namespace Sys2Proof.Machine

variable {P : State → Prop} {s t : State} {i : Instr}

/-! ### The families of commands -/

/-- The commands of the Signal Codec (spec/40_signal_codec.md). -/
def Instr.isCodec (i : Instr) : Prop :=
  i = .owReset ∨ (∃ b, i = .owWrbit b) ∨ i = .owRdbit ∨ (∃ n, i = .owWrbits n) ∨ (∃ n, i = .owRdbits n)
    ∨ i = .owWrbyte ∨ i = .owRdbyte

/-- The commands that end with `RX <- acc` (10_state.md R32). -/
def Instr.isRead (i : Instr) : Prop := i = .owRdbit ∨ (∃ n, i = .owRdbits n) ∨ i = .owRdbyte

/-- The commands of the CRC-8 Engine (41_crc8.md). -/
def Instr.isCrc (i : Instr) : Prop := i = .crcClr ∨ (∃ b, i = .crcBit b) ∨ ∃ n, i = .crcBits n

/-! ### What a property may be blind to -/

/-- `P` is blind to what the life of every command writes: CMD, the sequencer, the grant, the round trips, and the two
ends. -/
structure RunStable (P : State → Prop) : Prop where
  sequencer {s : State} (h : P s) (w : Word) (q : Sequencer) : P { s with cmd := w, seq := q }
  granted {s : State} (h : P s) : P (granted s)
  sent {s : State} (h : P s) (r : Rate) (b : Byte) : P (sent r b s)
  serialRx {s : State} (h : P s) : P (serialRx s)
  received {s : State} (h : P s) : P (received s)
  raise {s : State} (h : P s) (e : ErrCode) : P (raise e s)
  succeed {s : State} (h : P s) : P (succeed s)

/-- `P` is blind to PRESENCE, SAMPLE and the registers of the Search Engine besides. -/
structure CommandStable (P : State → Prop) : Prop extends RunStable P where
  sample {s : State} (h : P s) (e : Byte) : P (noteSample e s)
  presence {s : State} (h : P s) (e : Byte) : P (notePresence e s)
  search {s : State} (h : P s) (mask nmask cand romid : DWord) (ss : SStat) (retries idcount : Word) :
    P { s with mask := mask, nmask := nmask, cand := cand, romid := romid, sstat := ss, retries := retries,
               idcount := idcount }

/-! ### The turns -/

/-- A turn of a command of codec slots. -/
theorem RunStable.slots (hP : RunStable P) (hsample : ∀ {s}, P s → ∀ e, P (noteSample e s)) {n : Nat}
    {byteAt : State → Nat → Byte} {finish : State → State} {c : Command}
    (hb : c.boundary = slotBoundary n byteAt finish)
    (he : c.onEcho = slotEcho) (hn : c.onError = noErrorWrites) (hfin : P (finish s)) (h : P s) : P (c.turn s) :=
  slotTurn_keeps hb he hn (fun _ => hP.raise (hP.serialRx h) _)
    (fun _ e => hsample (hP.sequencer (hP.received h) _ _) e) (fun _ _ => hP.sent h _ _) (fun _ _ => hP.raise h _)
    (fun _ _ => hfin)

theorem RunStable.reset (hP : RunStable P) (hpresence : ∀ {s}, P s → ∀ e, P (notePresence e s)) (h : P s) :
    P (resetCommand.turn s) :=
  resetTurn_keeps (fun _ => hP.raise (hP.serialRx h) _) (fun _ e => hpresence (hP.received h) e)
    (fun _ => hP.sent h _ _) (fun _ => hP.raise h _) (fun _ => hP.succeed h)

/-- A turn of a codec command: the slots of all but OW.RESET note SAMPLE, OW.RESET notes PRESENCE, a read writes RX. -/
theorem RunStable.codecTurn (hP : RunStable P) (hi : Instr.isCodec i)
    (hsample : i ≠ .owReset → ∀ {s}, P s → ∀ e, P (noteSample e s))
    (hpresence : i = .owReset → ∀ {s}, P s → ∀ e, P (notePresence e s))
    (hread : Instr.isRead i → ∀ {s}, P s → P (finishRead s)) (h : P s) : P (Instr.turn i s) := by
  rcases hi with rfl | ⟨b, rfl⟩ | rfl | ⟨n, rfl⟩ | ⟨n, rfl⟩ | rfl | rfl
  · exact hP.reset (hpresence rfl) h
  · exact hP.slots (hsample nofun) (n := 1) (byteAt := fun _ _ => slotByte b) rfl rfl rfl (hP.succeed h) h
  · exact hP.slots (hsample nofun) (c := readSlotsCommand 1) rfl rfl rfl (hread (.inl rfl) h) h
  · exact hP.slots (hsample nofun) (c := writeSlotsCommand n) rfl rfl rfl (hP.succeed h) h
  · exact hP.slots (hsample nofun) (c := readSlotsCommand n) rfl rfl rfl (hread (.inr (.inl ⟨n, rfl⟩)) h) h
  · show P (wrbyteCommand.turn s)
    rcases wrbyteTurn_either s with ⟨-, -, -, he⟩ | he <;> rw [he]
    · exact hP.raise h _
    · exact hP.slots (hsample nofun) (c := writeSlotsCommand 8) rfl rfl rfl (hP.succeed h) h
  · exact hP.slots (hsample nofun) (c := readSlotsCommand 8) rfl rfl rfl (hread (.inr (.inr rfl)) h) h

theorem CommandStable.closeSession (hP : CommandStable P) (h : P s) : P (closeSession s) := hP.search h ..
theorem CommandStable.endSession (hP : CommandStable P) (h : P s) : P (endSession s) := hP.search h ..
theorem CommandStable.clearResult (hP : CommandStable P) (h : P s) : P (clearResult s) := hP.search h ..
theorem CommandStable.beginPass (hP : CommandStable P) (h : P s) : P (beginPass s) := hP.sequencer h ..
theorem CommandStable.writeOutcome (hP : CommandStable P) (h : P s) (o : PassOutcome) : P (writeOutcome o s) :=
  hP.search h ..

theorem CommandStable.passEcho (hP : CommandStable P) (h : P s) (alarm : State → Bool) (e : Byte) :
    P (passEcho alarm e s) := by
  obtain ⟨q, -, -, -, -, -, he | he | he⟩ := passEcho_either alarm e s <;> rw [he]
  · exact hP.sequencer h ..
  · exact hP.sequencer (hP.sample h e) ..
  · exact hP.sequencer (hP.presence h e) ..

theorem CommandStable.passFinish (hP : CommandStable P) (h : P s) (o : PassOutcome) : P (passFinish o s) := by
  have hw := hP.writeOutcome h o
  cases o with
  | violation => exact hP.raise hw _
  | noPresence | valid | crcBad | noResponse => exact hP.succeed hw

theorem CommandStable.deliver (hP : CommandStable P) (h : P s) : P (deliver s) := by
  unfold Machine.deliver
  dsimp only
  split
  · exact hP.succeed (hP.endSession (hP.search h ..))
  · exact hP.succeed (hP.search h ..)

theorem CommandStable.nextRetry (hP : CommandStable P) (h : P s) : P (nextRetry s) := by
  unfold Machine.nextRetry
  dsimp only
  split
  · exact hP.raise (hP.closeSession (hP.search h ..)) _
  · exact hP.beginPass (hP.search h ..)

theorem CommandStable.nextFinish (hP : CommandStable P) (h : P s) (o : PassOutcome) : P (nextFinish o s) := by
  have hw := hP.writeOutcome h o
  cases o with
  | noPresence | noResponse => exact hP.succeed (hP.endSession hw)
  | violation => exact hP.raise (hP.closeSession hw) _
  | crcBad => exact hP.nextRetry hw
  | valid => exact hP.deliver hw

theorem CommandStable.nextFirst (hP : CommandStable P) (h : P s) : P (nextFirst s) := by
  unfold Machine.nextFirst
  have hb := hP.beginPass (hP.clearResult h)
  split
  · exact startRoundTrip_keeps (hP.sent hb ..) (hP.raise (hP.closeSession hb) _)
  · exact hP.raise h _

theorem CommandStable.srchPass (hP : CommandStable P) (h : P s) (a : Bool) : P ((srchPassCommand a).turn s) :=
  passTurn_keeps (srchPass_runsPass a s.sstat) (fun _ => hP.raise (hP.serialRx h) _)
    (fun _ => hP.passEcho (hP.received h) _) (fun _ => hP.sent h) (fun _ => hP.raise h _)
    (fun _ _ => startRoundTrip_keeps (hP.sent (hP.beginPass h) ..) (hP.raise (hP.beginPass h) _))
    (fun o _ _ => hP.passFinish h o)

theorem CommandStable.srchNext (hP : CommandStable P) (h : P s) : P (srchNextCommand.turn s) :=
  passTurn_keeps (srchNext_runsPass s.sstat) (fun _ => hP.raise (hP.closeSession (hP.serialRx h)) _)
    (fun _ => hP.passEcho (hP.received h) _) (fun _ => hP.sent h) (fun _ => hP.raise (hP.closeSession h) _)
    (fun _ _ => hP.nextFirst h) (fun o _ _ => hP.nextFinish h o)

/-- A turn of any command. -/
theorem CommandStable.turn (hP : CommandStable P) (hread : Instr.isRead i → ∀ {s}, P s → P (finishRead s))
    (hcrc : Instr.isCrc i → ∀ {s}, P s → ∀ x, P { s with crc := x }) (h : P s) : P (Instr.turn i s) := by
  have codec (hi : Instr.isCodec i) : P (Instr.turn i s) :=
    hP.codecTurn hi (fun _ => hP.sample) (fun _ => hP.presence) hread h
  unfold Instr.isCodec at codec
  unfold Instr.isCrc at hcrc
  cases i with
  | owReset | owWrbit b | owRdbit | owWrbits n | owRdbits n | owWrbyte | owRdbyte => exact codec (by simp)
  | crcClr | crcBit b | crcBits n => exact hP.succeed (hcrc (by simp) h _)
  | srchBegin a => exact hP.succeed (hP.search h ..)
  | srchPass a => exact hP.srchPass h a
  | srchNext => exact hP.srchNext h
  | abort => exact h

/-- A turn of any word. -/
theorem CommandStable.wordTurn (hP : CommandStable P) {w : Word} (hread : ∀ {s}, P s → P (finishRead s))
    (hcrc : (∃ i, decode w = .legal i ∧ Instr.isCrc i) → ∀ {s}, P s → ∀ x, P { s with crc := x }) (h : P s) :
    P (wordTurn w s) := by
  unfold Machine.wordTurn
  cases hd : decode w with
  | illegal why => exact hP.raise h _
  | legal i => exact hP.turn (fun _ => hread) (fun hi => hcrc ⟨i, hd, hi⟩) h

/-! ### Commands, and the sequencer's and the host's part of a step -/

theorem RunStable.accept (hP : RunStable P) (h : P s) (w : Word) : P (accept w s) := hP.sequencer h ..

theorem RunStable.requestAbort (hP : RunStable P) (h : P s) : P (requestAbort s) := by
  unfold Machine.requestAbort
  split
  · exact h
  · exact hP.sequencer h ..

/-- A command other than ABORT is turns, from the block as it is or with the command just accepted. -/
theorem exec_eq_runTurns (hi : i ≠ .abort) (he : exec i s = .next t) :
    ∃ n u, (u = granted s ∨ u = accept (encode i) (granted s)) ∧ t = runTurns (Instr.turn i) n u := by
  rw [exec_launch hi] at he
  obtain rfl := Host.Outcome.next.inj he
  cases hp : s.seq.phase with
  | idle => exact ⟨_, _, .inr rfl, launch_idle hp⟩
  | run => exact ⟨_, _, .inl rfl, launch_run hp⟩

theorem RunStable.exec (hP : RunStable P) (hturn : ∀ {s}, P s → P (Instr.turn i s)) (h : P s)
    (he : exec i s = .next t) : P t := by
  by_cases hi : i = .abort
  · subst hi
    obtain rfl := Host.Outcome.next.inj he
    exact hP.requestAbort h
  · obtain ⟨n, u, hu, rfl⟩ := exec_eq_runTurns hi he
    have hPu : P u := by
      rcases hu with rfl | rfl
      · exact hP.granted h
      · exact hP.accept (hP.granted h) _
    exact runTurns_keeps (P := P) (fun _ _ => hturn) n hPu

theorem RunStable.sequencerStep (hP : RunStable P) (hturn : ∀ {u}, P u → P (wordTurn s.seq.cmdw u)) (h : P s)
    (ht : sequencerStep s = .next t) : P t := by
  rcases sequencerStep_cases ht with ⟨-, rfl⟩ | rfl | ⟨-, rfl⟩
  · exact hP.granted h
  · exact hP.requestAbort h
  · exact runTurns_keeps (P := P) (fun _ _ => hturn) _ (hP.granted h)

theorem RunStable.writeCmd (hP : RunStable P) {v : Word} (hover : P (overrun s)) (hturn : ∀ {u}, P u → P (wordTurn v u))
    (h : P s) (ht : writeCmd v s = .next t) : P t := by
  rcases writeCmd_cases ht with rfl | rfl | ⟨-, -, rfl⟩
  · exact hP.requestAbort h
  · exact hover
  · exact runTurns_keeps (P := P) (fun _ _ => hturn) _ (hP.accept (hP.granted h) _)

/-! ### The registers that commands leave alone -/

/-- What no command writes (10_state.md R25, R31, R34, R47; log entry 14). -/
def operandsOf (s : State) : DWord × Word × Word × Bool × List (BitVec 8 × Word) :=
  (s.data, s.timeout, s.retryLimit, s.status.ovr, s.world.reads)

theorem operandsOf_stable (x) : CommandStable fun s => operandsOf s = x where
  sequencer h _ _ := h
  granted h := by rw [← h]; simp [operandsOf, Machine.granted]
  sent h _ _ := h
  serialRx h := by rw [← h]; simp [operandsOf, serialRx_eq]
  received h := by rw [← h]; simp [operandsOf, Machine.received]
  raise h _ := h
  succeed h := h
  sample h _ := h
  presence h _ := h
  search h _ _ _ _ _ _ _ := h

/-- The registers of the Search Engine. -/
def searchRegs (s : State) : DWord × DWord × DWord × DWord × SStat × Word × Word :=
  (s.mask, s.nmask, s.cand, s.romid, s.sstat, s.retries, s.idcount)

theorem searchRegs_stable (x) : RunStable fun s => searchRegs s = x :=
  ⟨fun h _ _ => h, id, fun h _ _ => h, id, id, fun h _ => h, id⟩

theorem rx_stable (x : DWord) : CommandStable fun s => s.rx = x :=
  ⟨⟨fun h _ _ => h, id, fun h _ _ => h, id, id, fun h _ => h, id⟩, fun h _ => h, fun h _ => h,
    fun h _ _ _ _ _ _ _ => h⟩

theorem crc_stable (x : Byte) : CommandStable fun s => s.crc = x :=
  ⟨⟨fun h _ _ => h, id, fun h _ _ => h, id, id, fun h _ => h, id⟩, fun h _ => h, fun h _ => h,
    fun h _ _ _ _ _ _ _ => h⟩

/-- Every end of a command keeps ERR, or sets it. -/
theorem err_stable : CommandStable fun s => s.status.err = true :=
  ⟨⟨fun h _ _ => h, id, fun h _ _ => h, id, id, fun _ _ => rfl, id⟩, fun h _ => h, fun h _ => h,
    fun h _ _ _ _ _ _ _ => h⟩

theorem presence_stable (x : Bool) : RunStable fun s => s.status.presence = x :=
  ⟨fun h _ _ => h, id, fun h _ _ => h, id, id, fun h _ => h, id⟩

theorem sample_stable (x : Bool) : RunStable fun s => s.status.sample = x :=
  ⟨fun h _ _ => h, id, fun h _ _ => h, id, id, fun h _ => h, id⟩

/-- A command that is no read leaves RX. -/
theorem exec_rx (hi : ¬ Instr.isRead i) (he : exec i s = .next t) : t.rx = s.rx :=
  (rx_stable s.rx).exec (fun h => (rx_stable s.rx).turn (fun hr => absurd hr hi) (fun _ _ h _ => h) h) rfl he

/-- A command that is none of the CRC-8 Engine leaves CRC. -/
theorem exec_crc (hi : ¬ Instr.isCrc i) (he : exec i s = .next t) : t.crc = s.crc :=
  (crc_stable s.crc).exec (fun h => (crc_stable s.crc).turn (fun _ _ h => h) (fun hc => absurd hc hi) h) rfl he

/-- Settles O51: what no command writes, each command's turns keep. -/
theorem commandsLeaveOperandsAlone : Obligations.CommandsLeaveOperandsAlone := by
  intro i s t he
  have hP := operandsOf_stable (operandsOf s)
  have h := hP.exec (fun h => hP.turn (fun _ _ h => h) (fun _ _ h _ => h) h) rfl he
  simpa [operandsOf] using h

theorem Instr.isCodec.not_isCrc (hi : Instr.isCodec i) : ¬ Instr.isCrc i := by
  rcases hi with rfl | ⟨b, rfl⟩ | rfl | ⟨n, rfl⟩ | ⟨n, rfl⟩ | rfl | rfl <;> simp [Instr.isCrc]

/-- Settles O52, register by register. -/
theorem codecCommandsFrame : Obligations.CodecCommandsFrame := by
  intro i s t hi he
  have hregs : searchRegs t = searchRegs s :=
    have hP := searchRegs_stable (searchRegs s)
    hP.exec (hP.codecTurn hi (fun _ _ h _ => h) (fun _ _ h _ => h) (fun _ _ h => h)) rfl he
  have hpresence (hne : i ≠ .owReset) : t.status.presence = s.status.presence :=
    have hP := presence_stable s.status.presence
    hP.exec (hP.codecTurn hi (fun _ _ h _ => h) (fun hr => absurd hr hne) (fun _ _ h => h)) rfl he
  have hsample (hr : i = .owReset) : t.status.sample = s.status.sample :=
    have hP := sample_stable s.status.sample
    hP.exec (hP.codecTurn hi (fun hne => absurd hr hne) (fun _ _ h _ => h) (fun _ _ h => h)) rfl he
  have hrx (h1 : i ≠ .owRdbit) (h2 : ∀ n, i ≠ .owRdbits n) (h3 : i ≠ .owRdbyte) : t.rx = s.rx :=
    exec_rx (by simp [Instr.isRead, h1, h2, h3]) he
  simp only [searchRegs, Prod.mk.injEq] at hregs
  obtain ⟨h1, h2, h3, h4, h5, h6, h7⟩ := hregs
  exact ⟨exec_crc (Instr.isCodec.not_isCrc hi) he, h1, h2, h3, h4, h5, h6, h7, hrx, hpresence, hsample⟩

/-- What a command with no round trip leaves of RX, STATUS and the port (10_state.md R59, 40_signal_codec.md R111). -/
def portOf (s : State) : DWord × Status × List SerialEvent × List (List Byte) × Nat :=
  (s.rx, { s.status with errcode := .ok }, s.world.events, s.world.answers, s.world.draws)

/-- Acceptance and the grant leave that alone, and so does a body that only succeeds. -/
theorem launch_portOf {w : Word} {body : State → State} (hbody : ∀ s, portOf (body s) = portOf s) (s : State) :
    portOf (launch w body s) = portOf s :=
  launch_keeps (P := fun u => portOf u = portOf s) (fun _ _ h => h)
    (fun u h => by rw [← h]; simp [portOf, granted]) (fun u _ h => (hbody u).trans h) rfl

/-- Settles O53: the bodies of the four commands, and the registers they do not name. -/
theorem localCommandsFrame : Obligations.LocalCommandsFrame := by
  intro i s t hi he
  have hport : portOf t = portOf s := by
    rcases hi with rfl | ⟨b, rfl⟩ | ⟨n, rfl⟩ | ⟨a, rfl⟩ <;> obtain rfl := Host.Outcome.next.inj he <;>
      refine launch_portOf (fun u => ?_) s <;> rfl
  have hcrc (hb : ∃ a, i = .srchBegin a) : t.crc = s.crc := by
    obtain ⟨a, rfl⟩ := hb
    exact exec_crc (by simp [Instr.isCrc]) he
  have hregs (hb : ∀ a, i ≠ .srchBegin a) : searchRegs t = searchRegs s := by
    have hP := searchRegs_stable (searchRegs s)
    refine hP.exec (fun h => ?_) rfl he
    rcases hi with rfl | ⟨b, rfl⟩ | ⟨n, rfl⟩ | ⟨a, rfl⟩
    · exact h
    · exact h
    · exact h
    · exact absurd rfl (hb a)
  simp only [portOf, searchRegs, Prod.mk.injEq] at hport hregs
  obtain ⟨h1, h2, h3, h4, h5⟩ := hport
  exact ⟨h1, h2, h3, h4, h5, hcrc, hregs⟩

/-- A turn of a read command leaves RX, or it is the turn that ends the command well. -/
theorem readSlots_rx (n : Nat) (s : State) :
    ((readSlotsCommand n).turn s).rx = s.rx ∨
      ((readSlotsCommand n).turn s).seq.phase = .idle ∧ ((readSlotsCommand n).turn s).status.errcode = .ok :=
  slotTurn_keeps (P := fun u => u.rx = s.rx ∨ u.seq.phase = .idle ∧ u.status.errcode = .ok)
    (c := readSlotsCommand n) rfl rfl rfl (fun _ => .inl rfl) (fun _ _ => .inl rfl) (fun _ _ => .inl rfl)
    (fun _ _ => .inl rfl) (fun _ _ => .inr ⟨rfl, rfl⟩)

theorem Instr.isRead.turn_eq (hi : Instr.isRead i) : ∃ n, Instr.turn i = (readSlotsCommand n).turn := by
  rcases hi with rfl | ⟨n, rfl⟩ | rfl
  · exact ⟨1, rfl⟩
  · exact ⟨n, rfl⟩
  · exact ⟨8, rfl⟩

/-- Settles O55: RX changes in no turn but a read command's last. -/
theorem rxChangesOnlyWhereReadEndsWell : Obligations.RxChangesOnlyWhereReadEndsWell := by
  intro i s t he hne
  by_cases hi : Instr.isRead i
  · have hna : i ≠ .abort := by rintro rfl; simp [Instr.isRead] at hi
    obtain ⟨n, u, hu, rfl⟩ := exec_eq_runTurns hna he
    obtain ⟨m, hm⟩ := hi.turn_eq
    rw [hm] at hne ⊢
    have hurx : u.rx = s.rx := by rcases hu with rfl | rfl <;> rfl
    have hkeep := runTurns_keeps (P := fun v => v.rx = s.rx ∨ v.seq.phase = .idle ∧ v.status.errcode = .ok)
      (turn := (readSlotsCommand m).turn) (fun v hrun hv => ?_) n (.inl hurx)
    · exact ⟨hi, hkeep.resolve_left hne⟩
    · rcases hv with hv | ⟨hidle, -⟩
      · exact hv ▸ readSlots_rx m v
      · rw [hrun] at hidle; cases hidle
  · exact absurd (exec_rx hi he) hne

/-- A write that clears ERR is one of STATUS with bit 1 set. -/
theorem writeReg_err {v : Word} {r : Reg} (hs : s.status.err = true) (hc : (writeReg v s r).status.err = false) :
    r = .status ∧ v.getLsbD 1 = true := by
  have hset {u : State} (hu : u.status.err = s.status.err) (h : u.status.err = false) :
      r = .status ∧ v.getLsbD 1 = true := by
    rw [hu, hs] at h
    cases h
  refine writeReg_keeps (P := fun u => u.status.err = false → r = .status ∧ v.getLsbD 1 = true) (hset rfl) (hset rfl)
    (fun hr h => ⟨hr, ?_⟩) (fun _ => hset rfl) (fun _ _ _ _ => hset rfl) hc
  simpa [Status.clearSticky, hs] using h

/-- Settles O56: every move but those named leaves ERR set. -/
theorem errIsSticky : Obligations.ErrIsSticky := by
  intro s t herr hstep hclear
  have hset {u : State} (hu : u.status.err = true) (h : u.status.err = false) : False := by simp [hu] at h
  have hturn {w : Word} {u : State} : u.status.err = true → (wordTurn w u).status.err = true :=
    err_stable.wordTurn id fun _ _ h _ => h
  cases step_cases hstep with
  | turns ht => exact (hset (err_stable.sequencerStep hturn herr ht) hclear).elim
  | blockReset rest hm => exact ⟨rest, .inl hm⟩
  | resetWithin rest hm => exact ⟨rest, .inr (.inl hm)⟩
  | read addr rest => exact (hset herr hclear).elim
  | unmapped rest => exact (hset herr hclear).elim
  | write r v rest hm =>
    obtain ⟨rfl, hv⟩ := writeReg_err (s := withMoves rest s) herr hclear
    exact ⟨rest, .inr (.inr ⟨v, hv, hm⟩)⟩
  | command v rest _ hc => exact (hset (err_stable.writeCmd (s := withMoves rest s) herr hturn herr hc) hclear).elim

/-- A write that changes CRC is one of CRC. -/
theorem writeReg_crc {v : Word} {r : Reg} (h : (writeReg v s r).crc ≠ s.crc) : r = .crc := by
  have hsame {u : State} (hu : u.crc = s.crc) (hne : u.crc ≠ s.crc) : r = .crc := absurd hu hne
  exact writeReg_keeps (P := fun u => u.crc ≠ s.crc → r = .crc) (hsame rfl) (hsame rfl) (fun _ => hsame rfl)
    (fun hr _ => hr) (fun _ _ _ _ => hsame rfl) h

/-- A word whose turns change CRC is that of a command of the CRC-8 Engine. -/
theorem wordTurn_crc {w : Word} (x : Byte) (hw : ¬ ∃ i, decode w = .legal i ∧ Instr.isCrc i) {u : State}
    (h : u.crc = x) : (wordTurn w u).crc = x :=
  (crc_stable x).wordTurn id (fun hc => absurd hc hw) h

/-- Settles O57: every move but those named leaves CRC. -/
theorem crcRegisterHasThreeWriters : Obligations.CrcRegisterHasThreeWriters := by
  intro s t hstep hne
  cases step_cases hstep with
  | turns ht =>
    by_cases hw : ∃ i, decode s.seq.cmdw = .legal i ∧ Instr.isCrc i
    · obtain ⟨i, hd, hi⟩ := hw
      exact .inr (.inr ⟨_, i, .inl rfl, hd, hi⟩)
    · exact absurd ((crc_stable s.crc).sequencerStep (wordTurn_crc _ hw) rfl ht) hne
  | blockReset rest hm => exact .inl ⟨rest, .inl hm⟩
  | resetWithin rest hm => exact .inl ⟨rest, .inr hm⟩
  | read addr rest => exact absurd rfl hne
  | unmapped rest => exact absurd rfl hne
  | write r v rest hm =>
    obtain rfl := writeReg_crc (s := withMoves rest s) hne
    exact .inr (.inl ⟨v, rest, hm⟩)
  | command v rest hm hc =>
    by_cases hw : ∃ i, decode v = .legal i ∧ Instr.isCrc i
    · obtain ⟨i, hd, hi⟩ := hw
      exact .inr (.inr ⟨v, i, .inr ⟨rest, hm⟩, hd, hi⟩)
    · exact absurd ((crc_stable s.crc).writeCmd (s := withMoves rest s) rfl (wordTurn_crc _ hw) rfl hc) hne

end Sys2Proof.Machine

/-! SUPPORT. The register window: the layout of the words, and what a read and a write do. -/

namespace Sys2Proof.Machine

variable {s : State}

/-! ### Fields in words (spec/00_scope.md R7) -/

theorem atBit_getLsbD {n : Nat} (v : BitVec n) (lo k : Nat) :
    (atBit v lo).getLsbD k = (decide (k < 32) && decide (lo ≤ k) && v.getLsbD (k - lo)) := by
  simp only [atBit, BitVec.getLsbD_shiftLeft, BitVec.getLsbD_setWidth]
  by_cases h1 : k < 32 <;> by_cases h2 : lo ≤ k
  · simp [h1, h2, show k - lo < 32 by omega]
  · simp [h1, h2]
  · simp [h1]
  · simp [h1]

/-- Masking a field placed in a word masks the field. -/
theorem atBit_and {n : Nat} (v : BitVec n) (lo : Nat) (w : Word) :
    atBit v lo &&& w = atBit (v &&& w.extractLsb' lo n) lo := by
  apply BitVec.eq_of_getLsbD_eq
  intro k hk
  simp only [BitVec.getLsbD_and, atBit_getLsbD, BitVec.getLsbD_extractLsb']
  by_cases hlo : lo ≤ k
  · by_cases hn : k - lo < n
    · simp [hn, Nat.add_sub_cancel' hlo, Bool.and_assoc]
    · simp [BitVec.getLsbD_of_ge v _ (Nat.not_lt.mp hn)]
  · simp [hlo]

/-- Masking a flag. -/
theorem flagAt_and (b : Bool) (k : Nat) (w : Word) : flagAt b k &&& w = flagAt (b && w.getLsbD k) k := by
  rw [flagAt, atBit_and, flagAt]
  congr 1
  ext i hi
  obtain rfl : i = 0 := by omega
  simp

@[simp] theorem flagAt_false (k : Nat) : flagAt false k = 0#32 := by simp [flagAt, atBit]

/-- A field placed below all that a word holds is added to it. -/
theorem or_atBit_toNat {n lo : Nat} {x : Word} (v : BitVec n) (hx : x.toNat % 2 ^ (lo + n) = 0) (h : lo + n ≤ 32) :
    (x ||| atBit v lo).toNat = x.toNat + 2 ^ lo * v.toNat := by
  obtain ⟨q, hq⟩ := Nat.dvd_of_mod_eq_zero hx
  have hlt : v.toNat * 2 ^ lo < 2 ^ (lo + n) := by
    rw [Nat.pow_add, Nat.mul_comm]
    exact Nat.mul_lt_mul_of_pos_left v.isLt (Nat.two_pow_pos lo)
  have hle : 2 ^ (lo + n) ≤ 2 ^ 32 := Nat.pow_le_pow_right (by decide) h
  have hv : (atBit v lo).toNat = v.toNat * 2 ^ lo := by
    have hv32 : v.toNat < 2 ^ 32 := lt_of_lt_of_le v.isLt (Nat.pow_le_pow_right (by decide) (by omega))
    simp only [atBit, BitVec.toNat_shiftLeft, BitVec.toNat_setWidth, Nat.shiftLeft_eq, Nat.mod_eq_of_lt hv32]
    exact Nat.mod_eq_of_lt (hlt.trans_le hle)
  rw [BitVec.toNat_or, hv, hq, ← Nat.two_pow_add_eq_or_of_lt hlt, Nat.mul_comm v.toNat]

theorem or_flagAt_toNat {k : Nat} {x : Word} (b : Bool) (hx : x.toNat % 2 ^ (k + 1) = 0) (h : k + 1 ≤ 32) :
    (x ||| flagAt b k).toNat = x.toNat + 2 ^ k * b.toNat := by
  rw [flagAt, or_atBit_toNat _ hx h, BitVec.toNat_ofBool]

theorem atBit_toNat {n lo : Nat} (v : BitVec n) (h : lo + n ≤ 32) : (atBit v lo).toNat = 2 ^ lo * v.toNat := by
  have h0 := or_atBit_toNat (x := 0#32) v (Nat.zero_mod _) h
  simpa using h0

/-! ### STATUS and SSTAT as words (10_state.md R22 to R30, R39 to R45) -/

theorem statusWord_toNat (busy : Bool) (st : Status) :
    (st.word busy).toNat = busy.toNat + 2 * st.err.toNat + 4 * st.adv.toNat + 8 * st.ovr.toNat
      + 16 * st.presence.toNat + 32 * st.sample.toNat + 64 * st.rate.bit.toNat + 256 * st.errcode.code.toNat := by
  unfold Status.word
  have h8 := atBit_toNat st.errcode.code (lo := 8) (by decide)
  have h6 := or_flagAt_toNat (k := 6) (x := atBit st.errcode.code 8) st.rate.bit (by omega) (by decide)
  have h5 := or_flagAt_toNat (k := 5) st.sample (by rw [h6]; omega) (by decide)
  have h4 := or_flagAt_toNat (k := 4) st.presence (by rw [h5]; omega) (by decide)
  have h3 := or_flagAt_toNat (k := 3) st.ovr (by rw [h4]; omega) (by decide)
  have h2 := or_flagAt_toNat (k := 2) st.adv (by rw [h3]; omega) (by decide)
  have h1 := or_flagAt_toNat (k := 1) st.err (by rw [h2]; omega) (by decide)
  have h0 := or_flagAt_toNat (k := 0) busy (by rw [h1]; omega) (by decide)
  omega

theorem sstatWord_toNat (ss : SStat) :
    ss.word.toNat = ss.active.toNat + 2 * ss.done.toNat + 4 * ss.alarm.toNat + 8 * ss.idv.toNat
      + 16 * (poutCode ss.pout).toNat + 256 * ss.scrc.toNat + 65536 * ss.failPos.toNat := by
  unfold SStat.word
  have h16 := atBit_toNat ss.failPos (lo := 16) (by decide)
  have h8 := or_atBit_toNat (lo := 8) (x := atBit ss.failPos 16) ss.scrc (by omega) (by decide)
  have h4 := or_atBit_toNat (lo := 4) (poutCode ss.pout) (by rw [h8]; omega) (by decide)
  have h3 := or_flagAt_toNat (k := 3) ss.idv (by rw [h4]; omega) (by decide)
  have h2 := or_flagAt_toNat (k := 2) ss.alarm (by rw [h3]; omega) (by decide)
  have h1 := or_flagAt_toNat (k := 1) ss.done (by rw [h2]; omega) (by decide)
  have h0 := or_flagAt_toNat (k := 0) ss.active (by rw [h1]; omega) (by decide)
  omega

/-- `X = X_HI ++ X_LO` (20_memory.md R63). -/
theorem hiHalf_append_loHalf (x : DWord) : hiHalf x ++ loHalf x = x := BitVec.extractLsb'_append_extractLsb'

/-- Settles O45: the words as sums of their fields, the codes, and the halves. -/
theorem statusAndSstatLayout : Obligations.StatusAndSstatLayout := by
  intro s
  refine ⟨(statusWord_toNat s.busy s.status).trans ?_, (sstatWord_toNat s.sstat).trans ?_, ?_,
    rfl, BitVec.toNat_setWidth_of_le (by decide), rfl, rfl, rfl, rfl, rfl⟩
  · refine congrArg₂ (· + ·) (congrArg₂ (· + ·) rfl ?_) ?_
    · cases s.status.rate <;> rfl
    · cases s.status.errcode <;> rfl
  · refine congrArg₂ (· + ·) (congrArg₂ (· + ·) (congrArg₂ (· + ·) rfl ?_) rfl) rfl
    cases s.sstat.pout with
    | none => rfl
    | some o => cases o <;> rfl
  · exact ⟨hiHalf_append_loHalf _, hiHalf_append_loHalf _, hiHalf_append_loHalf _, hiHalf_append_loHalf _,
      hiHalf_append_loHalf _, hiHalf_append_loHalf _⟩

/-! ### Masks of the words -/

/-- Masking STATUS masks each of its fields. -/
theorem statusWord_and (busy : Bool) (st : Status) (w : Word) :
    st.word busy &&& w = atBit (st.errcode.code &&& w.extractLsb' 8 4) 8 ||| flagAt (st.rate.bit && w.getLsbD 6) 6
      ||| flagAt (st.sample && w.getLsbD 5) 5 ||| flagAt (st.presence && w.getLsbD 4) 4 ||| flagAt (st.ovr && w.getLsbD 3) 3
      ||| flagAt (st.adv && w.getLsbD 2) 2 ||| flagAt (st.err && w.getLsbD 1) 1 ||| flagAt (busy && w.getLsbD 0) 0 := by
  simp only [Status.word, BitVec.and_or_distrib_right, flagAt_and, atBit_and]

/-- No field stands in a reserved bit of STATUS (R30). -/
theorem statusWord_reserved (busy : Bool) (st : Status) : st.word busy &&& 0xFFFFF080#32 = 0#32 := by
  rw [statusWord_and]
  simp [atBit]

theorem busyStatusWord_reserved (draw : Word) (st : Status) : busyStatusWord draw st &&& 0xFFFFF080#32 = 0#32 := by
  have hopen : statusOpenBits &&& 0xFFFFF080#32 = 0#32 := by decide
  rw [busyStatusWord, BitVec.and_or_distrib_right, BitVec.and_assoc, hopen, BitVec.and_assoc, BitVec.and_comm (~~~_),
    ← BitVec.and_assoc, statusWord_reserved]
  simp

/-- BUSY and OVR in their bits (R22, R25). -/
theorem statusWord_bits (busy : Bool) (st : Status) :
    (st.word busy).getLsbD 0 = busy ∧ (st.word busy).getLsbD 3 = st.ovr := by
  simp only [Status.word, flagAt, BitVec.getLsbD_or, atBit_getLsbD]
  simp

/-- A bit that no running command writes reads its value (R58). -/
theorem busyStatusWord_getLsbD (draw : Word) (st : Status) {k : Nat} (hk : k < 32)
    (h : statusOpenBits.getLsbD k = false) : (busyStatusWord draw st).getLsbD k = (st.word true).getLsbD k := by
  rw [busyStatusWord, BitVec.getLsbD_or, BitVec.getLsbD_and, BitVec.getLsbD_and, BitVec.getLsbD_not, h]
  simp [hk]

/-- A write of STATUS clears the bits 1 to 3 that it has a 1 in. -/
theorem clearSticky_word (v : Word) (busy : Bool) (st : Status) :
    (st.clearSticky v).word busy = st.word busy &&& ~~~(v &&& 0x0000000E#32) := by
  have hcode : (~~~(v &&& 0x0000000E#32)).extractLsb' 8 4 = BitVec.allOnes 4 := by
    ext k hk
    interval_cases k <;> simp [BitVec.getElem_extractLsb']
  rw [statusWord_and, hcode, BitVec.and_allOnes]
  simp [Status.word, Status.clearSticky]

/-! ### Reads -/

theorem readValue_offset (draw : Word) (s : State) (r : Reg) :
    readValue draw s r.offset = if s.busy then busyValue draw s r else regValue s r := by
  unfold readValue
  rw [regAt_offset]

/-- The window ends with IDR at 0x50 (10_state.md R20). -/
theorem regAt_eq_none {addr : BitVec 8} (h : 0x54 ≤ addr.toNat) : regAt addr = none := by
  have hlt : ∀ r : Reg, r.offset.toNat < 0x54 := fun r => by cases r <;> decide
  cases hr : regAt addr with
  | none => rfl
  | some r =>
    have := hlt r
    rw [offset_of_regAt hr] at this
    omega

theorem readValue_unmapped (draw : Word) (s : State) {addr : BitVec 8} (h : 0x54 ≤ addr.toNat) :
    readValue draw s addr = 0#32 := by
  unfold readValue
  rw [regAt_eq_none h]

/-- The offsets of some registers as numbers, each with its value. -/
def offsetTable (s : State) (rs : List Reg) : List (Nat × Word) := rs.map fun r => (r.offset.toNat, regValue s r)

/-- What reads the value of each of some registers at its offset, reads the table of their offsets. -/
theorem eq_of_mem_offsetTable {addr : BitVec 8} {v : Word} {rs : List Reg}
    (hv : ∀ r ∈ rs, r.offset = addr → v = regValue s r) :
    ∀ e ∈ offsetTable s rs, addr.toNat = e.1 → v = e.2 := by
  intro e he ha
  obtain ⟨r, hr, rfl⟩ := List.mem_map.mp he
  exact hv r hr (BitVec.eq_of_toNat_eq ha.symm)

/-- A register that no running command writes reads its value, busy or not (R58). -/
theorem busyValue_fixed (draw : Word) (s : State) {r : Reg} (hr : r.openWhileBusy = false) :
    busyValue draw s r = regValue s r := by
  cases r with
  | cmd | dataLo | dataHi | timeout | retryLimit | idr => rfl
  | status | rxLo | rxHi | crc | maskLo | maskHi | nmaskLo | nmaskHi | candLo | candHi | romidLo | romidHi | sstat
  | retries | idcount => cases hr

/-- Settles O43: the offset table is that of all registers. -/
theorem idleReadsChangeNothing : Obligations.IdleReadsChangeNothing := by
  intro addr rest s hp ha hm
  have hb : s.busy = false := (busy_eq_false_iff s).mpr hp
  refine ⟨readValue (Config.freeRead s.world.draws) s addr, eq_of_mem_offsetTable (rs := allRegs) ?_,
    readValue_unmapped _ _, ?_⟩
  · rintro r - rfl
    rw [readValue_offset, hb]
    rfl
  · rw [step_hostRead ha hm]
    unfold hostRead
    rw [show (withMoves rest s).busy = false from hb]
    rfl

/-- Settles O44: what a busy read draws and what it keeps. -/
theorem busyReadsKeepWhatIsFixed : Obligations.BusyReadsKeepWhatIsFixed := by
  intro addr rest s hp ha hm
  have hb : s.busy = true := (busy_iff s).mpr hp
  generalize hdraw : Config.freeRead s.world.draws = draw
  have hread (r : Reg) (hr : r.offset = addr) : readValue draw s addr = busyValue draw s r := by
    rw [← hr, readValue_offset, hb]
    rfl
  have hfixed (r : Reg) (hr : r.offset = addr) (ho : r.openWhileBusy = false) : readValue draw s addr = regValue s r := by
    rw [hread r hr, busyValue_fixed _ _ ho]
  refine ⟨readValue draw s addr, (hostRead addr (withMoves rest s)).world.draws, ?_,
    eq_of_mem_offsetTable (rs := [.cmd, .dataLo, .dataHi, .timeout, .retryLimit, .idr]) ?_, hfixed, ?_, ?_, ?_,
    readValue_unmapped _ _⟩
  · rw [step_hostRead ha hm, ← hdraw]
    rfl
  · intro r hr hoff
    exact hfixed r hoff (by fin_cases hr <;> rfl)
  · rintro rfl
    rw [hread .status rfl]
    obtain ⟨h0, h3⟩ := statusWord_bits true s.status
    exact ⟨(busyStatusWord_getLsbD _ _ (by decide) (by decide)).trans h0,
      (busyStatusWord_getLsbD _ _ (by decide) (by decide)).trans h3, busyStatusWord_reserved _ _⟩
  · rintro rfl
    rw [hread .sstat rfl]
    show draw &&& sstatFieldBits &&& 0xFFC00080#32 = 0#32
    rw [BitVec.and_assoc, show sstatFieldBits &&& 0xFFC00080#32 = 0#32 by decide, BitVec.and_zero]
  · rintro rfl
    rw [hread .crc rfl]
    show draw &&& crcFieldBits &&& 0xFFFFFF00#32 = 0#32
    rw [BitVec.and_assoc, show crcFieldBits &&& 0xFFFFFF00#32 = 0#32 by decide, BitVec.and_zero]

/-- Settles O40: a write of STATUS clears sticky bits; a read gives 0 in the reserved bits. -/
theorem statusWriteClearsStickyBitsOnly : Obligations.StatusWriteClearsStickyBitsOnly := by
  refine ⟨fun v rest s hm => ⟨s.status.clearSticky v, ?_, clearSticky_word v s.busy s.status⟩, fun rest s hm => ?_⟩
  · rw [step_host hm, hostAccess_write (by decide)]
    exact hostWrite_offset (r := .status) nofun v _
  · refine ⟨readValue (Config.freeRead s.world.draws) s 0x04#8, _, ?_, step_hostRead (by decide) hm⟩
    rw [show (0x04#8 : BitVec 8) = Reg.status.offset from rfl, readValue_offset]
    split
    · exact busyStatusWord_reserved _ _
    · exact statusWord_reserved _ _

/-! ### Acceptance -/

/-- Where another than the sequencer acts next, no turns are granted. -/
theorem grant_eq_zero {w : World} {m : Move} {rest : List Move} (hw : w.moves = m :: rest) (hm : ∀ n, m ≠ .turns n) :
    w.grant = 0 ∧ w.useGrant = w := by
  unfold World.grant World.useGrant
  rw [hw]
  cases m with
  | turns n => exact absurd rfl (hm n)
  | host a | blockReset | blockResetAfterRate => exact ⟨rfl, rfl⟩

/-- Settles O38: the write is the acceptance alone. -/
theorem acceptanceSetsBusyAtOnce : Obligations.AcceptanceSetsBusyAtOnce := by
  intro w m rest s hw hp hm hnext
  obtain ⟨hgrant, huse⟩ := grant_eq_zero (w := s.world.setMoves (m :: rest)) rfl hnext
  refine ⟨{ Sequencer.idle with phase := .run, cmdw := w }, rfl, rfl, rfl, ?_⟩
  rw [step_host hm, hostAccess_write (by decide), hostWrite_cmd]
  have h := writeCmd_idle (s := withMoves (m :: rest) s) (v := w) hp hw
  rw [show (withMoves (m :: rest) s).world.grant = 0 from hgrant, runTurns_zero, granted,
    show (withMoves (m :: rest) s).world.useGrant = _ from huse] at h
  exact h

/-- Settles O48, register by register. -/
theorem registersReadTheirResetValues : Obligations.RegistersReadTheirResetValues :=
  ⟨rfl, rfl, fun r => by cases r <;> rfl⟩

end Sys2Proof.Machine

/-! SUPPORT. What a host access can do: it is refused, it changes one register, or it is lost (spec/20_memory.md R61 to
R65); and what every step leaves of the event history (R70). -/

namespace Sys2Proof.Machine

variable {s t : State}

/-! ### The event history -/

/-- A write of a register other than CMD touches nothing outside the block. -/
@[simp] theorem writeReg_world (v : Word) (s : State) (r : Reg) : (writeReg v s r).world = s.world :=
  writeReg_keeps (P := fun u => u.world = s.world) rfl rfl (fun _ => rfl) (fun _ => rfl) (fun _ _ _ _ => rfl)

theorem blockReset_events_prefix (s : State) : s.world.events <+: (blockReset s).world.events :=
  List.prefix_append _ _

/-- Block reset inside a turn keeps what happened before the turn. -/
theorem blockResetWithin_events_prefix (s t : State) : s.world.events <+: (blockResetWithin s t).world.events :=
  (List.prefix_append _ _).trans (List.prefix_append _ _)

theorem writeCmd_events_prefix {v : Word} (h : writeCmd v s = .next t) : s.world.events <+: t.world.events := by
  rcases writeCmd_cases h with rfl | rfl | ⟨-, -, rfl⟩
  · rw [requestAbort_world]
  · exact List.prefix_refl _
  · have hg : (accept v (granted s)).world.events = s.world.events := useGrant_events _
    exact hg ▸ runTurns_events_prefix _ _ _

theorem step_events_prefix (h : step s = .next t) : s.world.events <+: t.world.events := by
  cases step_cases h with
  | turns hs => exact sequencerStep_events_prefix hs
  | blockReset rest => exact blockReset_events_prefix (withMoves rest s)
  | resetWithin rest _ u => exact blockResetWithin_events_prefix (withMoves rest s) u
  | read addr rest => exact List.prefix_refl _
  | unmapped rest => exact List.prefix_refl _
  | write r v rest => rw [writeReg_world]; exact List.prefix_refl _
  | command v rest _ hc => exact writeCmd_events_prefix (s := withMoves rest s) hc

/-- Settles O58, by the cases of what a step can do. -/
theorem eventHistoryOnlyGrows : Obligations.EventHistoryOnlyGrows := by
  intro s t h
  obtain ⟨l, hl⟩ := step_events_prefix h
  exact ⟨l, hl.symm⟩

/-! ### Refused accesses (R61) -/

theorem hostAccess_read_refused_iff {addr : BitVec 8} {size : Nat} :
    (∃ r, hostAccess (.read addr size) s = .refused r) ↔ ¬(size = 4 ∧ addr.toNat % 4 = 0) := by
  rw [← accessDefined_iff]
  by_cases hd : accessDefined addr size = true <;> simp [hostAccess, hd]

theorem hostAccess_write_refused_iff {addr : BitVec 8} {size : Nat} {v : Word} :
    (∃ r, hostAccess (.write addr size v) s = .refused r) ↔ ¬(size = 4 ∧ addr.toNat % 4 = 0) := by
  obtain ⟨t, ht⟩ := hostWrite_isNext addr v s
  rw [← accessDefined_iff]
  by_cases hd : accessDefined addr size = true <;> simp [hostAccess, hd, ht]

/-- Only a host access can be refused: the sequencer's part and block reset always answer a next state. -/
theorem step_isNext (h : ∀ a rest, s.world.moves ≠ .host a :: rest) : ∃ t, step s = .next t := by
  cases hm : s.world.moves with
  | nil => exact step_nil hm ▸ sequencerStep_isNext s
  | cons m rest =>
    cases m with
    | host a => exact absurd hm (h a rest)
    | turns n => exact step_turns hm ▸ sequencerStep_isNext s
    | blockReset => exact ⟨_, step_blockReset hm⟩
    | blockResetAfterRate =>
      obtain ⟨u, hu⟩ := sequencerStep_isNext (withMoves [] s)
      exact ⟨_, step_resetWithin hm hu⟩

/-- Settles O46: a refusal can only come from a host access, and of those from the two misformed ones. -/
theorem onlyMisformedAccessesAreRefused : Obligations.OnlyMisformedAccessesAreRefused := by
  intro s
  by_cases hh : ∃ a rest, s.world.moves = .host a :: rest
  · obtain ⟨a, rest, hm⟩ := hh
    rw [step_host hm]
    cases a with
    | read addr size => simp [hostAccess_read_refused_iff, hm]
    | write addr size v => simp [hostAccess_write_refused_iff, hm]
  · simp only [not_exists] at hh
    obtain ⟨t, ht⟩ := step_isNext hh
    simp [ht, hh]

/-! ### Unmapped offsets (R62) -/

/-- A step of a host write. -/
theorem step_hostWrite {addr : BitVec 8} {v : Word} {rest : List Move} (ha : addr.toNat % 4 = 0)
    (hm : s.world.moves = .host (.write addr 4 v) :: rest) : step s = hostWrite addr v (withMoves rest s) :=
  (step_host hm).trans (hostAccess_write ha v _)

/-- Settles O41: no register stands at such an offset. -/
theorem unmappedOffsetsReadZeroAndIgnoreWrites : Obligations.UnmappedOffsetsReadZeroAndIgnoreWrites := by
  intro addr rest s hlow ha
  refine ⟨fun hm => ⟨(hostRead addr (withMoves rest s)).world.draws, ?_⟩, fun v hm => ?_⟩
  · rw [step_hostRead ha hm, ← readValue_unmapped (Config.freeRead s.world.draws) (withMoves rest s) hlow]
    rfl
  · rw [step_hostWrite ha hm]
    exact hostWrite_unmapped (regAt_eq_none hlow) v _

/-! ### Writes while a command runs (R65) -/

theorem offset_inj {r q : Reg} : r.offset = q.offset ↔ r = q := ⟨offset_injective, congrArg _⟩

theorem opcField_toNat (w : Word) : (opcField w).toNat = w.toNat % 256 := by simp [opcField]

/-- A word decodes to ABORT exactly by its low byte, whatever its other bits (R190). -/
theorem decode_abort_iff {w : Word} : decode w = .legal .abort ↔ w.toNat % 256 = 0x3F := by
  rw [← opcField_toNat]
  refine ⟨fun h => ?_, fun h => decode_of_abort (BitVec.eq_of_toNat_eq h)⟩
  unfold decode at h
  split at h
  · cases h
  · next op hop =>
    by_cases ha : op = .abort
    · subst ha
      have hrow : opcField w = 0x3F#8 := by simpa [opcodeMap] using opcodeOf_mem hop
      rw [hrow]
      rfl
    · rw [if_neg ha] at h
      split_ifs at h
      have hinstr := Decoded.legal.inj h
      cases op with
      | abort => exact absurd rfl ha
      | reset | wrbit | rdbit | wrbits | rdbits | wrbyte | rdbyte | crcClr | crcBit | crcBits | srchBegin | srchPass
      | srchNext => cases hinstr

theorem requestAbort_run (hp : s.seq.phase = .run) :
    requestAbort s = { s with seq := { s.seq with abortReq := true } } := by
  unfold requestAbort
  rw [hp]

/-- While a command runs, a write of CMD asks for an abort or is lost. -/
theorem writeCmd_busy (hb : s.busy = true) (v : Word) :
    writeCmd v s = .next (if decode v = .legal .abort then requestAbort s else overrun s) := by
  by_cases ha : decode v = .legal .abort
  · rw [if_pos ha, writeCmd, ha]
    rfl
  · rw [if_neg ha]
    unfold writeCmd
    split
    · next hd => exact absurd hd ha
    · rw [if_pos hb]
    · rw [if_pos hb]

/-- While a command runs, a write of a register other than CMD clears bits of STATUS, is lost with OVR where the host may
write the register, and else does nothing. -/
theorem writeReg_busy (hb : s.busy = true) (v : Word) (r : Reg) :
    writeReg v s r = if r = .status then { s with status := s.status.clearSticky v }
      else if r.readWrite then overrun s else s := by
  cases r with
  | dataLo | dataHi | crc | timeout | maskLo | maskHi | retryLimit => simp [writeReg, guardedWrite_busy hb, Reg.readWrite]
  | cmd | status | rxLo | rxHi | nmaskLo | nmaskHi | candLo | candHi | romidLo | romidHi | sstat | retries | idcount
  | idr => rfl

/-- The offsets R65 lists are those of CMD and of the registers the host may write (R20). -/
theorem offset_mem_writable_iff (r : Reg) :
    r.offset.toNat ∈ [0x00, 0x08, 0x0C, 0x18, 0x1C, 0x20, 0x24, 0x48] ↔ r = .cmd ∨ r.readWrite := by
  cases r <;> decide

theorem unmapped_not_mem_writable {addr : BitVec 8} (hu : regAt addr = none) :
    addr.toNat ∉ [0x00, 0x08, 0x0C, 0x18, 0x1C, 0x20, 0x24, 0x48] := by
  intro h
  have hmem : addr.toNat ∈ [Reg.cmd, .dataLo, .dataHi, .crc, .timeout, .maskLo, .maskHi, .retryLimit].map
    (·.offset.toNat) := h
  obtain ⟨r, -, hr⟩ := List.mem_map.mp hmem
  exact offset_ne_of_regAt hu r (BitVec.eq_of_toNat_eq hr)

/-- What a write of any offset does while a command runs. -/
theorem hostWrite_busy (hp : s.seq.phase = .run) (addr : BitVec 8) (v : Word) :
    hostWrite addr v s = .next (
      if addr = Reg.status.offset then { s with status := s.status.clearSticky v }
      else if addr = Reg.cmd.offset ∧ v.toNat % 256 = 0x3F then { s with seq := { s.seq with abortReq := true } }
      else if addr.toNat ∈ [0x00, 0x08, 0x0C, 0x18, 0x1C, 0x20, 0x24, 0x48] then overrun s
      else s) := by
  have hb : s.busy = true := (busy_iff s).mpr hp
  cases hr : regAt addr with
  | none =>
    have hne (r : Reg) : addr ≠ r.offset := (offset_ne_of_regAt hr r).symm
    rw [hostWrite_unmapped hr, if_neg (hne _), if_neg fun h => hne _ h.1, if_neg (unmapped_not_mem_writable hr)]
  | some r =>
    obtain rfl := offset_of_regAt hr
    simp only [offset_inj, offset_mem_writable_iff]
    by_cases hc : r = .cmd
    · subst hc
      rw [show hostWrite Reg.cmd.offset v s = writeCmd v s from hostWrite_cmd v s, writeCmd_busy hb, requestAbort_run hp]
      simp [decode_abort_iff]
    · rw [hostWrite_offset hc, writeReg_busy hb]
      simp [hc]

/-- Settles O39: the write that R65 loses is the one of CMD or of a register the host may write. -/
theorem writesWhileBusyAreLostWithOvr : Obligations.WritesWhileBusyAreLostWithOvr := by
  intro addr v rest s hp ha hm
  rw [step_hostWrite ha hm]
  exact hostWrite_busy (s := withMoves rest s) hp addr v

/-! ### Writes to an idle block (R64) -/

theorem joinHalves_eq_append (hi lo : Word) : joinHalves hi lo = hi ++ lo := by
  rw [← hiHalf_append_loHalf (joinHalves hi lo), hiHalf_joinHalves, loHalf_joinHalves]

/-- `s` after the write of `v` to the offset `addr`, each register by its own offset. -/
def idleWrite (addr : BitVec 8) (v : Word) (s : State) : State :=
  { s with
    status := if addr = Reg.status.offset then s.status.clearSticky v else s.status
    data := if addr = Reg.dataLo.offset then hiHalf s.data ++ v
      else if addr = Reg.dataHi.offset then v ++ loHalf s.data else s.data
    crc := if addr = Reg.crc.offset then v.extractLsb' 0 8 else s.crc
    timeout := if addr = Reg.timeout.offset then v else s.timeout
    mask := if addr = Reg.maskLo.offset then hiHalf s.mask ++ v
      else if addr = Reg.maskHi.offset then v ++ loHalf s.mask else s.mask
    retryLimit := if addr = Reg.retryLimit.offset then v else s.retryLimit }

theorem writeReg_idle (hb : s.busy = false) (v : Word) (r : Reg) : writeReg v s r = idleWrite r.offset v s := by
  cases r with
  | dataLo | dataHi | crc | timeout | maskLo | maskHi | retryLimit =>
    simp only [writeReg, guardedWrite_idle hb, withLo, withHi, joinHalves_eq_append]
    rfl
  | cmd | status | rxLo | rxHi | nmaskLo | nmaskHi | candLo | candHi | romidLo | romidHi | sstat | retries | idcount
  | idr => rfl

theorem hostWrite_idle (hb : s.busy = false) {addr : BitVec 8} (hc : addr ≠ Reg.cmd.offset) (v : Word) :
    hostWrite addr v s = .next (idleWrite addr v s) := by
  cases hr : regAt addr with
  | none =>
    have hne (r : Reg) : addr ≠ r.offset := (offset_ne_of_regAt hr r).symm
    rw [hostWrite_unmapped hr]
    simp [idleWrite, hne]
  | some r =>
    obtain rfl := offset_of_regAt hr
    rw [hostWrite_offset (fun h => hc (congrArg _ h)), writeReg_idle hb]

/-- The low half after a write at some offset: of the register `lo`, of the register `hi`, or of neither. -/
theorem loHalf_halfWritten (addr : BitVec 8) (lo hi : Reg) (x : DWord) (v : Word) :
    loHalf (if addr = lo.offset then hiHalf x ++ v else if addr = hi.offset then v ++ loHalf x else x) =
      if addr = lo.offset then v else loHalf x := by
  simp only [← joinHalves_eq_append]
  split_ifs <;> simp

/-- The high half after such a write. -/
theorem hiHalf_halfWritten (addr : BitVec 8) {lo hi : Reg} (hne : lo ≠ hi) (x : DWord) (v : Word) :
    hiHalf (if addr = lo.offset then hiHalf x ++ v else if addr = hi.offset then v ++ loHalf x else x) =
      if addr = hi.offset then v else hiHalf x := by
  simp only [← joinHalves_eq_append]
  by_cases h : addr = lo.offset
  · subst h
    simp [offset_inj, hne]
  · rw [if_neg h]
    split_ifs <;> simp

/-- Bits 7:0 alone (R33). -/
theorem zeroExtend_low_byte (v : Word) : (v.extractLsb' 0 8).zeroExtend 32 = v &&& 0x000000FF#32 := by
  apply BitVec.eq_of_toNat_eq
  have hlt : v.toNat % 256 < 4294967296 := by omega
  simpa [Nat.and_two_pow_sub_one_eq_mod _ 8] using hlt

/-- A write to an idle block leaves the registers at other offsets. -/
theorem regValue_idleWrite_ne {addr : BitVec 8} {r : Reg} (h : addr ≠ r.offset) (v : Word) (s : State) :
    regValue (idleWrite addr v s) r = regValue s r := by
  cases r with
  | status => exact congrArg (Status.word s.busy) (if_neg h)
  | dataLo | maskLo => exact (loHalf_halfWritten _ _ _ _ v).trans (if_neg h)
  | dataHi | maskHi => exact (hiHalf_halfWritten _ (by decide) _ v).trans (if_neg h)
  | crc => exact congrArg (BitVec.zeroExtend 32) (if_neg h)
  | timeout | retryLimit => exact if_neg h
  | cmd | rxLo | rxHi | nmaskLo | nmaskHi | candLo | candHi | romidLo | romidHi | sstat | retries | idcount | idr => rfl

/-- What a write to an idle block makes of the register at its offset. -/
theorem regValue_idleWrite_same (v : Word) (s : State) (r : Reg) : regValue (idleWrite r.offset v s) r =
    if r = .status then regValue s .status &&& ~~~(v &&& 0x0000000E#32)
    else if r = .crc then v &&& 0x000000FF#32
    else if r.readWrite then v
    else regValue s r := by
  cases r with
  | status => exact clearSticky_word v s.busy s.status
  | dataLo | maskLo => exact (loHalf_halfWritten _ _ _ _ v).trans (if_pos rfl)
  | dataHi | maskHi => exact (hiHalf_halfWritten _ (by decide) _ v).trans (if_pos rfl)
  | crc => exact zeroExtend_low_byte v
  | timeout | retryLimit => rfl
  | cmd | rxLo | rxHi | nmaskLo | nmaskHi | candLo | candHi | romidLo | romidHi | sstat | retries | idcount | idr => rfl

/-- Settles O42: the write, and the value of each register after it. -/
theorem idleWritesChangeOneRegister : Obligations.IdleWritesChangeOneRegister := by
  intro addr v rest s hp ha hc hm
  refine ⟨idleWrite addr v (withMoves rest s), ?_, rfl, fun r => ?_⟩
  · rw [step_hostWrite ha hm]
    exact hostWrite_idle ((busy_eq_false_iff (withMoves rest s)).mpr hp) hc v
  · by_cases hr : r.offset = addr
    · subst hr
      rw [if_neg (not_not_intro rfl)]
      exact regValue_idleWrite_same v (withMoves rest s) r
    · rw [if_pos hr]
      exact regValue_idleWrite_ne (Ne.symm hr) v (withMoves rest s)

end Sys2Proof.Machine

/-! SUPPORT. The decoder said once: the words it accepts and what it makes of each (spec/30_encoding.md R90 to R99). -/

namespace Sys2Proof

open Sys2Proof.Machine (opcField_toNat decode_abort_iff)

variable {op : Opcode} {w : Word} {i : Instr}

/-- The word passes the tests of R98 for the opcode `op`, which is not ABORT's. -/
structure Opcode.Fits (op : Opcode) (w : Word) : Prop where
  opcode : opcodeOf (opcField w) = some op
  notAbort : op ≠ .abort
  reserved : reservedSet w = false
  count : op.usesN = false → nField w = 0
  bit : op.usesB = false → bField w = false
  alarm : op.usesA = false → aField w = false
  bound : op.usesN = true → nField w ≤ nMax

/-- The command that a word stands for under the opcode `op`. -/
def Opcode.commandOf (op : Opcode) (w : Word) : Instr := op.instr (nField w) (bField w) (aField w)

/-- The decoder answers a command for the words with the opcode of ABORT and for those that pass every test, and for no
others. -/
theorem decode_eq_legal_iff :
    decode w = .legal i ↔ (w.toNat % 256 = 0x3F ∧ i = .abort) ∨ ∃ op : Opcode, op.Fits w ∧ i = op.commandOf w := by
  constructor
  · intro h
    by_cases hi : i = .abort
    · subst hi
      exact .inl ⟨decode_abort_iff.mp h, rfl⟩
    · right
      unfold decode at h
      split at h
      · cases h
      · next op hop =>
        split_ifs at h with h1 h2 h3 h4 h5 h6
        · exact absurd (Decoded.legal.inj h).symm hi
        · refine ⟨op, ⟨hop, h1, by simpa using h2, fun hu => ?_, fun hu => ?_, fun hu => ?_, fun hu => ?_⟩,
            (Decoded.legal.inj h).symm⟩
          · simpa [hu] using h3
          · simpa [hu] using h4
          · simpa [hu] using h5
          · simpa [hu] using h6
  · rintro (⟨hw, rfl⟩ | ⟨op, ⟨hop, hne, hr, hn, hb, ha, hle⟩, rfl⟩)
    · exact decode_abort_iff.mpr hw
    · unfold decode
      rw [hop]
      dsimp only
      rw [if_neg hne, if_neg (by simp [hr]), if_neg (by cases hu : op.usesN <;> simp_all),
        if_neg (by cases hu : op.usesB <;> simp_all), if_neg (by cases hu : op.usesA <;> simp_all),
        if_neg (by cases hu : op.usesN <;> simp_all)]
      rfl

/-- A word that passes the tests decodes to its command. -/
theorem Opcode.Fits.decode_eq (h : op.Fits w) : decode w = .legal (op.commandOf w) :=
  decode_eq_legal_iff.mpr (.inr ⟨op, h, rfl⟩)

/-- A command whose count, where its opcode uses one, is at most 64 is well-formed (R92). -/
theorem wellFormed_instr {n : Nat} {b a : Bool} (h : op.usesN = true → n ≤ nMax) : WellFormed (op.instr n b a) := by
  cases op with
  | wrbits | rdbits | crcBits => exact decide_eq_true (h rfl)
  | reset | wrbit | rdbit | wrbyte | rdbyte | crcClr | crcBit | srchBegin | srchPass | srchNext | abort => rfl

theorem Opcode.Fits.wellFormed (h : op.Fits w) : WellFormed (op.commandOf w) := wellFormed_instr h.bound

/-- The word of an opcode and its fields, the unused ones 0 and the count at most 64, decodes to their command. -/
theorem decode_commandWord {n : Nat} {b a : Bool} {o : Byte} (hop : opcodeOf o = some op) (hne : op ≠ .abort)
    (hle : n ≤ nMax) (hn : op.usesN = false → n = 0) (hb : op.usesB = false → b = false)
    (ha : op.usesA = false → a = false) : decode (commandWord a b n o) = .legal (op.instr n b a) := by
  have hmod : n % 128 = n := Nat.mod_eq_of_lt (lt_of_le_of_lt hle (by decide))
  have hfit : op.Fits (commandWord a b n o) :=
    ⟨by simpa using hop, hne, by simp, by simpa [hmod] using hn, by simpa using hb, by simpa using ha,
      fun _ => by simpa [hmod] using hle⟩
  rw [hfit.decode_eq]
  simp [Opcode.commandOf, hmod]

/-- Settles O1, command by command: each is an opcode with the fields that it uses. -/
theorem decodeOfEncodeIsTheCommand : Obligations.DecodeOfEncodeIsTheCommand := by
  intro i hi
  have hcount : ∀ {n : Nat}, countOk n = true → n ≤ nMax := of_decide_eq_true
  have h0 : 0 ≤ nMax := Nat.zero_le _
  cases i with
  | owReset => exact decode_commandWord (op := .reset) rfl nofun h0 (fun _ => rfl) (fun _ => rfl) fun _ => rfl
  | owWrbit b => exact decode_commandWord (op := .wrbit) rfl nofun h0 (fun _ => rfl) nofun fun _ => rfl
  | owRdbit => exact decode_commandWord (op := .rdbit) rfl nofun h0 (fun _ => rfl) (fun _ => rfl) fun _ => rfl
  | owWrbits n => exact decode_commandWord (op := .wrbits) rfl nofun (hcount hi) nofun (fun _ => rfl) fun _ => rfl
  | owRdbits n => exact decode_commandWord (op := .rdbits) rfl nofun (hcount hi) nofun (fun _ => rfl) fun _ => rfl
  | owWrbyte => exact decode_commandWord (op := .wrbyte) rfl nofun h0 (fun _ => rfl) (fun _ => rfl) fun _ => rfl
  | owRdbyte => exact decode_commandWord (op := .rdbyte) rfl nofun h0 (fun _ => rfl) (fun _ => rfl) fun _ => rfl
  | crcClr => exact decode_commandWord (op := .crcClr) rfl nofun h0 (fun _ => rfl) (fun _ => rfl) fun _ => rfl
  | crcBit b => exact decode_commandWord (op := .crcBit) rfl nofun h0 (fun _ => rfl) nofun fun _ => rfl
  | crcBits n => exact decode_commandWord (op := .crcBits) rfl nofun (hcount hi) nofun (fun _ => rfl) fun _ => rfl
  | srchBegin a => exact decode_commandWord (op := .srchBegin) rfl nofun h0 (fun _ => rfl) (fun _ => rfl) nofun
  | srchPass a => exact decode_commandWord (op := .srchPass) rfl nofun h0 (fun _ => rfl) (fun _ => rfl) nofun
  | srchNext => exact decode_commandWord (op := .srchNext) rfl nofun h0 (fun _ => rfl) (fun _ => rfl) fun _ => rfl
  | abort => exact decode_of_abort (by simp [encode])

/-- Settles O2: the count was tested, and a word that passes the tests is the word of its fields. -/
theorem decodedCommandEncodesToItsWord : Obligations.DecodedCommandEncodesToItsWord := by
  intro w i h
  refine ⟨?_, encode_of_decode h⟩
  obtain ⟨-, rfl⟩ | ⟨op, hfit, rfl⟩ := decode_eq_legal_iff.mp h
  · rfl
  · exact hfit.wellFormed

/-- Settles O4: the words are those that the encoder makes, and the last one has the opcode of ABORT. -/
theorem writtenOutWordsDecode : Obligations.WrittenOutWordsDecode :=
  have h := decodeOfEncodeIsTheCommand
  ⟨h .owReset rfl, h (.owWrbit true) rfl, h (.owWrbits 8) rfl, h (.owRdbits 64) rfl, h (.crcBit true) rfl,
    h (.crcBits 56) rfl, h (.srchBegin true) rfl, h (.srchPass true) rfl, h .srchNext rfl, decode_of_abort rfl⟩

end Sys2Proof

/-! SUPPORT. The tests of R98 as arithmetic on the word (spec/30_encoding.md R90 to R99). -/

namespace Sys2Proof

open Sys2Proof.Machine (opcField_toNat decode_abort_iff illegalWord)

variable {op : Opcode} {w : Word}

theorem nField_eq (w : Word) : nField w = w.toNat / 2 ^ 8 % 128 := by
  simp [nField, BitVec.extractLsb'_toNat, Nat.shiftRight_eq_div_pow]

theorem bField_eq_false_iff (w : Word) : bField w = false ↔ w.toNat / 2 ^ 16 % 2 = 0 := by
  simp [bField, BitVec.getLsbD, Nat.testBit_eq_decide_div_mod_eq]

theorem aField_eq_false_iff (w : Word) : aField w = false ↔ w.toNat / 2 ^ 17 % 2 = 0 := by
  simp [aField, BitVec.getLsbD, Nat.testBit_eq_decide_div_mod_eq]

theorem reservedSet_eq_false_iff (w : Word) :
    reservedSet w = false ↔ w.toNat / 2 ^ 18 = 0 ∧ w.toNat / 2 ^ 15 % 2 = 0 := by
  have hlt : w.toNat / 2 ^ 18 < 2 ^ 14 := by omega
  have h18 : w.extractLsb' 18 14 = 0#14 ↔ w.toNat / 2 ^ 18 = 0 := by
    rw [← BitVec.toNat_inj, BitVec.extractLsb'_toNat, Nat.shiftRight_eq_div_pow, Nat.mod_eq_of_lt hlt]
    rfl
  simp [reservedSet, h18, BitVec.getLsbD, Nat.testBit_eq_decide_div_mod_eq]

/-- The opcodes R96 lists, without ABORT's. -/
def commandOpcodes : List Nat := [0x01, 0x02, 0x03, 0x04, 0x05, 0x06, 0x07, 0x10, 0x11, 0x12, 0x20, 0x21, 0x22]

/-- The map gives an opcode other than ABORT for these and no others. -/
theorem exists_opcodeOf_iff {o : Byte} : (∃ op, opcodeOf o = some op ∧ op ≠ .abort) ↔ o.toNat ∈ commandOpcodes := by
  constructor
  · rintro ⟨op, hop, hne⟩
    have hrows : ∀ row ∈ opcodeMap, row.2 ≠ .abort → row.1.toNat ∈ commandOpcodes := by decide
    exact hrows _ (opcodeOf_mem hop) hne
  · intro ho
    have hrows : ∀ n ∈ commandOpcodes, ∃ row ∈ opcodeMap, opcodeOf (BitVec.ofNat 8 n) = some row.2 ∧ row.2 ≠ .abort := by
      decide
    obtain ⟨row, -, hop, hne⟩ := hrows _ ho
    exact ⟨row.2, by simpa using hop, hne⟩

/-- The opcodes that use N, B and A (R92 to R94). -/
theorem uses_iff {o : Byte} (h : opcodeOf o = some op) :
    (op.usesN = true ↔ o.toNat ∈ [0x04, 0x05, 0x12]) ∧ (op.usesB = true ↔ o.toNat ∈ [0x02, 0x11]) ∧
      (op.usesA = true ↔ o.toNat ∈ [0x20, 0x21]) := by
  have hrows : ∀ row ∈ opcodeMap, (row.2.usesN = true ↔ row.1.toNat ∈ [0x04, 0x05, 0x12]) ∧
      (row.2.usesB = true ↔ row.1.toNat ∈ [0x02, 0x11]) ∧ (row.2.usesA = true ↔ row.1.toNat ∈ [0x20, 0x21]) := by
    decide
  exact hrows _ (opcodeOf_mem h)

/-- A word of a command's opcode passes the tests exactly where the arithmetic finds none that it fails. -/
theorem Opcode.fits_iff (hop : opcodeOf (opcField w) = some op) (hne : op ≠ .abort) :
    op.Fits w ↔ ¬illegalWord w := by
  have hfields : op.Fits w ↔ reservedSet w = false ∧ (op.usesN = false → nField w = 0) ∧
      (op.usesB = false → bField w = false) ∧ (op.usesA = false → aField w = false) ∧
      (op.usesN = true → nField w ≤ nMax) :=
    ⟨fun h => ⟨h.reserved, h.count, h.bit, h.alarm, h.bound⟩,
      fun ⟨hr, hn, hb, ha, hle⟩ => ⟨hop, hne, hr, hn, hb, ha, hle⟩⟩
  have hopc := exists_opcodeOf_iff.mp ⟨op, hop, hne⟩
  obtain ⟨hN, hB, hA⟩ := uses_iff hop
  rw [hfields]
  simp only [← Bool.not_eq_true, hN, hB, hA]
  simp only [Bool.not_eq_true, opcField_toNat, reservedSet_eq_false_iff, bField_eq_false_iff, aField_eq_false_iff,
    nField_eq, ← Nat.not_lt, nMax, commandOpcodes] at hopc ⊢
  unfold illegalWord
  simp only [not_or, not_and, not_not, ne_eq, hopc, true_and, and_assoc]
  exact and_congr_right' (and_congr_right'
    (and_congr not_imp_comm (and_congr not_imp_comm (and_congr not_imp_comm Iff.rfl))))

/-- The words that pass the tests for some opcode are those that the arithmetic finds legal. -/
theorem exists_fits_iff : (∃ op : Opcode, op.Fits w) ↔ ¬illegalWord w := by
  constructor
  · rintro ⟨op, h⟩
    exact (op.fits_iff h.opcode h.notAbort).mp h
  · intro h
    have hopc := not_not.mp (not_or.mp h).1
    rw [← opcField_toNat] at hopc
    obtain ⟨op, hop, hne⟩ := exists_opcodeOf_iff.mpr hopc
    exact ⟨op, (op.fits_iff hop hne).mpr h⟩

/-- A word decodes to a command exactly where its low byte is ABORT's or it fails no test (R98, R190). -/
theorem exists_legal_iff : (∃ i, decode w = .legal i) ↔ w.toNat % 256 = 0x3F ∨ ¬illegalWord w := by
  rw [← exists_fits_iff]
  constructor
  · rintro ⟨i, h⟩
    obtain ⟨hw, -⟩ | ⟨op, hfit, -⟩ := decode_eq_legal_iff.mp h
    · exact .inl hw
    · exact .inr ⟨op, hfit⟩
  · rintro (hw | ⟨op, hfit⟩)
    · exact ⟨.abort, decode_abort_iff.mpr hw⟩
    · exact ⟨_, hfit.decode_eq⟩

/-- Settles O3: a word is rejected where it decodes to no command. -/
theorem rejectedWordsAreTheIllegalOnes : Obligations.RejectedWordsAreTheIllegalOnes := by
  intro w
  have h : (∃ why, decode w = .illegal why) ↔ ¬∃ i, decode w = .legal i := by
    cases decode w <;> simp
  rw [h, exists_legal_iff, not_or, not_not]

end Sys2Proof

/-! SUPPORT. What a step makes of a command word: one that the host writes to CMD, and one that is latched
(spec/30_encoding.md R98, 10_state.md R50, 60_exceptions.md R211). -/

namespace Sys2Proof.Machine

variable {s : State} {w : Word} {i : Instr} {why : DecodeError} {rest : List Move}

/-- A step of a write of CMD. -/
theorem step_cmdWrite (hm : s.world.moves = .host (.write 0x00#8 4 w) :: rest) :
    step s = writeCmd w (withMoves rest s) :=
  step_hostWrite (by decide) hm

/-- An ABORT written to CMD reaches the block in every phase (R190). -/
theorem writeCmd_abort (hd : decode w = .legal .abort) : writeCmd w s = exec .abort s := by
  unfold writeCmd
  rw [hd]

/-- A command's word written to CMD of an idle block is executed. -/
theorem writeCmd_legal (hd : decode w = .legal i) (hp : s.seq.phase = .idle) : writeCmd w s = exec i s := by
  by_cases hi : i = .abort
  · subst hi
    exact writeCmd_abort hd
  · rw [writeCmd_idle hp (by simp [hd, hi]), exec_launch hi, launch_idle hp, encode_of_decode hd hi, wordTurn, hd]

/-- An idle block ignores an ABORT (R190). -/
theorem requestAbort_idle (hp : s.seq.phase = .idle) : requestAbort s = s := by
  unfold requestAbort
  rw [hp]

/-- A rejected word ends with ILLEGAL_COMMAND in its first turn. -/
theorem runTurns_illegal {n : Nat} (hd : decode w = .illegal why) (hr : s.seq.phase = .run) (hn : 1 ≤ n) :
    runTurns (wordTurn w) n s = raise .illegalCommand s := by
  obtain ⟨k, rfl⟩ := Nat.exists_eq_add_of_le' hn
  rw [runTurns_succ _ _ hr, wordTurn, hd]
  exact runTurns_idle _ _ rfl

/-- Settles O35: a word is ABORT's, is rejected, or is the word of the command it decodes to. -/
theorem idleCommandWriteIsDecoded : Obligations.IdleCommandWriteIsDecoded := by
  intro w rest s hp hm hgrant s1
  have hstep : step s = writeCmd w s1 := step_cmdWrite hm
  have hp1 : s1.seq.phase = .idle := hp
  refine ⟨fun hw => ?_, fun hw hill => ?_, fun hw hleg => ?_⟩
  · rw [hstep, writeCmd_abort (decode_abort_iff.mpr hw)]
    exact congrArg Host.Outcome.next (requestAbort_idle hp1)
  · obtain ⟨why, hd⟩ := (rejectedWordsAreTheIllegalOnes w).mpr ⟨hw, hill⟩
    rw [hstep, writeCmd_idle hp1 (by simp [hd]), runTurns_illegal hd rfl hgrant]
    rfl
  · obtain ⟨i, hd⟩ := exists_legal_iff.mpr (.inr hleg)
    obtain ⟨hwf, henc⟩ := decodedCommandEncodesToItsWord w i hd
    have hi : i ≠ .abort := fun h => hw (decode_abort_iff.mp (h ▸ hd))
    exact ⟨i, hwf, henc hi, hstep.trans (writeCmd_legal hd hp1)⟩

/-- A running block that gets turns executes the command of its latched word. -/
theorem sequencerStep_legal (hd : decode s.seq.cmdw = .legal i) (hr : s.seq.phase = .run) : sequencerStep s = exec i s := by
  simp only [sequencerStep, hr, hd]

/-- Where nothing or turns are scheduled, the step is the sequencer's. -/
theorem step_sequencer (hm : s.world.moves = [] ∨ ∃ n rest, s.world.moves = .turns n :: rest) :
    step s = sequencerStep s := by
  obtain hm | ⟨n, rest, hm⟩ := hm
  · exact step_nil hm
  · exact step_turns hm

theorem one_le_grant {v : World} (hm : v.moves = [] ∨ ∃ n rest, v.moves = .turns (n + 1) :: rest) : 1 ≤ v.grant := by
  unfold World.grant
  obtain hm | ⟨n, rest, hm⟩ := hm
  · simp [hm]
  · simp [hm]

/-- Settles O36: the write of CMD, the write of an ABORT, and the latched word, legal and not. -/
theorem stepRunsTheDecodedCommand : Obligations.StepRunsTheDecodedCommand := by
  refine ⟨fun w i rest s hd hp hm => ?_, fun w rest s hd _ hm => ?_, fun i s hd hr hm => ?_, fun why s hd hr hm => ?_⟩
  · exact (step_cmdWrite hm).trans (writeCmd_legal (s := withMoves rest s) hd hp)
  · exact (step_cmdWrite hm).trans (writeCmd_abort hd)
  · exact (step_sequencer hm).trans (sequencerStep_legal hd hr)
  · have hm' : s.world.moves = [] ∨ ∃ n rest, s.world.moves = .turns n :: rest :=
      hm.imp_right fun ⟨n, rest, h⟩ => ⟨n + 1, rest, h⟩
    rw [step_sequencer hm', sequencerStep_run hr (by simp [hd]), runTurns_illegal (s := granted s) hd hr (one_le_grant hm)]
    rfl

end Sys2Proof.Machine

/-! SUPPORT. A host's reads of the window among the steps of the block (spec/30_encoding.md R102, 42_search.md R182). -/

namespace Sys2Proof.Machine

variable {s : State} {h : HostRun} {op : HostOp} {rest : List HostOp} {r : Reg}

/-! ### One read -/

/-- The state after a host's read of the register `r`, with the schedule that a host's access leaves (log entry 20). -/
def afterRead (r : Reg) (s : State) : State := hostRead r.offset (withMoves [.turns 0] s)

/-- What a host's read of the register `r` returns. -/
def readNow (r : Reg) (s : State) : Word := readValue (Config.freeRead s.world.draws) s r.offset

theorem offset_aligned (r : Reg) : r.offset.toNat % 4 = 0 := by cases r <;> decide

theorem lastRead_afterRead (r : Reg) (s : State) : lastRead (afterRead r s) = readNow r s := by
  simp only [lastRead, afterRead, hostRead, List.getLast?_concat]
  rfl

/-- An operation that reads a register takes what the window returns. -/
theorem systemRun_load (xs : List Actor) (htodo : h.todo = op :: rest) (hop : op.access = loadWord r) :
    systemRun advanceAlone (.host :: xs) h ((), s) =
      systemRun advanceAlone xs (h.take (readNow r s)) ((), afterRead r s) := by
  have hstep : step (withMove (.host op.access) s) = .next (afterRead r s) := by
    rw [hop]
    exact step_hostRead (offset_aligned r) rfl
  have hadvance : advanceAlone ((), withMove (.host op.access) s) = ((), afterRead r s) := by
    unfold advanceAlone
    rw [hstep]
  simp only [systemRun, systemStep, htodo, hadvance, lastRead_afterRead]

/-! ### The wait -/

/-- BUSY of STATUS reads 1 exactly while a command runs (10_state.md R22, R58). -/
theorem readNow_status_busy (s : State) : (readNow .status s).getLsbD 0 = s.busy := by
  rw [readNow, readValue_offset]
  cases hb : s.busy with
  | true => exact (busyStatusWord_getLsbD _ _ (by decide) (by decide)).trans (statusWord_bits true _).1
  | false => rw [if_neg Bool.false_ne_true, regValue, hb]; exact (statusWord_bits false _).1

/-- A wait stays while BUSY reads 1. -/
theorem take_wait_todo (htodo : h.todo = .form .wait :: rest) (v : Word) :
    (h.take v).todo = if v.getLsbD 0 then h.todo else rest := by
  unfold HostRun.take
  rw [htodo]
  dsimp only
  split
  · exact htodo
  · rfl

/-- Settles O50: the host's access is one read of STATUS. -/
theorem waitEndsWhenTheCommandHasEnded : Obligations.WaitEndsWhenTheCommandHasEnded := by
  intro h rest s htodo run
  have hrun : run = (h.take (readNow .status s), (), afterRead .status s) := systemRun_load [] htodo rfl
  rw [hrun]
  refine ⟨?_, rfl⟩
  rw [take_wait_todo htodo, readNow_status_busy]
  exact if_congr (busy_iff s) rfl rfl

/-! ### The loop of `search` (42_search.md R182) -/

/-- `s` with another record of reads, and the schedule that a host's access leaves. -/
def onlyRead (l : List (BitVec 8 × Word)) (s : State) : State :=
  { s with world := { s.world with moves := [.turns 0], reads := l } }

/-- The record of reads is no register. -/
theorem regValue_onlyRead (l : List (BitVec 8 × Word)) (s : State) (r : Reg) :
    regValue (onlyRead l s) r = regValue s r := by
  cases r <;> rfl

theorem readNow_idle (hp : s.seq.phase = .idle) (r : Reg) : readNow r s = regValue s r := by
  rw [readNow, readValue_offset, (busy_eq_false_iff s).mpr hp, if_neg Bool.false_ne_true]

/-- A read of an idle block grows the record of reads alone. -/
theorem afterRead_idle (hp : s.seq.phase = .idle) (r : Reg) : ∃ l, afterRead r s = onlyRead l s := by
  have hb : (withMoves [.turns 0] s).busy = false := (busy_eq_false_iff _).mpr hp
  unfold afterRead hostRead
  rw [hb]
  exact ⟨_, rfl⟩

/-- On an idle block, an operation that reads a register takes its value. -/
theorem systemRun_load_idle (xs : List Actor) (hp : s.seq.phase = .idle) (htodo : h.todo = op :: rest)
    (hop : op.access = loadWord r) : ∃ l,
      systemRun advanceAlone (.host :: xs) h ((), s) =
        systemRun advanceAlone xs (h.take (regValue s r)) ((), onlyRead l s) := by
  obtain ⟨l, hl⟩ := afterRead_idle hp r
  exact ⟨l, by rw [systemRun_load xs htodo hop, readNow_idle hp, hl]⟩

/-- The ERRCODE that the host finds in STATUS (10_state.md R29). -/
theorem errcodeOf_statusWord (busy : Bool) (st : Status) : errcodeOf (st.word busy) = st.errcode.code := by
  have hb : ∀ b : Bool, b.toNat < 2 := Bool.toNat_lt
  have hword := statusWord_toNat busy st
  apply BitVec.eq_of_toNat_eq
  rw [errcodeOf, BitVec.extractLsb'_toNat, Nat.shiftRight_eq_div_pow, hword]
  have := hb busy; have := hb st.err; have := hb st.adv; have := hb st.ovr
  have := hb st.presence; have := hb st.sample; have := hb st.rate.bit
  omega

theorem errcode_code_eq_zero_iff (e : ErrCode) : e.code = 0#4 ↔ e = .ok := by cases e <;> decide

/-- The DONE and the IDV that the host finds in SSTAT (10_state.md R40, R42). -/
theorem sstatWord_bits (ss : SStat) : ss.word.getLsbD 1 = ss.done ∧ ss.word.getLsbD 3 = ss.idv := by
  simp only [SStat.word, flagAt, BitVec.getLsbD_or, atBit_getLsbD]
  simp

/-- The test of ERRCODE. -/
theorem take_searchError (htodo : h.todo = .searchError :: rest) (s : State) :
    h.take (regValue s .status) = if s.status.errcode = .ok then { h with todo := .searchSession :: rest }
      else { h with todo := [], error := some s.status.errcode.code } := by
  unfold HostRun.take
  rw [htodo]
  simp only [regValue, errcodeOf_statusWord, errcode_code_eq_zero_iff]

/-- The test of SSTAT. -/
theorem afterSession_regValue (s : State) (rest : List HostOp) :
    afterSession (regValue s .sstat) rest = (if s.sstat.idv then [.searchIdLow, .searchIdHigh] else []) ++
      ((if s.sstat.done then [] else searchRound) ++ rest) := by
  obtain ⟨hdone, hidv⟩ := sstatWord_bits s.sstat
  rw [afterSession, regValue, hdone, hidv, List.append_assoc]

/-- A host whose SRCH.NEXT ended well reads STATUS and SSTAT. -/
theorem systemRun_searchSession (xs : List Actor) (hp : s.seq.phase = .idle) (htodo : h.todo = .searchError :: rest)
    (hok : s.status.errcode = .ok) : ∃ l,
      systemRun advanceAlone (.host :: .host :: xs) h ((), s) =
        systemRun advanceAlone xs { h with todo := afterSession (regValue s .sstat) rest } ((), onlyRead l s) := by
  obtain ⟨l, hl⟩ := systemRun_load_idle (r := .status) (.host :: xs) hp htodo rfl
  rw [take_searchError htodo, if_pos hok] at hl
  obtain ⟨l', hl'⟩ := systemRun_load_idle (r := .sstat) (s := onlyRead l s)
    (h := { h with todo := .searchSession :: rest }) xs hp rfl rfl
  rw [regValue_onlyRead] at hl'
  exact ⟨l', hl.trans hl'⟩

/-- A host that has found IDV set reads the ID. -/
theorem systemRun_searchId (xs : List Actor) (hp : s.seq.phase = .idle)
    (htodo : h.todo = .searchIdLow :: .searchIdHigh :: rest) : ∃ l,
      systemRun advanceAlone (.host :: .host :: xs) h ((), s) =
        systemRun advanceAlone xs { h with todo := rest, low := loHalf s.romid, ids := h.ids ++ [s.romid] }
          ((), onlyRead l s) := by
  have hlow : h.take (regValue s .romidLo) = { h with todo := .searchIdHigh :: rest, low := loHalf s.romid } := by
    unfold HostRun.take
    rw [htodo]
    rfl
  obtain ⟨l, hl⟩ := systemRun_load_idle (r := .romidLo) (.host :: xs) hp htodo rfl
  rw [hlow] at hl
  obtain ⟨l', hl'⟩ := systemRun_load_idle (r := .romidHi) (s := onlyRead l s)
    (h := { h with todo := .searchIdHigh :: rest, low := loHalf s.romid }) xs hp rfl rfl
  have hid : joinHalves (hiHalf s.romid) (loHalf s.romid) = s.romid := by
    rw [joinHalves_eq_append, hiHalf_append_loHalf]
  rw [regValue_onlyRead] at hl'
  refine ⟨l', hl.trans (hl'.trans ?_)⟩
  simp only [HostRun.take, regValue, hid]
  rfl

/-- Settles O49: one read at an error, two without an ID, four with one. -/
theorem searchLoopCollectsDeliveredIds : Obligations.SearchLoopCollectsDeliveredIds := by
  intro h rest s htodo hp run onlyReads found
  refine ⟨fun herr => ?_, fun hok => ?_⟩
  · obtain ⟨l, hl⟩ := systemRun_load_idle (r := .status) [] hp htodo rfl
    rw [take_searchError htodo, if_neg herr] at hl
    have hrun : run 1 = ({ h with todo := [], error := some s.status.errcode.code }, (), onlyRead l s) := hl
    rw [hrun]
    exact ⟨rfl, rfl, rfl, rfl⟩
  · generalize hnext : (if s.sstat.done then [] else searchRound) ++ rest = next
    cases hidv : s.sstat.idv with
    | false =>
      obtain ⟨l, hl⟩ := systemRun_searchSession [] hp htodo hok
      rw [afterSession_regValue, hidv, hnext] at hl
      have hrun : run 2 = ({ h with todo := next }, (), onlyRead l s) := hl
      have hfound : found = h.ids := by simp [found, hidv]
      intro n
      rw [show n = 2 from rfl, hrun, hfound]
      exact ⟨rfl, rfl, hnext.symm, rfl⟩
    | true =>
      obtain ⟨l, hl⟩ := systemRun_searchSession [.host, .host] hp htodo hok
      rw [afterSession_regValue, hidv, hnext] at hl
      obtain ⟨l', hl'⟩ := systemRun_searchId (s := onlyRead l s)
        (h := { h with todo := .searchIdLow :: .searchIdHigh :: next }) [] hp rfl
      have hrun : run 4 = ({ h with todo := next, low := loHalf s.romid, ids := h.ids ++ [s.romid] }, (), onlyRead l' s) :=
        hl.trans hl'
      have hfound : found = h.ids ++ [s.romid] := by simp [found, hidv]
      intro n
      rw [show n = 4 from rfl, hrun, hfound]
      exact ⟨rfl, rfl, hnext.symm, rfl⟩

end Sys2Proof.Machine

/-! SUPPORT. The run of SRCH.PASS, from its acceptance to its end (spec/42_search.md R173, R176, R178). -/

namespace Sys2Proof.Machine

variable {s : State} {a : Bool}

/-- The block as the pass of a SRCH.PASS of word `w` begins. -/
def passAccepted (w : Word) (s : State) : State := beginPass (accept w (granted s))

theorem passAccepted_begun (w : Word) (s : State) : (passAccepted w s).seq.passBegun (passAccepted w s).mask :=
  ⟨⟨rfl, rfl, rfl⟩, rfl, rfl, rfl, rfl, rfl⟩

@[simp] theorem echoAt_useGrant (v : World) : echoAt v.useGrant = echoAt v := by
  funext k
  simp [echoAt]

@[simp] theorem sampleAt_useGrant (v : World) : sampleAt v.useGrant = sampleAt v := by
  funext k
  simp [sampleAt]

/-- The answers to come and MASK are as before the acceptance, so the pass is the same. -/
theorem nextPass_passAccepted (w : Word) (s : State) : nextPass a (passAccepted w s) = nextPass a s := by
  simp [nextPass, passAccepted, granted]

/-- The first turn of SRCH.PASS is the reset round trip of its pass. -/
theorem runTurns_srchPass_start (w : Word) (n : Nat) (s : State) :
    runTurns (srchPassCommand a).turn (n + 1) (accept w (granted s)) =
      runTurns (srchPassCommand a).turn (n + 1) (passAccepted w s) := by
  rw [runTurns_succ _ _ rfl, runTurns_succ _ _ rfl]
  rfl

/-- What SRCH.PASS does at the end of its pass: the outcome is recorded, and VIOLATION is an error. -/
theorem passFinish_eq (o : PassOutcome) (s : State) :
    passFinish o s = (if o = .violation then raise .protocolViolation else succeed) (writeOutcome o s) := by
  cases o <;> rfl

/-- The last turn of SRCH.PASS, and no turn after it. -/
theorem runTurns_srchPass_end (n : Nat) {s : State} {o : PassOutcome} (hr : s.seq.phase = .run)
    (hf : s.seq.inFlight = false) (ho : s.seq.stage = .passEnd o) :
    runTurns (srchPassCommand a).turn (n + 1) s = passFinish o s := by
  have hturn : (srchPassCommand a).turn s = passFinish o s := by
    simp [Command.turn, hf, srchPassCommand, passBoundary, ho]
  rw [runTurns_succ _ _ hr, hturn]
  exact runTurns_idle _ _ (by cases o <;> rfl)

/-- What is recorded where the pass has ended, of the block as the pass began and of the block before its acceptance. -/
theorem writeOutcome_passAccepted (w : Word) (s : State) (q : Sequencer) :
    writeOutcome (nextPass a s).outcome
        (midPass (nextPass a s).sent (endSequencer (nextPass a s) q) (passAccepted w s)) =
      { afterPass (nextPass a s) (granted s) with cmd := w, seq := endSequencer (nextPass a s) q } := by
  have h := writeOutcome_endSequencer (al := a) (passAccepted w s) q
  rw [nextPass_passAccepted] at h
  rw [h, show passAccepted w s = { granted s with cmd := w, seq := (passAccepted w s).seq } from rfl, afterPass_withCmd]

/-- SRCH.PASS of an idle block with turns and answers enough: acceptance, the pass, and its end. -/
theorem launch_srchPass (hs : readyIdle s (2 * (nextPass a s).trips + 1)) (hans : answered s.world (nextPass a s).trips)
    (w : Word) : launch w (srchPassCommand a).turn s =
      (if (nextPass a s).outcome = .violation then endedWith .protocolViolation w else endedWell w)
        (afterPass (nextPass a s) (granted s)) := by
  obtain ⟨hidle, hgrant⟩ := hs
  obtain ⟨k, hk⟩ := Nat.exists_eq_add_of_le hgrant
  have hpass := runTurns_pass (srchPass_runsPass a _) rfl (passAccepted_begun w s)
    (by rw [nextPass_passAccepted]; exact (answered_accept w s _).mpr hans) (k + 1)
  rw [nextPass_passAccepted] at hpass
  rw [launch_idle hidle, hk, Nat.add_right_comm, runTurns_srchPass_start, Nat.add_assoc, hpass,
    runTurns_srchPass_end k rfl rfl rfl, passFinish_eq, writeOutcome_passAccepted]
  split_ifs <;> rfl

/-- A pass only adds to the bytes it has sent. -/
theorem passPositions_sent_prefix (sample : Nat → Bool) (left p : Nat) (mask cand : DWord) (sent : List Byte) :
    sent <+: (passPositions a sample left p mask cand sent).sent := by
  induction left generalizing p mask cand sent with
  | zero => exact List.prefix_refl _
  | succ left ih =>
    rw [passPositions]
    split
    · exact List.prefix_append _ _
    · exact (List.prefix_append _ _).trans (ih ..)

/-- A pass that finds presence sends the slots of its command byte first. -/
theorem passOf_sent_take (m0 : DWord) (sample : Nat → Bool) : (passOf a m0 true sample).sent.take 8 = commandSlots a := by
  have hpre : commandSlots a <+: (passOf a m0 true sample).sent := passPositions_sent_prefix ..
  exact (List.prefix_iff_eq_take.mp hpre).symm

/-- Settles O20: the run of SRCH.PASS, and the slots of its command byte. -/
theorem searchPassRefinesThePassFunction : Obligations.SearchPassRefinesThePassFunction := by
  refine ⟨fun a s hs hans => congrArg Host.Outcome.next (launch_srchPass hs hans _), fun a m0 sample => ?_⟩
  rw [passOf_sent_take]
  cases a <;> rfl

end Sys2Proof.Machine

/-! SUPPORT. The receive turn as one equation, and turns that agree. -/

namespace Sys2Proof.Machine

/-- The receive turn, as the update it makes. -/
theorem receive_eq (onError : State → State) (onEcho : Byte → State → State) (s : State) :
    receive onError onEcho s =
      if s.world.answer 0 = [] then raise .wiringFault (onError (serialRx s))
      else onEcho (echoAt s.world 0) (received s) := by
  rcases receive_cases onError onEcho s with ⟨hempty, h⟩ | ⟨hsome, h⟩
  · rw [h, if_pos hempty]
  · rw [h, if_neg hsome, noteExtra_eq, serialRx_eq]
    rfl

/-- Turns that agree wherever `P` holds, `P` kept by them, run alike. -/
theorem runTurns_congr {P : State → Prop} {turn turn' : State → State} (heq : ∀ s, P s → turn s = turn' s)
    (hkeep : ∀ s, P s → P (turn' s)) (n : Nat) {s : State} (h : P s) : runTurns turn n s = runTurns turn' n s := by
  induction n generalizing s with
  | zero => rfl
  | succ n ih =>
    cases hp : s.seq.phase with
    | idle => rw [runTurns_idle _ _ hp, runTurns_idle _ _ hp]
    | run => rw [runTurns_succ _ _ hp, runTurns_succ _ _ hp, heq s h, ih (hkeep s h)]

end Sys2Proof.Machine

/-! SUPPORT. The runs of the codec commands of bit slots, from acceptance to their end (spec/40_signal_codec.md R117 to
R124). -/

namespace Sys2Proof.Machine

variable {c : Command} {n : Nat} {byteOf : DWord → Nat → Byte} {finish : State → State} {s : State}

/-- The command is `n` bit slots, slot `i` sending `byteOf DATA i`, and then `finish` (R117). -/
structure RunsSlots (c : Command) (n : Nat) (byteOf : DWord → Nat → Byte) (finish : State → State) : Prop where
  boundary (s : State) : c.boundary s =
    if s.seq.index < n then startRoundTrip noErrorWrites .slot (byteOf s.data s.seq.index) s else finish s
  echo : c.onEcho = slotEcho
  error : c.onError = noErrorWrites

/-- The bytes of a write of DATA, as `writeBytes` lists them (R121). -/
def dataByte (data : DWord) (i : Nat) : Byte := slotByte (data.getLsbD i)

theorem writeSlots_runsSlots (n : Nat) : RunsSlots (writeSlotsCommand n) n dataByte succeed := ⟨fun _ => rfl, rfl, rfl⟩

theorem readSlots_runsSlots (n : Nat) : RunsSlots (readSlotsCommand n) n (fun _ _ => readSlotByte) finishRead :=
  ⟨fun _ => rfl, rfl, rfl⟩

theorem wrbit_runsSlots (b : Bool) : RunsSlots (wrbitCommand b) 1 (fun _ _ => slotByte b) succeed :=
  ⟨fun _ => rfl, rfl, rfl⟩

theorem slotBytes_readSlotByte (n : Nat) : slotBytes (fun _ => readSlotByte) n = readBytes n := by
  simp [slotBytes, readBytes]

theorem sampledBits_granted (n : Nat) (s : State) : sampledBits (granted s).world n = sampledBits s.world n := by
  show sampledBits s.world.useGrant n = _
  induction n with
  | zero => rfl
  | succ n ih => simp [sampledBits, ih]

/-- Bit `i` of the sampled bits is the sample of slot `i` (R122). -/
theorem sampledBits_getLsbD (w : World) {n : Nat} (hn : n ≤ 64) (i : Nat) :
    (sampledBits w n).getLsbD i = (decide (i < n) && sampleAt w i) := by
  induction n with
  | zero => simp [sampledBits]
  | succ n ih =>
    rw [sampledBits, putBit_getLsbD _ _ _ (by omega), ih (by omega)]
    by_cases hi : i = n
    · simp [hi]
    · simp [hi, show i < n + 1 ↔ i < n by omega]

/-! ### The boundaries -/

/-- Before each of its slots the command, just accepted, transmits. -/
theorem RunsSlots.boundary_slot (hc : RunsSlots c n byteOf finish) {m : Nat} (hm : m < n) (w : Word) :
    c.boundary (atSlot (byteOf s.data) m (accept w (granted s))) =
      startRoundTrip c.onError .slot (byteOf s.data m) (atSlot (byteOf s.data) m (accept w (granted s))) := by
  have hi : (atSlot (byteOf s.data) m (accept w (granted s))).seq.index < n := hm
  rw [hc.boundary, if_pos hi, hc.error, atSlot_data]
  rfl

/-- After its last slot it finishes. -/
theorem RunsSlots.boundary_end (hc : RunsSlots c n byteOf finish) (w : Word) :
    c.boundary (atSlot (byteOf s.data) n (accept w (granted s))) =
      finish (atSlot (byteOf s.data) n (accept w (granted s))) := by
  rw [hc.boundary]
  exact if_neg (Nat.lt_irrefl n)

/-! ### The whole run -/

/-- A command of slots on an idle block with turns and answers enough. -/
theorem RunsSlots.launch_eq (hc : RunsSlots c n byteOf finish) (hfin : ∀ t, (finish t).seq.phase = .idle)
    (hs : readyIdle s (2 * n + 1)) (hans : answered s.world n) (w : Word) :
    launch w c.turn s = finish (atSlot (byteOf s.data) n (accept w (granted s))) := by
  have hend := hc.boundary_end (s := s) w
  have hrun := launch_slots hs hans hc.echo (fun _ hj => hc.boundary_slot hj w)
    ((congrArg (·.seq.phase) hend).trans (hfin _))
  exact hrun.trans hend

/-- A command that only sends, slot after slot. -/
theorem RunsSlots.launch_sends (hc : RunsSlots c n byteOf succeed) (hs : readyIdle s (2 * n + 1))
    (hans : answered s.world n) (w : Word) :
    launch w c.turn s = endedWell w (afterSlots (slotBytes (byteOf s.data) n) (granted s)) := by
  rw [hc.launch_eq (fun _ => rfl) hs hans, atSlot_accept]
  rfl

theorem launch_writeSlots (hs : readyIdle s (2 * n + 1)) (hans : answered s.world n) (w : Word) :
    launch w (writeSlotsCommand n).turn s = endedWell w (afterSlots (writeBytes s.data n) (granted s)) :=
  (writeSlots_runsSlots n).launch_sends hs hans w

/-- A command of read slots, whose end moves the sampled bits to RX. -/
theorem launch_readSlots (hs : readyIdle s (2 * n + 1)) (hans : answered s.world n) (w : Word) :
    launch w (readSlotsCommand n).turn s =
      endedWell w { afterSlots (readBytes n) (granted s) with rx := sampledBits s.world n } := by
  rw [(readSlots_runsSlots n).launch_eq (fun _ => rfl) hs hans, atSlot_accept, slotBytes_readSlotByte,
    sampledBits_granted]
  rfl

/-- A command of slots whose slot `m` is the first to receive nothing ends there (R112). -/
theorem RunsSlots.launch_empty (hc : RunsSlots c n byteOf finish) {m : Nat} (hm : m < n) (hs : readyIdle s (2 * m + 2))
    (hans : answered s.world m) (hempty : s.world.answer m = []) (w : Word) :
    launch w c.turn s = endedWith .wiringFault w
      (afterEmptyTrip .slot (byteOf s.data m) (afterSlots (slotBytes (byteOf s.data) m) (granted s))) := by
  obtain ⟨hidle, hgrant⟩ := hs
  obtain ⟨k, hk⟩ := Nat.exists_eq_add_of_le hgrant
  have hslots := runTurns_slots (s := accept w (granted s)) (f := byteOf s.data) (accept_fresh w _) hc.echo
    (fun _ hj => hc.boundary_slot hj w) m hm.le ((answered_accept w s m).mpr hans) (k + 2)
  have hnone : (atSlot (byteOf s.data) m (accept w (granted s))).world.answer 0 = [] := by
    simpa [granted] using hempty
  rw [launch_idle hidle, hk, Nat.add_assoc, Nat.add_comm 2 k, hslots,
    turn_turn_empty rfl rfl rfl (hc.boundary_slot hm w) hnone, hc.error, atSlot_accept]
  rfl

/-! ### OW.WRBYTE (R123) -/

theorem byteTooLarge_eq (data : DWord) : byteTooLarge data = decide (255 < data.toNat) := rfl

/-- With DATA in [0,255] every turn of OW.WRBYTE is a turn of 8 write slots. -/
theorem wrbyteTurn_small (hd : s.data.toNat ≤ 255) : wrbyteCommand.turn s = (writeSlotsCommand 8).turn s := by
  rcases wrbyteTurn_either s with ⟨-, -, hlarge, -⟩ | h
  · rw [byteTooLarge_eq, decide_eq_true_iff] at hlarge
    omega
  · exact h

/-- Write slots leave DATA alone. -/
theorem writeSlots_data (n : Nat) (s : State) : ((writeSlotsCommand n).turn s).data = s.data :=
  congrArg Prod.fst ((operandsOf_stable (operandsOf s)).turn (i := .owWrbits n) nofun nofun rfl)

theorem launch_wrbyte_small (hd : s.data.toNat ≤ 255) (hidle : s.seq.phase = .idle) (w : Word) :
    launch w wrbyteCommand.turn s = launch w (writeSlotsCommand 8).turn s := by
  rw [launch_idle hidle, launch_idle hidle]
  exact runTurns_congr (P := fun t => t.data.toNat ≤ 255) (fun _ => wrbyteTurn_small)
    (fun t ht => by rwa [writeSlots_data]) _ hd

/-- With DATA above 255 the first turn of OW.WRBYTE ends it. -/
theorem launch_wrbyte_large (hd : 255 < s.data.toNat) (hs : readyIdle s 1) (w : Word) :
    launch w wrbyteCommand.turn s = endedWith .invalidByte w (granted s) := by
  have hturn : wrbyteCommand.turn (accept w (granted s)) = raise .invalidByte (accept w (granted s)) := by
    show wrbyteBoundary _ = _
    exact if_pos ⟨rfl, decide_eq_true hd⟩
  rw [launch_body hs (by rw [hturn]; rfl), hturn]
  rfl

/-! ### The settled statements -/

/-- Settles O6: one slot, whose byte is that of the operand. -/
theorem writeBitSendsItsBit : Obligations.WriteBitSendsItsBit := by
  intro b s hs hans
  have hrun := (wrbit_runsSlots b).launch_sends (n := 1) hs hans (encode (.owWrbit b))
  cases b <;> exact congrArg Host.Outcome.next hrun

/-- Settles O7: the run of `n` write slots, for every `n`. -/
theorem writeBitsSendsDataLowBitFirst : Obligations.WriteBitsSendsDataLowBitFirst :=
  fun _ _ _ hs hans => congrArg Host.Outcome.next (launch_writeSlots hs hans _)

/-- Settles O8: no turn sees DATA above 255, so the run is that of 8 write slots. -/
theorem writeByteSendsEightBits : Obligations.WriteByteSendsEightBits := fun _ hd hs hans =>
  congrArg Host.Outcome.next ((launch_wrbyte_small hd hs.1 _).trans (launch_writeSlots hs hans _))

/-- Settles O9: the check of DATA comes before the first slot. -/
theorem writeByteRefusesLargeData : Obligations.WriteByteRefusesLargeData :=
  fun _ hd hs => congrArg Host.Outcome.next (launch_wrbyte_large hd hs _)

/-- Settles O10: the runs of read slots, and the bits they sample. -/
theorem readCommandsSampleIntoRx : Obligations.ReadCommandsSampleIntoRx := by
  refine ⟨fun s hs hans => congrArg Host.Outcome.next (launch_readSlots hs hans _),
    fun n s _ hs hans => congrArg Host.Outcome.next (launch_readSlots hs hans _),
    fun s hs hans => congrArg Host.Outcome.next (launch_readSlots hs hans _), fun w n i hn => ?_⟩
  rw [sampledBits_getLsbD w hn, sampleAt, sampleOf]
  rfl

end Sys2Proof.Machine

/-! SUPPORT. The run of OW.RESET, and the ends of the slot commands at an empty receive (spec/40_signal_codec.md R112,
R114, R118). -/

namespace Sys2Proof.Machine

variable {s : State}

/-- OW.RESET on an idle block with turns and an answer. -/
theorem launch_reset (hs : readyIdle s 3) (hans : answered s.world 1) (w : Word) :
    launch w resetCommand.turn s = endedWell w (afterReset (granted s)) := by
  obtain ⟨hidle, hgrant⟩ := hs
  obtain ⟨k, hk⟩ := Nat.exists_eq_add_of_le hgrant
  have hsome : (accept w (granted s)).world.answer 0 ≠ [] := (answered_accept w s 1).mpr hans 0 Nat.one_pos
  have htrip := turn_turn (c := resetCommand) (r := .reset) (b := resetByte) rfl rfl rfl rfl hsome (k + 1)
  rw [launch_idle hidle, hk, show 3 + k = k + 1 + 2 by omega, htrip, runTurns_succ _ _ rfl]
  refine (runTurns_idle _ _ rfl).trans ?_
  unfold afterReset
  rw [← afterTrips_singleton]
  rfl

/-- OW.RESET that receives nothing. -/
theorem launch_reset_empty (hs : readyIdle s 2) (hempty : s.world.answer 0 = []) (w : Word) :
    launch w resetCommand.turn s = endedWith .wiringFault w (afterEmptyTrip .reset resetByte (granted s)) := by
  obtain ⟨hidle, hgrant⟩ := hs
  obtain ⟨k, hk⟩ := Nat.exists_eq_add_of_le hgrant
  have hnone : (accept w (granted s)).world.answer 0 = [] := by simpa [granted] using hempty
  rw [launch_idle hidle, hk, Nat.add_comm,
    turn_turn_empty (c := resetCommand) (r := .reset) (b := resetByte) rfl rfl rfl rfl hnone]
  rfl

/-- Settles O5: the one round trip, and PRESENCE from its echo. -/
theorem resetCommandReportsPresence : Obligations.ResetCommandReportsPresence := by
  intro s hs hans
  have hecho : echoAt (granted s).world 0 = echoAt s.world 0 := by simp [granted]
  have hrun := launch_reset hs hans (encode .owReset)
  unfold afterReset at hrun
  rw [hecho] at hrun
  exact congrArg Host.Outcome.next hrun

/-- Settles O12: the first empty slot of many, and the one round trip. -/
theorem emptyReceiveEndsMultiSlotCommand : Obligations.EmptyReceiveEndsMultiSlotCommand := by
  constructor
  · intro n m s _ hm hs hans hempty
    have hread := (readSlots_runsSlots n).launch_empty hm hs hans hempty (encode (.owRdbits n))
    rw [slotBytes_readSlotByte] at hread
    exact ⟨congrArg _ ((writeSlots_runsSlots n).launch_empty hm hs hans hempty _), congrArg _ hread⟩
  · intro s hs hempty
    have hans : answered s.world 0 := nofun
    refine ⟨congrArg _ (launch_reset_empty hs hempty _), fun b => ?_,
      congrArg _ ((readSlots_runsSlots 1).launch_empty Nat.one_pos hs hans hempty _)⟩
    have hwrite := (wrbit_runsSlots b).launch_empty Nat.one_pos hs hans hempty (encode (.owWrbit b))
    cases b <;> exact congrArg Host.Outcome.next hwrite

end Sys2Proof.Machine

/-! SUPPORT. A turn of a slot command does not see which word is latched, so the byte commands run as the 8-bit commands
(spec/40_signal_codec.md R126). -/

namespace Sys2Proof.Machine

variable {c : Command} {n : Nat} {byteOf : DWord → Nat → Byte} {finish : State → State}

/-- `s` with another word in CMD and, while a command runs, latched. -/
def relabel (w : Word) (s : State) : State :=
  { s with cmd := w, seq := { s.seq with cmdw := if s.busy then w else s.seq.cmdw } }

theorem RunsSlots.turn_relabel (hc : RunsSlots c n byteOf finish)
    (hfin : ∀ w s, finish (relabel w s) = relabel w (finish s)) (w : Word) (s : State) :
    c.turn (relabel w s) = relabel w (c.turn s) := by
  unfold Command.turn
  rw [hc.boundary, hc.boundary, hc.echo, hc.error, receive_eq, receive_eq, startRoundTrip_eq, startRoundTrip_eq, hfin,
    show (relabel w s).seq.inFlight = s.seq.inFlight from rfl, show (relabel w s).seq.index = s.seq.index from rfl,
    show (relabel w s).seq.abortReq = s.seq.abortReq from rfl, show (relabel w s).world = s.world from rfl]
  split_ifs <;> rfl

theorem runTurns_relabel {turn : State → State} {w : Word} (hturn : ∀ s, turn (relabel w s) = relabel w (turn s))
    (n : Nat) (s : State) : runTurns turn n (relabel w s) = relabel w (runTurns turn n s) := by
  induction n generalizing s with
  | zero => rfl
  | succ n ih =>
    cases hp : s.seq.phase with
    | idle => rw [runTurns_idle _ _ hp, runTurns_idle (s := relabel w s) _ _ hp]
    | run => rw [runTurns_succ _ _ hp, runTurns_succ (s := relabel w s) _ _ hp, hturn, ih]

/-- Launched with another word, a slot command does the same. -/
theorem RunsSlots.launch_relabel (hc : RunsSlots c n byteOf finish)
    (hfin : ∀ w s, finish (relabel w s) = relabel w (finish s)) {s : State} (hidle : s.seq.phase = .idle)
    (v w : Word) : launch w c.turn s = relabel w (launch v c.turn s) := by
  rw [launch_idle hidle, launch_idle hidle, ← runTurns_relabel (hc.turn_relabel hfin w)]
  rfl

/-- Settles O11: the same turns, with another word latched. -/
theorem byteCommandsAreEightBitCommands : Obligations.ByteCommandsAreEightBitCommands := by
  refine ⟨fun s hd hidle => ⟨_, rfl, ?_⟩, fun s hidle => ⟨_, rfl, ?_⟩⟩
  · have hrun := (writeSlots_runsSlots 8).launch_relabel (fun _ _ => rfl) hidle (encode (.owWrbits 8)) (encode .owWrbyte)
    exact congrArg Host.Outcome.next ((launch_wrbyte_small hd hidle _).trans hrun)
  · exact congrArg Host.Outcome.next
      ((readSlots_runsSlots 8).launch_relabel (fun _ _ => rfl) hidle (encode (.owRdbits 8)) (encode .owRdbyte))

end Sys2Proof.Machine

/-! SUPPORT. The receive turn of every command with round trips (spec/40_signal_codec.md R112, R113). -/

namespace Sys2Proof.Machine

variable {i : Instr} {s : State}

/-- What command `i` does with an echo; the commands with no round trip do nothing. -/
def Instr.onEcho : Instr → Byte → State → State
  | .owReset => notePresence
  | .owWrbit _ | .owRdbit | .owWrbits _ | .owRdbits _ | .owWrbyte | .owRdbyte => slotEcho
  | .srchPass a => passEcho fun _ => a
  | .srchNext => passEcho sessionAlarm
  | .crcClr | .crcBit _ | .crcBits _ | .srchBegin _ | .abort => fun _ s => s

/-- A turn of a command with a round trip in flight is its receive. -/
theorem Instr.turn_inFlight (hi : hasRoundTrips i = true) (hf : s.seq.inFlight = true) :
    Instr.turn i s = receive (errorWrites i) (Instr.onEcho i) s := by
  cases i with
  | owReset | owWrbit b | owRdbit | owWrbits n | owRdbits n | owWrbyte | owRdbyte | srchPass a | srchNext => exact if_pos hf
  | crcClr | crcBit b | crcBits n | srchBegin a | abort => cases hi

theorem Instr.ne_abort_of_hasRoundTrips (hi : hasRoundTrips i = true) : i ≠ .abort := by
  rintro rfl
  cases hi

/-- Settles O34: the receive is the command's last turn. -/
theorem emptyReceiveEndsCommand : Obligations.EmptyReceiveEndsCommand := by
  intro i s hi hr hf hempty hg
  have hnone : (granted s).world.answer 0 = [] := (useGrant_answer _ _).trans hempty
  have hevents : (granted s).world.events = s.world.events := useGrant_events _
  have hturn : Instr.turn i (granted s) = raise .wiringFault (errorWrites i (serialRx (granted s))) := by
    rw [Instr.turn_inFlight (s := granted s) hi hf, receive_eq, if_pos hnone]
  rw [exec_launch (Instr.ne_abort_of_hasRoundTrips hi), launch_last hr hg (by rw [hturn]; rfl), hturn, serialRx_eq, hnone,
    hevents]
  cases i <;> rfl

/-! ### An echo alone and an echo with more bytes -/

/-- `s` with another ADV. -/
def withAdv (a : Bool) (s : State) : State := { s with status := { s.status with adv := a } }

theorem passEcho_withAdv {alarm : State → Bool} (ha : ∀ a s, alarm (withAdv a s) = alarm s) (e : Byte) (a : Bool)
    (s : State) : passEcho alarm e (withAdv a s) = withAdv a (passEcho alarm e s) := by
  unfold passEcho
  rw [show (withAdv a s).seq = s.seq from rfl, ha]
  split
  · rfl
  · rfl
  · rfl
  · rfl
  · unfold decidePosition
    rw [show (noteSample e (withAdv a s)).seq = (noteSample e s).seq from rfl]
    split <;> rfl
  · unfold acceptBit validate
    rw [show (noteSample e (withAdv a s)).seq = (noteSample e s).seq from rfl]
    split <;> rfl
  · rfl

/-- No command's use of an echo depends on ADV. -/
theorem Instr.onEcho_withAdv (i : Instr) (e : Byte) (a : Bool) (s : State) :
    Instr.onEcho i e (withAdv a s) = withAdv a (Instr.onEcho i e s) := by
  cases i with
  | srchPass m => exact passEcho_withAdv (alarm := fun _ => m) (fun _ _ => rfl) e a s
  | srchNext => exact passEcho_withAdv (alarm := sessionAlarm) (fun _ _ => rfl) e a s
  | owReset | owWrbit b | owRdbit | owWrbits n | owRdbits n | owWrbyte | owRdbyte | crcClr | crcBit b | crcBits n
  | srchBegin m | abort => rfl

/-- No command's use of an echo looks at the world. -/
theorem Instr.onEcho_worldFree (i : Instr) (e : Byte) : WorldFree (Instr.onEcho i e) := by
  cases i with
  | srchPass m => exact passEcho_worldFree (fun _ _ => rfl) e
  | srchNext => exact passEcho_worldFree (fun _ _ => rfl) e
  | owReset | owWrbit b | owRdbit | owWrbits n | owRdbits n | owWrbyte | owRdbyte | crcClr | crcBit b | crcBits n
  | srchBegin m | abort => exact fun _ _ => rfl

/-- A receive returns at least the first of the bytes that came in (20_memory.md R73: RX_MAX is at least 1). -/
theorem answer_zero_of_answers {v : World} {e : Byte} {extra : List Byte} {rest : List (List Byte)}
    (hv : v.answers = (e :: extra) :: rest) : v.answer 0 = e :: collect extra Config.rxMaxLessOne := by
  simp [World.answer, hv, Config.rxMax, collect]

/-- One turn of a running command whose receive is answered uses the echo. -/
theorem exec_receive (hi : hasRoundTrips i = true) (hr : s.seq.phase = .run) (hf : s.seq.inFlight = true)
    (hg : s.world.grant = 1) {e : Byte} {extra : List Byte} (hans : s.world.answer 0 = e :: extra) :
    exec i s = .next (Instr.onEcho i e (received (granted s))) := by
  have hans' : (granted s).world.answer 0 = e :: extra := (useGrant_answer _ _).trans hans
  have hturn : Instr.turn i (granted s) = Instr.onEcho i e (received (granted s)) := by
    rw [Instr.turn_inFlight (s := granted s) hi hf, receive_eq, echoAt, hans']
    rfl
  rw [exec_launch (Instr.ne_abort_of_hasRoundTrips hi), launch_run hr, hg, runTurns_succ (s := granted s) _ _ hr,
    hturn]
  rfl

/-- `s` with another ADV and another history. -/
def withReceipt (adv : Bool) (events : List SerialEvent) (s : State) : State :=
  withAdv adv (inWorld s (s.world.setEvents events))

/-- No command's use of an echo depends on ADV or the history. -/
theorem Instr.onEcho_withReceipt (i : Instr) (e : Byte) (adv : Bool) (events : List SerialEvent) (s : State) :
    Instr.onEcho i e (withReceipt adv events s) = withReceipt adv events (Instr.onEcho i e s) := by
  unfold withReceipt
  rw [Instr.onEcho_withAdv, Instr.onEcho_worldFree, (Instr.onEcho_worldFree i e).world]

/-- A world whose next scripted answer is `a`. -/
def World.setAnswers (a : List Byte) (rest : List (List Byte)) (v : World) : World := { v with answers := a :: rest }

theorem useGrant_setAnswers (a : List Byte) (rest : List (List Byte)) (v : World) :
    (v.setAnswers a rest).useGrant = v.useGrant.setAnswers a rest := by
  obtain ⟨moves, answers, draws, events, reads⟩ := v
  cases moves with
  | nil => rfl
  | cons m ms => cases m <;> rfl

/-- What an answer leaves is what any other answer `b` in its place leaves, but for ADV and the event of the receive. -/
theorem received_granted_eq {a : List Byte} {rest : List (List Byte)} (hs : s.world.answers = a :: rest) (b : List Byte) :
    received (granted s) =
      withReceipt (s.status.adv || decide (2 ≤ (s.world.answer 0).length)) (s.world.events ++ [.rx (s.world.answer 0)])
        (received (granted (inWorld s (s.world.setAnswers b rest)))) := by
  have hworld : s.world.useGrant = s.world.useGrant.setAnswers a rest := by
    rw [World.setAnswers, ← hs, ← useGrant_answers]
  have hpop : (granted s).world.popAnswer = (granted (inWorld s (s.world.setAnswers b rest))).world.popAnswer := by
    show s.world.useGrant.popAnswer = (s.world.setAnswers b rest).useGrant.popAnswer
    rw [useGrant_setAnswers, hworld]
    rfl
  have hanswer : (granted s).world.answer 0 = s.world.answer 0 := useGrant_answer _ _
  have hevents : (granted s).world.events = s.world.events := useGrant_events _
  unfold received
  rw [hpop, hanswer, hevents]
  rfl

/-- Settles O33: both receives use the echo `e`, and no use of an echo sees where they differ. -/
theorem extraBytesAreAdvisory : Obligations.ExtraBytesAreAdvisory := by
  intro i s e extra rest hi hr hf hg hs
  have halone := exec_receive (s := inWorld s (s.world.setAnswers [e] rest)) hi hr hf hg (answer_zero_of_answers rfl)
  have hmore := exec_receive hi hr hf hg (answer_zero_of_answers hs)
  rw [received_granted_eq hs [e], Instr.onEcho_withReceipt] at hmore
  exact ⟨_, halone, hmore⟩

end Sys2Proof.Machine

/-! SUPPORT. The CRC-8 Engine: its updates (spec/41_crc8.md R156, R157), and its commands (R152 to R154). -/

namespace Sys2Proof.Machine

variable {r : Byte} {i n : Nat}

/-! ### Many updates -/

/-- Settles O14, by induction on the count of updates. -/
theorem crcUpdateIsLinear : Obligations.CrcUpdateIsLinear := by
  intro r1 r2 v1 v2 n
  induction n with
  | zero => rfl
  | succ n ih => simp only [updN, ih, BitVec.getLsbD_xor, upd_xor]

/-- A bit equal to the one shifted out leaves a shift alone. -/
theorem upd_getLsbD_zero (r : Byte) : upd r (r.getLsbD 0) = r >>> 1 := by simp [upd]

/-- The bits of a byte that have been taken are folded into the register, and those to come are still outside it. -/
theorem updN_byte (r v : Byte) (n : Nat) : updN r (v.zeroExtend 64) n = updN (r ^^^ v) 0#64 n ^^^ (v >>> n) := by
  induction n with
  | zero => simp [updN]
  | succ n ih =>
    have hbit : (v.zeroExtend 64).getLsbD n = (false ^^ (v >>> n).getLsbD 0) := by
      have hlt (h : v.getLsbD n = true) : n < 64 := (BitVec.lt_of_getLsbD h).trans (by decide)
      simpa using hlt
    rw [updN, ih, hbit, upd_xor, upd_getLsbD_zero]
    simp [updN, BitVec.shiftRight_add]

/-- Settles O15: after eight updates no bit of the byte is left outside the register. -/
theorem crcByteFoldsIntoRegister : Obligations.CrcByteFoldsIntoRegister := by
  intro r v
  rw [updN_byte, BitVec.ushiftRight_eq_zero (Nat.le_refl 8), BitVec.xor_zero]

/-- Zeros leave a cleared register cleared. -/
theorem updN_zero_zero (n : Nat) : updN 0x00#8 0#64 n = 0x00#8 := by
  induction n with
  | zero => rfl
  | succ n ih => rw [updN, ih, BitVec.getLsbD_zero]; rfl

/-- Settles O16: the last eight bits fold into a register equal to them, which clears it. -/
theorem idWithItsChecksumIsValid : Obligations.IdWithItsChecksumIsValid := by
  intro id hid
  have htop : id >>> 56 = (id.extractLsb' 56 8).zeroExtend 64 := by
    ext k hk
    have hlt (h : id.getLsbD (56 + k) = true) : k < 8 := Nat.lt_of_add_lt_add_left (BitVec.lt_of_getLsbD h)
    simpa using hlt
  calc romCrc id = updN (updN 0x00#8 id 56) (id >>> 56) 8 := updN_add _ _ 56 8
    _ = updN (updN 0x00#8 id 56 ^^^ updN 0x00#8 id 56) 0#64 8 := by rw [htop, crcByteFoldsIntoRegister, hid]
    _ = 0x00#8 := by rw [BitVec.xor_self, updN_zero_zero]

/-- An update with 0 clears no register that is not cleared: the bit it shifts out comes back with the feedback. -/
theorem upd_false_ne_zero (h : r ≠ 0x00#8) : upd r false ≠ 0x00#8 := by
  unfold upd
  intro hz
  split at hz
  · have h7 := congrArg (·.getLsbD 7) hz
    simp [crcFeedback] at h7
  · next h0 =>
    refine h (BitVec.eq_of_getLsbD_eq fun k _ => ?_)
    cases k with
    | zero => simpa using h0
    | succ k => simpa [Nat.add_comm] using congrArg (·.getLsbD k) hz

/-- A single 1 leaves a cleared register not cleared, however many zeros follow it. -/
theorem updN_single_ne_zero (hi : i < 64) (hn : i < n) : updN 0x00#8 (1#64 <<< i) n ≠ 0x00#8 := by
  induction n with
  | zero => omega
  | succ n ih =>
    have hbit (k : Nat) : (1#64 <<< i).getLsbD k = decide (i = k) := by
      rw [← BitVec.twoPow_eq, BitVec.getLsbD_twoPow, decide_eq_true hi, Bool.true_and]
    rw [updN, hbit]
    by_cases h : i = n
    · have hbefore : updN 0x00#8 (1#64 <<< i) n = 0x00#8 := by
        rw [updN_congr (w := 0#64) (fun k hk => by rw [hbit]; simp; omega), updN_zero_zero]
      rw [hbefore, decide_eq_true h]
      decide
    · rw [decide_eq_false h]
      exact upd_false_ne_zero (ih (by omega))

/-- Settles O17: by linearity the flipped bit alone makes the checksum. -/
theorem crcDetectsEverySingleBitFlip : Obligations.CrcDetectsEverySingleBitFlip := by
  intro id i hi hid
  have hsplit : romCrc (id ^^^ 1#64 <<< i) = romCrc id ^^^ romCrc (1#64 <<< i) := crcUpdateIsLinear 0x00#8 0x00#8 _ _ 64
  rw [hsplit, hid, BitVec.zero_xor]
  exact updN_single_ne_zero hi hi

/-! ### The commands -/

/-- Settles O13: each command is its body, and the words are those of R96. -/
theorem crcCommandsUpdateCrc : Obligations.CrcCommandsUpdateCrc := by
  intro s hs
  refine ⟨congrArg Host.Outcome.next (launch_body hs rfl), fun b => ?_,
    fun n _ => congrArg Host.Outcome.next (launch_body hs rfl)⟩
  cases b <;> exact congrArg Host.Outcome.next (launch_body hs rfl)

end Sys2Proof.Machine

/-! SUPPORT. The frame of the search commands with passes, and when a pass records its outcome (spec/42_search.md R176). -/

namespace Sys2Proof.Machine

variable {P : State → Prop} {s t : State} {i : Instr}

/-- The commands that run passes (42_search.md R178, R179). -/
def Instr.isPass (i : Instr) : Prop := (∃ a, i = .srchPass a) ∨ i = .srchNext

/-! ### A turn of a pass is blind to what its end writes -/

/-- `P` is blind to what a pass writes before its end: PRESENCE and SAMPLE, besides what every command writes. -/
structure PassStable (P : State → Prop) : Prop extends RunStable P where
  sample {s : State} (h : P s) (e : Byte) : P (noteSample e s)
  presence {s : State} (h : P s) (e : Byte) : P (notePresence e s)

/-- `P` is blind too to what SEARCH_NEXT writes of the session before the end of its pass. -/
structure SessionStable (P : State → Prop) : Prop extends PassStable P where
  closeSession {s : State} (h : P s) : P (closeSession s)
  clearResult {s : State} (h : P s) : P (clearResult s)

theorem PassStable.passEcho (hP : PassStable P) (h : P s) (alarm : State → Bool) (e : Byte) :
    P (passEcho alarm e s) := by
  obtain ⟨q, -, -, -, -, -, he | he | he⟩ := passEcho_either alarm e s <;> rw [he]
  · exact hP.sequencer h ..
  · exact hP.sequencer (hP.sample h e) ..
  · exact hP.sequencer (hP.presence h e) ..

/-- The first turn of a pass. -/
theorem PassStable.beginRoundTrip (hP : PassStable P) {onError : State → State}
    (herror : ∀ {s}, P s → P (onError s)) (h : P s) (r : Rate) (b : Byte) : P (startRoundTrip onError r b (beginPass s)) :=
  have hbegun : P (beginPass s) := hP.sequencer h ..
  startRoundTrip_keeps (hP.sent hbegun ..) (hP.raise (herror hbegun) _)

/-- A turn of a command of passes keeps `P`, or it is the end of a pass. -/
theorem PassStable.turn (hP : PassStable P) {c : Command} {al : Bool} {ss : SStat} (hc : RunsPass c al ss)
    (herror : ∀ {s}, P s → P (c.onError s)) (hfirst : P (hc.first s)) (h : P s) :
    P (c.turn s) ∨ ∃ o, s.seq.inFlight = false ∧ s.seq.stage = .passEnd o ∧ c.turn s = hc.finish o s :=
  passTurn_keeps hc
    (P := fun u => P u ∨ ∃ o, s.seq.inFlight = false ∧ s.seq.stage = .passEnd o ∧ u = hc.finish o s)
    (fun _ => .inl (hP.raise (herror (hP.serialRx h)) _)) (fun _ e => .inl (hP.passEcho (hP.received h) _ e))
    (fun _ r b => .inl (hP.sent h r b)) (fun _ => .inl (hP.raise (herror h) _)) (fun _ _ => .inl hfirst)
    (fun o hf ho => .inr ⟨o, hf, ho, rfl⟩)

theorem PassStable.srchPass (hP : PassStable P) (a : Bool) (h : P s) : P ((srchPassCommand a).turn s) ∨
    ∃ o, s.seq.inFlight = false ∧ s.seq.stage = .passEnd o ∧ (srchPassCommand a).turn s = passFinish o s :=
  hP.turn (srchPass_runsPass a s.sstat) id (hP.beginRoundTrip id h _ _) h

theorem SessionStable.nextFirst (hP : SessionStable P) (h : P s) : P (nextFirst s) := by
  unfold Machine.nextFirst
  split
  · exact hP.beginRoundTrip hP.closeSession (hP.clearResult h) _ _
  · exact hP.raise h _

theorem SessionStable.srchNext (hP : SessionStable P) (h : P s) : P (srchNextCommand.turn s) ∨
    ∃ o, s.seq.inFlight = false ∧ s.seq.stage = .passEnd o ∧ srchNextCommand.turn s = nextFinish o s :=
  hP.turn (srchNext_runsPass s.sstat) hP.closeSession (hP.nextFirst h) h

/-! ### The registers -/

/-- What the end of a pass with an outcome writes (R176). -/
def outcomeRegs (s : State) : DWord × DWord × Option PassOutcome × Byte × BitVec 6 :=
  (s.cand, s.nmask, s.sstat.pout, s.sstat.scrc, s.sstat.failPos)

theorem outcomeRegs_stable (x) : SessionStable fun s => outcomeRegs s = x :=
  ⟨⟨⟨fun h _ _ => h, id, fun h _ _ => h, id, id, fun h _ => h, id⟩, fun h _ => h, fun h _ => h⟩, id, id⟩

/-- What SRCH.NEXT writes of the session and SRCH.PASS does not (R178, 10_state.md R59). -/
def sessionRegs (s : State) : DWord × DWord × Word × Word × Bool × Bool × Bool :=
  (s.mask, s.romid, s.retries, s.idcount, s.sstat.active, s.sstat.done, s.sstat.idv)

theorem sessionRegs_stable (x) : PassStable fun s => sessionRegs s = x :=
  ⟨⟨fun h _ _ => h, id, fun h _ _ => h, id, id, fun h _ => h, id⟩, fun h _ => h, fun h _ => h⟩

theorem alarm_stable (x : Bool) : SessionStable fun s => s.sstat.alarm = x :=
  ⟨⟨⟨fun h _ _ => h, id, fun h _ _ => h, id, id, fun h _ => h, id⟩, fun h _ => h, fun h _ => h⟩, id, id⟩

/-! ### The ends of a pass -/

theorem passFinish_sessionRegs (o : PassOutcome) (s : State) : sessionRegs (passFinish o s) = sessionRegs s := by
  cases o <;> rfl

theorem passFinish_alarm (o : PassOutcome) (s : State) : (passFinish o s).sstat.alarm = s.sstat.alarm := by
  cases o <;> rfl

theorem nextFinish_alarm (o : PassOutcome) (s : State) : (nextFinish o s).sstat.alarm = s.sstat.alarm := by
  cases o with
  | noPresence | noResponse | violation => rfl
  | crcBad =>
    simp only [nextFinish, nextRetry]
    split <;> rfl
  | valid =>
    simp only [nextFinish, deliver]
    split <;> rfl

/-- SRCH.PASS has ended well, or with PROTOCOL_VIOLATION: its pass had an outcome (R178). -/
def endedWithOutcome (s : State) : Prop :=
  s.seq.phase = .idle ∧ (s.status.errcode = .ok ∨ s.status.errcode = .protocolViolation)

theorem passFinish_ends (o : PassOutcome) (s : State) : endedWithOutcome (passFinish o s) := by
  rw [passFinish_eq]
  split
  · exact ⟨rfl, .inr rfl⟩
  · exact ⟨rfl, .inl rfl⟩

/-! ### What a turn and a whole command keep -/

theorem Instr.isPass.turn_alarm (hi : Instr.isPass i) {x : Bool} (h : s.sstat.alarm = x) :
    (Instr.turn i s).sstat.alarm = x := by
  rcases hi with ⟨a, rfl⟩ | rfl
  · rcases (alarm_stable x).srchPass a h with hkeep | ⟨o, -, -, hend⟩
    · exact hkeep
    · exact (congrArg (·.sstat.alarm) hend).trans ((passFinish_alarm o s).trans h)
  · rcases (alarm_stable x).srchNext h with hkeep | ⟨o, -, -, hend⟩
    · exact hkeep
    · exact (congrArg (·.sstat.alarm) hend).trans ((nextFinish_alarm o s).trans h)

theorem srchPass_sessionRegs (a : Bool) {x} (h : sessionRegs s = x) :
    sessionRegs ((srchPassCommand a).turn s) = x := by
  rcases (sessionRegs_stable x).srchPass a h with hkeep | ⟨o, -, -, hend⟩
  · exact hkeep
  · rw [hend, passFinish_sessionRegs, h]

/-- A turn leaves the outcome registers, or a pass has ended and no round trip is in flight. -/
theorem Instr.isPass.turn_outcomeRegs (hi : Instr.isPass i) (s : State) :
    outcomeRegs (Instr.turn i s) = outcomeRegs s ∨ s.seq.inFlight = false ∧ ∃ o, s.seq.stage = .passEnd o := by
  rcases hi with ⟨a, rfl⟩ | rfl
  · exact ((outcomeRegs_stable _).srchPass a rfl).imp_right fun ⟨o, hf, ho, _⟩ => ⟨hf, o, ho⟩
  · exact ((outcomeRegs_stable _).srchNext rfl).imp_right fun ⟨o, hf, ho, _⟩ => ⟨hf, o, ho⟩

/-- One granted turn of a pass command changes the outcome registers only at the end of a running pass. -/
theorem exec_turn_outcomeRegs (hi : Instr.isPass i) (hg : s.world.grant = 1) (he : exec i s = .next t)
    (hne : outcomeRegs t ≠ outcomeRegs s) :
    s.seq.phase = .run ∧ s.seq.inFlight = false ∧ ∃ o, s.seq.stage = .passEnd o := by
  have hna : i ≠ .abort := by
    rintro rfl
    simp [Instr.isPass] at hi
  rw [exec_launch hna] at he
  obtain rfl := Host.Outcome.next.inj he
  cases hp : s.seq.phase with
  | idle =>
    rw [launch_idle hp, hg, runTurns_succ _ _ rfl] at hne
    obtain ⟨-, o, ho⟩ := (hi.turn_outcomeRegs _).resolve_left hne
    cases ho
  | run =>
    rw [launch_run hp, hg, runTurns_succ _ _ (s := granted s) hp] at hne
    exact ⟨rfl, (hi.turn_outcomeRegs (granted s)).resolve_left hne⟩

/-- SRCH.PASS leaves the outcome registers, or it has ended with an outcome. -/
theorem exec_srchPass_outcomeRegs {a : Bool} (he : exec (.srchPass a) s = .next t) :
    outcomeRegs t = outcomeRegs s ∨ endedWithOutcome t := by
  obtain ⟨n, u, hu, rfl⟩ := exec_eq_runTurns (i := .srchPass a) nofun he
  have hregs : outcomeRegs u = outcomeRegs s := by rcases hu with rfl | rfl <;> rfl
  refine runTurns_keeps (P := fun v => outcomeRegs v = outcomeRegs s ∨ endedWithOutcome v) (fun v hrun hv => ?_) n
    (.inl hregs)
  rcases hv with hv | ⟨hidle, -⟩
  · rcases (outcomeRegs_stable _).srchPass a hv with hkeep | ⟨o, -, -, hend⟩
    · exact .inl hkeep
    · have hends := passFinish_ends o v
      rw [← hend] at hends
      exact .inr hends
  · rw [hrun] at hidle
    cases hidle

/-- Settles O54: what no turn of a pass writes, and what only the end of a pass writes. -/
theorem passCommandsFrame : Obligations.PassCommandsFrame := by
  intro i s t hi he
  have hcrc : t.crc = s.crc := exec_crc (by rcases hi with ⟨a, rfl⟩ | rfl <;> simp [Instr.isCrc]) he
  have hrx : t.rx = s.rx := exec_rx (by rcases hi with ⟨a, rfl⟩ | rfl <;> simp [Instr.isRead]) he
  have halarm : t.sstat.alarm = s.sstat.alarm :=
    (alarm_stable s.sstat.alarm).exec (Instr.isPass.turn_alarm hi) rfl he
  have hsession (hpass : ∃ a, i = .srchPass a) : sessionRegs t = sessionRegs s := by
    obtain ⟨a, rfl⟩ := hpass
    exact (sessionRegs_stable (sessionRegs s)).exec (srchPass_sessionRegs a) rfl he
  have hwritten : outcomeRegs t ≠ outcomeRegs s ↔ t.cand ≠ s.cand ∨ t.nmask ≠ s.nmask ∨ t.sstat.pout ≠ s.sstat.pout
      ∨ t.sstat.scrc ≠ s.sstat.scrc ∨ t.sstat.failPos ≠ s.sstat.failPos := by
    simp only [outcomeRegs, ne_eq, Prod.mk.injEq, not_and_or]
  simp only [sessionRegs, Prod.mk.injEq] at hsession
  refine ⟨hcrc, hrx, halarm, hsession, fun hg hw => exec_turn_outcomeRegs hi hg he (hwritten.mpr hw), ?_⟩
  rintro ⟨a, rfl⟩ hw
  exact (exec_srchPass_outcomeRegs he).resolve_left (hwritten.mpr hw)

end Sys2Proof.Machine

/-! SUPPORT. The discrepancy rule (spec/42_search.md R170 to R172). -/

namespace Sys2Proof.Machine

variable {p : Nat} {w : DWord}

/-- No bit of the working mask is set above position `p` (R171). -/
def noneAbove (p : Nat) (w : DWord) : Prop := ∀ k, p < k → k < 64 → w.getLsbD k = false

theorem shiftRight_eq_zero_iff_noneAbove (p : Nat) (w : DWord) : w >>> (p + 1) = 0#64 ↔ noneAbove p w := by
  constructor
  · intro h k hk _
    have hbit := congrArg (·.getLsbD (k - (p + 1))) h
    simpa [show p + 1 + (k - (p + 1)) = k by omega] using hbit
  · intro h
    refine BitVec.eq_of_getLsbD_eq fun k _ => ?_
    rw [BitVec.getLsbD_ushiftRight, BitVec.getLsbD_zero]
    by_cases hk : p + 1 + k < 64
    · exact h _ (by omega) hk
    · exact BitVec.getLsbD_of_ge _ _ (by omega)

/-- The bit put in place. -/
theorem putBit_getLsbD_self (w : DWord) (b : Bool) (hp : p < 64) : (putBit w p b).getLsbD p = b := by
  rw [putBit_getLsbD _ _ _ hp, if_pos rfl]

/-- At the highest set bit, and above it, Resolve flips the bit of the mask and selects its new value. -/
theorem resolve_of_noneAbove (h : noneAbove p w) : resolve p w = (!w.getLsbD p, putBit w p !w.getLsbD p) := by
  rw [← shiftRight_eq_zero_iff_noneAbove] at h
  unfold resolve
  cases w.getLsbD p <;> simp [h]

/-- Below the highest set bit Resolve selects the bit of the mask. -/
theorem resolve_of_not_noneAbove (h : ¬noneAbove p w) : resolve p w = (w.getLsbD p, w) := by
  rw [← shiftRight_eq_zero_iff_noneAbove] at h
  unfold resolve
  cases w.getLsbD p <;> simp [h]

/-- Settles O18: Resolve flips a bit with none set above it, and follows any other. -/
theorem resolveFollowsTheDiscrepancyRule : Obligations.ResolveFollowsTheDiscrepancyRule := by
  intro p w hp
  refine ⟨⟨rfl, rfl, rfl, rfl⟩, ?_, ?_, ?_, ?_, ?_⟩
  · rintro ⟨hbit, hnone⟩
    rw [resolve_of_noneAbove hnone, hbit]
    exact ⟨rfl, putBit_getLsbD_self _ _ hp⟩
  · rintro ⟨hbit, hsome⟩
    rw [resolve_of_not_noneAbove hsome, hbit]
  · rintro ⟨hbit, hnone⟩
    rw [resolve_of_noneAbove hnone, hbit]
    exact ⟨rfl, putBit_getLsbD_self _ _ hp⟩
  · rintro ⟨hbit, hsome⟩
    rw [resolve_of_not_noneAbove hsome, hbit]
  · intro k hk
    by_cases hnone : noneAbove p w
    · rw [resolve_of_noneAbove hnone, putBit_getLsbD _ _ _ hp, if_neg hk]
    · rw [resolve_of_not_noneAbove hnone]

end Sys2Proof.Machine

/-! SUPPORT. The pass as one function, position by position (spec/42_search.md R170 to R175). -/

namespace Sys2Proof.Machine

variable {a v c b : Bool} {m0 w w' mask cand : DWord} {sample : Nat → Bool} {p : Nat}

/-- A position selects nothing exactly where nobody responds (R174). -/
theorem choose_eq_none_iff : choose v c p w = none ↔ v = true ∧ c = true := by
  cases v <;> cases c <;> simp [choose]

/-- A pass that finds presence, of input mask `m0`, comes to position `p` with these values of its mask and candidate: what
it ends with is what the positions from `p` on make of them. -/
def PassReaches (a : Bool) (m0 : DWord) (sample : Nat → Bool) (p : Nat) (mask cand : DWord) : Prop :=
  ∃ sent, sent.length = 8 + 3 * p ∧ passOf a m0 true sample = passPositions a sample (64 - p) p mask cand sent

theorem passReaches_zero (a : Bool) (m0 : DWord) (sample : Nat → Bool) : PassReaches a m0 sample 0 m0 0#64 :=
  ⟨commandSlots a, by simp [commandSlots], rfl⟩

/-- A bit is selected: it is written back, and is the candidate's bit of this position. -/
theorem PassReaches.succ (h : PassReaches a m0 sample p mask cand) (hp : p < 64)
    (hch : choose (sample (9 + 3 * p)) (sample (10 + 3 * p)) p mask = some (b, w')) :
    PassReaches a m0 sample (p + 1) w' (putBit cand p b) := by
  obtain ⟨sent, hlen, hpass⟩ := h
  refine ⟨sent ++ [readSlotByte, readSlotByte, slotByte b], by simp; omega, ?_⟩
  rw [hpass, show 64 - p = (64 - (p + 1)) + 1 by omega, passPositions, hlen,
    show 8 + 3 * p + 1 = 9 + 3 * p by omega, show 8 + 3 * p + 2 = 10 + 3 * p by omega, hch]

/-- Nobody responds: the pass ends at this position. -/
theorem PassReaches.silent (h : PassReaches a m0 sample p mask cand) (hp : p < 64)
    (hv : sample (9 + 3 * p) = true) (hc : sample (10 + 3 * p) = true) :
    ∃ sent, sent.length = 8 + 3 * p ∧ passOf a m0 true sample =
      ⟨silentOutcome a, cand, mask, 0x00#8, p, sent ++ [readSlotByte, readSlotByte]⟩ := by
  obtain ⟨sent, hlen, hpass⟩ := h
  refine ⟨sent, hlen, ?_⟩
  rw [hpass, show 64 - p = (64 - (p + 1)) + 1 by omega, passPositions, hlen,
    show 8 + 3 * p + 1 = 9 + 3 * p by omega, show 8 + 3 * p + 2 = 10 + 3 * p by omega, hv, hc]
  rfl

/-- After the last position the candidate is checked. -/
theorem PassReaches.last (h : PassReaches a m0 sample 64 mask cand) :
    ∃ sent, sent.length = 200 ∧ passOf a m0 true sample =
      ⟨checkedOutcome (romCrc cand), cand, mask, romCrc cand, 0, sent⟩ := h

/-- The positions from `p` on leave the candidate's bits below `p`. -/
theorem passPositions_cand_below (left : Nat) (sent : List Byte) (hp : p + left ≤ 64) {k : Nat} (hk : k < p) :
    (passPositions a sample left p mask cand sent).cand.getLsbD k = cand.getLsbD k := by
  induction left generalizing p mask cand sent with
  | zero => rfl
  | succ left ih =>
    rw [passPositions]
    split
    · rfl
    · rw [ih _ (by omega) (by omega), putBit_getLsbD _ _ _ (by omega), if_neg (by omega)]

/-- The candidate of the pass has the bits selected so far. -/
theorem PassReaches.cand_getLsbD (h : PassReaches a m0 sample p mask cand) (hp : p ≤ 64) {k : Nat} (hk : k < p) :
    (passOf a m0 true sample).cand.getLsbD k = cand.getLsbD k := by
  obtain ⟨sent, -, hpass⟩ := h
  rw [hpass, passPositions_cand_below _ _ (by omega) hk]

/-- A pass in which somebody responds at every position below `p` comes to `p`, with no bit selected from there on. -/
theorem exists_passReaches_zeroFrom (m0 : DWord) (hp : p ≤ 64)
    (hresp : ∀ j, j < p → ¬(sample (9 + 3 * j) = true ∧ sample (10 + 3 * j) = true)) :
    ∃ mask cand, PassReaches a m0 sample p mask cand ∧ zeroFrom cand p := by
  induction p with
  | zero => exact ⟨m0, 0#64, passReaches_zero a m0 sample, zeroFrom_zero 0⟩
  | succ p ih =>
    obtain ⟨mask, cand, hreach, hzero⟩ := ih (by omega) fun j hj => hresp j (by omega)
    cases hch : choose (sample (9 + 3 * p)) (sample (10 + 3 * p)) p mask with
    | none => exact absurd (choose_eq_none_iff.mp hch) (hresp p (by omega))
    | some bw => exact ⟨bw.2, putBit cand p bw.1, hreach.succ (by omega) hch, zeroFrom_putBit _ hzero (by omega)⟩

/-- Settles O21: the pass comes to `p`, and ends there. -/
theorem silentPairEndsThePass : Obligations.SilentPairEndsThePass := by
  intro a m0 sample p hp hresp hv hc
  obtain ⟨mask, cand, hreach, hzero⟩ := exists_passReaches_zeroFrom (a := a) m0 hp.le hresp
  obtain ⟨sent, hlen, hpass⟩ := hreach.silent hp hv hc
  rw [hpass]
  refine ⟨rfl, rfl, rfl, hzero, ?_, ?_⟩
  · simp [PassResult.trips, hlen]; omega
  · exact List.drop_left' hlen

/-- Settles O29: every position selects the responder's bit and leaves the mask. -/
theorem singleResponderIsFound : Obligations.SingleResponderIsFound := by
  intro a m0 id sample hbus
  have hreach : ∀ p, p ≤ 64 → ∃ cand, PassReaches a m0 sample p m0 cand ∧ ∀ k, k < p → cand.getLsbD k = id.getLsbD k := by
    intro p
    induction p with
    | zero => exact fun _ => ⟨0#64, passReaches_zero a m0 sample, fun k hk => absurd hk (Nat.not_lt_zero k)⟩
    | succ p ih =>
      intro hp
      obtain ⟨cand, hcand, hbits⟩ := ih (by omega)
      obtain ⟨hv, hc⟩ := hbus p hp
      have hch : choose (sample (9 + 3 * p)) (sample (10 + 3 * p)) p m0 = some (id.getLsbD p, m0) := by
        rw [hv, hc]
        cases id.getLsbD p <;> rfl
      refine ⟨putBit cand p (id.getLsbD p), hcand.succ hp hch, fun k hk => ?_⟩
      rw [putBit_getLsbD _ _ _ hp]
      split
      · next heq => rw [heq]
      · exact hbits k (by omega)
  obtain ⟨cand, hcand, hbits⟩ := hreach 64 le_rfl
  obtain rfl : cand = id := BitVec.eq_of_getLsbD_eq hbits
  obtain ⟨sent, hlen, hpass⟩ := hcand.last
  rw [hpass]
  exact ⟨rfl, rfl, rfl, rfl, by simp [PassResult.trips, hlen]⟩

/-! ### A static bus -/

/-- The devices that still answer at the next position: those that sent the bit written back at this one. -/
theorem mem_agreeing_succ {ids : List DWord} {d : DWord} :
    d ∈ agreeing ids cand (p + 1) ↔ d ∈ agreeing ids cand p ∧ d.getLsbD p = cand.getLsbD p := by
  simp [agreeing, List.range_succ, and_assoc]

theorem mem_agreeing {ids : List DWord} {d : DWord} :
    d ∈ agreeing ids cand p ↔ d ∈ ids ∧ ∀ k, k < p → d.getLsbD k = cand.getLsbD k := by
  simp [agreeing]

/-- On a bus where the devices `ds` answer with their bits of position `p`, the selected bit is the bit of one of them; and
where the mask has no bit from `p` on, it is 0 only if all of them have 0. -/
theorem choose_devices {ds : List DWord} (hds : ds ≠ []) (w : DWord) (hp : p < 64) :
    ∃ b w', choose (ds.all fun d => d.getLsbD p) (ds.all fun d => !d.getLsbD p) p w = some (b, w') ∧
      (∃ d ∈ ds, d.getLsbD p = b) ∧
      (zeroFrom w p → zeroFrom w' (p + 1) ∧ (b = false → ∀ d ∈ ds, d.getLsbD p = false)) := by
  obtain ⟨d, hd⟩ := List.exists_mem_of_ne_nil ds hds
  have hkeep (h : zeroFrom w p) : zeroFrom w (p + 1) := fun k hk => h k (by omega)
  cases hv : ds.all fun d => d.getLsbD p with
  | true =>
    have hone : ∀ d ∈ ds, d.getLsbD p = true := by simpa using hv
    have hc : (ds.all fun d => !d.getLsbD p) = false := by simpa using ⟨d, hd, hone d hd⟩
    exact ⟨true, w, by rw [hc]; rfl, ⟨d, hd, hone d hd⟩, fun h => ⟨hkeep h, nofun⟩⟩
  | false =>
    cases hc : ds.all fun d => !d.getLsbD p with
    | true =>
      have hzero : ∀ d ∈ ds, d.getLsbD p = false := by simpa using hc
      exact ⟨false, w, rfl, ⟨d, hd, hzero d hd⟩, fun h => ⟨hkeep h, fun _ => hzero⟩⟩
    | false =>
      refine ⟨(resolve p w).1, (resolve p w).2, rfl, ?_, fun h => ?_⟩
      · have hboth : (∃ d ∈ ds, d.getLsbD p = false) ∧ ∃ d ∈ ds, d.getLsbD p = true :=
          ⟨by simpa using hv, by simpa using hc⟩
        cases (resolve p w).1
        · exact hboth.1
        · exact hboth.2
      · rw [resolve_of_noneAbove fun k hk _ => h k hk.le, h p le_rfl]
        exact ⟨zeroFrom_putBit _ h hp, nofun⟩

/-- On a static bus a pass comes to every position, with a device that agrees with its candidate so far; from mask 0, where
the candidate has a 0, so has every device that agrees with it before that. -/
theorem exists_passReaches_agreeing {ids : List DWord} (hids : ids ≠ [])
    (hbus : ∀ p, p < 64 →
      sample (9 + 3 * p) = (agreeing ids (passOf a m0 true sample).cand p).all (fun d => d.getLsbD p) ∧
      sample (10 + 3 * p) = (agreeing ids (passOf a m0 true sample).cand p).all (fun d => !d.getLsbD p))
    (hp : p ≤ 64) :
    ∃ mask cand, PassReaches a m0 sample p mask cand ∧ agreeing ids (passOf a m0 true sample).cand p ≠ [] ∧
      (m0 = 0#64 → zeroFrom mask p ∧ ∀ k, k < p → (passOf a m0 true sample).cand.getLsbD k = false →
        ∀ d ∈ agreeing ids (passOf a m0 true sample).cand k, d.getLsbD k = false) := by
  induction p with
  | zero =>
    refine ⟨m0, 0#64, passReaches_zero a m0 sample, by simpa [agreeing] using hids, fun h => ?_⟩
    exact ⟨h ▸ zeroFrom_zero 0, fun k hk => absurd hk (Nat.not_lt_zero k)⟩
  | succ p ih =>
    obtain ⟨mask, cand, hreach, hsome, hfirst⟩ := ih (by omega)
    obtain ⟨hv, hc⟩ := hbus p hp
    obtain ⟨b, w', hch, ⟨d, hd, hdb⟩, hzero⟩ := choose_devices hsome mask hp
    rw [← hv, ← hc] at hch
    have hnext := hreach.succ hp hch
    have hbit : (passOf a m0 true sample).cand.getLsbD p = b := by
      rw [hnext.cand_getLsbD hp (Nat.lt_succ_self p), putBit_getLsbD_self _ _ hp]
    refine ⟨w', putBit cand p b, hnext, List.ne_nil_of_mem (mem_agreeing_succ.mpr ⟨hd, hdb.trans hbit.symm⟩), fun h => ?_⟩
    obtain ⟨hmask, hbelow⟩ := hfirst h
    refine ⟨(hzero hmask).1, fun k hk hk0 => ?_⟩
    rcases Nat.lt_succ_iff_lt_or_eq.mp hk with hlt | rfl
    · exact hbelow k hlt hk0
    · exact (hzero hmask).2 (hbit.symm.trans hk0)

/-- Two values that differ have a first position where they do. -/
theorem exists_first_difference {x y : DWord} (h : x ≠ y) :
    ∃ k, k < 64 ∧ (∀ j, j < k → x.getLsbD j = y.getLsbD j) ∧ x.getLsbD k ≠ y.getLsbD k := by
  have hex : ∃ k, x.getLsbD k ≠ y.getLsbD k := by
    by_contra hall
    exact h (BitVec.eq_of_getLsbD_eq fun k _ => not_not.mp (not_exists.mp hall k))
  refine ⟨Nat.find hex, ?_, fun j hj => not_not.mp (Nat.find_min hex hj), Nat.find_spec hex⟩
  by_contra hge
  exact Nat.find_spec hex (by simp [BitVec.getLsbD_of_ge _ _ (not_lt.mp hge)])

/-- Settles O27: the device that agrees to the end is the candidate; at a first difference the candidate has the 1. -/
theorem staticBusPassFindsAPresentDevice : Obligations.StaticBusPassFindsAPresentDevice := by
  intro a m0 ids sample hids r hbus
  obtain ⟨mask, cand, hreach, hsome, hfirst⟩ := exists_passReaches_agreeing hids hbus le_rfl
  obtain ⟨d, hd⟩ := List.exists_mem_of_ne_nil _ hsome
  obtain ⟨hmem, hbits⟩ := mem_agreeing.mp hd
  obtain ⟨sent, hlen, hpass⟩ := hreach.last
  refine ⟨BitVec.eq_of_getLsbD_eq hbits ▸ hmem, by simp [r, hpass, PassResult.trips, hlen], fun h d hd hne => ?_⟩
  obtain ⟨k, hk, hsame, hdiff⟩ := exists_first_difference hne
  have hone : r.cand.getLsbD k = true := by
    by_contra h1
    have h0 : r.cand.getLsbD k = false := by simpa using h1
    exact hdiff (((hfirst h).2 k hk h0 d (mem_agreeing.mpr ⟨hd, hsame⟩)).trans h0.symm)
  exact ⟨k, hk, hsame, by simpa [hone] using hdiff, hone⟩

end Sys2Proof.Machine

/-! SUPPORT. The runs of SRCH.BEGIN and SRCH.NEXT (spec/42_search.md R177, R179, R180). -/

namespace Sys2Proof.Machine

variable {s : State} {q : Sequencer}

/-- Settles O19: the command is its body, and the words are those of R96. -/
theorem searchBeginOpensSession : Obligations.SearchBeginOpensSession := by
  intro a s hs
  cases a <;> exact congrArg Host.Outcome.next (launch_body hs rfl)

/-- The first turn of SRCH.NEXT with no open session. -/
theorem srchNext_turn_closed (hst : s.seq.stage = .start) (hf : s.seq.inFlight = false) (hactive : s.sstat.active = false) :
    srchNextCommand.turn s = raise .sequenceError s := by
  simp [Command.turn, srchNextCommand, passBoundary, nextFirst, hst, hf, hactive]

/-- Settles O23: the first turn is the last one. -/
theorem searchNextNeedsSession : Obligations.SearchNextNeedsSession := by
  intro s hactive hs
  have hturn := srchNext_turn_closed (s := accept (encode .srchNext) (granted s)) rfl rfl hactive
  have hrun := launch_body (body := srchNextCommand.turn) hs (by rw [hturn]; rfl)
  rw [hturn] at hrun
  exact congrArg Host.Outcome.next hrun

/-! ### What a pass leaves alone -/

@[simp] theorem afterPass_cmd (r : PassResult) (s : State) : (afterPass r s).cmd = s.cmd := by rw [afterPass_rest]

@[simp] theorem afterPass_mask (r : PassResult) (s : State) : (afterPass r s).mask = s.mask := by rw [afterPass_rest]

@[simp] theorem afterPass_retries (r : PassResult) (s : State) : (afterPass r s).retries = s.retries := by
  rw [afterPass_rest]

@[simp] theorem afterPass_retryLimit (r : PassResult) (s : State) : (afterPass r s).retryLimit = s.retryLimit := by
  rw [afterPass_rest]

@[simp] theorem afterPass_idcount (r : PassResult) (s : State) : (afterPass r s).idcount = s.idcount := by
  rw [afterPass_rest]

/-! ### One pass of SRCH.NEXT -/

/-- The pass that the next answers make in the mode of the session. -/
def sessionPass (s : State) : PassResult := nextPass s.sstat.alarm s

/-- `s` with SRCH.NEXT of word `w` running, its sequencer at `q`. -/
def runningAt (w : Word) (q : Sequencer) (s : State) : State := { s with cmd := w, seq := q }

/-- SRCH.NEXT of word `w`, begun on `s` with the sequencer at `q`, where its pass has ended and is recorded. -/
def passRecorded (w : Word) (q : Sequencer) (s : State) : State :=
  runningAt w (endSequencer (sessionPass s) q) (afterPass (sessionPass s) s)

/-- What SRCH.NEXT does at the end of a pass, the outcome recorded. -/
def nextRecorded : PassOutcome → State → State
  | .noPresence, s | .noResponse, s => succeed (endSession s)
  | .violation, s => raise .protocolViolation (closeSession s)
  | .crcBad, s => nextRetry s
  | .valid, s => deliver s

theorem nextFinish_eq (o : PassOutcome) (s : State) : nextFinish o s = nextRecorded o (writeOutcome o s) := by
  cases o <;> rfl

/-- The turn of SRCH.NEXT after the last round trip of a pass. -/
theorem srchNext_turn_end {o : PassOutcome} (hf : s.seq.inFlight = false) (ho : s.seq.stage = .passEnd o) :
    srchNextCommand.turn s = nextFinish o s := by
  simp [Command.turn, srchNextCommand, passBoundary, hf, ho]

/-- A pass of SRCH.NEXT, from where it begins to the turn after its last round trip. -/
theorem runTurns_srchNext_pass (hq : q.passBegun s.mask) (hans : answered s.world (sessionPass s).trips) (w : Word)
    (k : Nat) : runTurns srchNextCommand.turn (2 * (sessionPass s).trips + 1 + k) (runningAt w q s) =
      runTurns srchNextCommand.turn k (nextRecorded (sessionPass s).outcome (passRecorded w q s)) := by
  have hpass : runTurns srchNextCommand.turn (2 * (sessionPass s).trips + (k + 1)) (runningAt w q s) =
      runTurns srchNextCommand.turn (k + 1)
        (midPass (sessionPass s).sent (endSequencer (sessionPass s) q) (runningAt w q s)) :=
    runTurns_pass (srchNext_runsPass s.sstat) (s := runningAt w q s) rfl hq hans (k + 1)
  have hrecord : writeOutcome (sessionPass s).outcome
      (midPass (sessionPass s).sent (endSequencer (sessionPass s) q) (runningAt w q s)) = passRecorded w q s := by
    refine (writeOutcome_endSequencer (runningAt w q s) q).trans ?_
    rw [runningAt, afterPass_withCmd]
    rfl
  obtain ⟨⟨hrun, hfly, -⟩, -⟩ := hq
  rw [Nat.add_assoc, Nat.add_comm 1, hpass, runTurns_succ _ _ hrun, srchNext_turn_end hfly rfl, nextFinish_eq, hrecord]

/-- A pass that is not CRC_BAD ends the command. -/
theorem nextRecorded_passRecorded (w : Word) (q : Sequencer) (h : (sessionPass s).outcome ≠ .crcBad) :
    nextRecorded (sessionPass s).outcome (passRecorded w q s) = afterNextPass w (sessionPass s) s := by
  unfold afterNextPass
  cases ho : (sessionPass s).outcome with
  | noPresence | noResponse | violation => rfl
  | crcBad => exact absurd ho h
  | valid =>
    simp only [nextRecorded, deliver, passRecorded, runningAt, endSequencer, afterPass_idcount]
    split <;> rfl

theorem afterNextPass_idle (w : Word) (h : (sessionPass s).outcome ≠ .crcBad) :
    (afterNextPass w (sessionPass s) s).seq.phase = .idle := by
  unfold afterNextPass
  cases ho : (sessionPass s).outcome with
  | noPresence | noResponse | violation | valid => rfl
  | crcBad => exact absurd ho h

/-- A pass of SRCH.NEXT that is not CRC_BAD, from where it begins to the end of the command. -/
theorem runTurns_srchNext_last (hq : q.passBegun s.mask) {n : Nat} (hn : 2 * (sessionPass s).trips + 1 ≤ n)
    (hans : answered s.world (sessionPass s).trips) (h : (sessionPass s).outcome ≠ .crcBad) (w : Word) :
    runTurns srchNextCommand.turn n (runningAt w q s) = afterNextPass w (sessionPass s) s := by
  obtain ⟨k, rfl⟩ := Nat.exists_eq_add_of_le hn
  rw [runTurns_srchNext_pass hq hans, nextRecorded_passRecorded w q h, runTurns_idle _ _ (afterNextPass_idle w h)]

/-- The bound of R180, as numbers. -/
theorem retriesExceeded_iff (retries limit : Word) :
    retriesExceeded retries limit = true ↔ limit ≠ 0#32 ∧ limit.toNat < retries.toNat := by
  simp [retriesExceeded, BitVec.lt_def]

/-- One retry is within every bound. -/
theorem retriesExceeded_first (limit : Word) : retriesExceeded (bumpRetries 0#32) limit = false := by
  by_contra h
  obtain ⟨hne, hlt⟩ := (retriesExceeded_iff _ _).mp (Bool.not_eq_false _ ▸ h)
  exact hne (BitVec.eq_of_toNat_eq (Nat.lt_one_iff.mp hlt))

/-- A CRC_BAD pass within the bound rolls back to the same MASK. -/
theorem nextRetry_rollsBack (h : retriesExceeded (bumpRetries s.retries) s.retryLimit = false) :
    nextRetry s = beginPass { s with retries := bumpRetries s.retries } := if_neg (by simp [h])

/-- A CRC_BAD pass past the bound ends the command. -/
theorem nextRetry_ends (h : retriesExceeded (bumpRetries s.retries) s.retryLimit = true) :
    nextRetry s = raise .checksumMismatch (closeSession { s with retries := bumpRetries s.retries }) := if_pos h

theorem beginPass_passBegun (h : s.seq.between) : (beginPass s).seq.passBegun s.mask := ⟨h, rfl, rfl, rfl, rfl, rfl⟩

/-- A CRC_BAD pass of SRCH.NEXT within the bound, from where it begins to where the next one does. -/
theorem runTurns_srchNext_rollsBack (hq : q.passBegun s.mask) (hans : answered s.world (sessionPass s).trips)
    (ho : (sessionPass s).outcome = .crcBad)
    (hbound : retriesExceeded (bumpRetries s.retries) s.retryLimit = false) (w : Word) :
    ∃ q' : Sequencer, q'.passBegun s.mask ∧ q'.cmdw = q.cmdw ∧
      runTurns srchNextCommand.turn (2 * (sessionPass s).trips + 1) (runningAt w q s) =
        { afterPass (sessionPass s) s with cmd := w, retries := bumpRetries s.retries, seq := q' } := by
  have hbegun := beginPass_passBegun (s := passRecorded w q s) hq.1
  rw [passRecorded, runningAt, afterPass_mask] at hbegun
  refine ⟨_, hbegun, rfl, ?_⟩
  have hrun := runTurns_srchNext_pass hq hans w 0
  rw [ho] at hrun
  refine hrun.trans ((nextRetry_rollsBack ?_).trans ?_)
  · simpa [passRecorded, runningAt] using hbound
  · simp [passRecorded, runningAt, beginPass]

/-- A CRC_BAD pass of SRCH.NEXT past the bound, from where it begins to the end of the command. -/
theorem runTurns_srchNext_ends (hq : q.passBegun s.mask) (hans : answered s.world (sessionPass s).trips)
    (ho : (sessionPass s).outcome = .crcBad)
    (hbound : retriesExceeded (bumpRetries s.retries) s.retryLimit = true) (w : Word) :
    runTurns srchNextCommand.turn (2 * (sessionPass s).trips + 1) (runningAt w q s) =
      endedWith .checksumMismatch w
        (closeSession { afterPass (sessionPass s) s with retries := bumpRetries s.retries }) := by
  have hrun := runTurns_srchNext_pass hq hans w 0
  rw [ho] at hrun
  refine hrun.trans ((nextRetry_ends ?_).trans ?_)
  · simpa [passRecorded, runningAt] using hbound
  · simp only [passRecorded, runningAt, afterPass_retries]
    rfl

/-! ### Where a pass of SRCH.NEXT begins -/

/-- From an idle block with an open session: the first turn is the reset round trip of the first pass. -/
theorem launch_srchNext_first (hidle : s.seq.phase = .idle) (hactive : s.sstat.active = true) (hg : 1 ≤ s.world.grant)
    (w : Word) : launch w srchNextCommand.turn s =
      runTurns srchNextCommand.turn s.world.grant (runningAt w (passAccepted w s).seq (clearResult (granted s))) := by
  have hturn : srchNextCommand.turn (accept w (granted s)) =
      srchNextCommand.turn (runningAt w (passAccepted w s).seq (clearResult (granted s))) := if_pos hactive
  obtain ⟨n, hn⟩ := Nat.exists_eq_add_of_le' hg
  rw [launch_idle hidle, hn, runTurns_succ _ _ rfl, runTurns_succ _ _ rfl, hturn]

/-- From where a later pass begins. -/
theorem launch_srchNext_later (hrun : s.seq.phase = .run) (w : Word) : launch w srchNextCommand.turn s =
    runTurns srchNextCommand.turn s.world.grant (runningAt s.cmd s.seq (granted s)) := launch_run hrun

theorem sessionPass_granted (s : State) : sessionPass (granted s) = nextPass s.sstat.alarm s := by
  simp [sessionPass, nextPass, granted]

theorem sessionPass_clearResult (s : State) : sessionPass (clearResult s) = sessionPass s := rfl

theorem answered_granted (s : State) (n : Nat) : answered (granted s).world n ↔ answered s.world n :=
  answered_accept 0#32 s n

/-- Settles O22: one pass, from where it begins to its end. -/
theorem searchNextEndsAsItsPassSays : Obligations.SearchNextEndsAsItsPassSays := by
  constructor
  · intro s hactive ⟨hidle, hg⟩ hans ho
    rw [← sessionPass_granted, ← sessionPass_clearResult] at hg hans ho ⊢
    rw [← answered_granted] at hans
    exact congrArg Host.Outcome.next ((launch_srchNext_first hidle hactive (by omega) _).trans
      (runTurns_srchNext_last (s := clearResult (granted s)) (passAccepted_begun _ s) hg hans ho _))
  · intro s hq hg hans ho
    rw [← sessionPass_granted] at hg hans ho ⊢
    rw [← answered_granted] at hans
    exact congrArg Host.Outcome.next ((launch_srchNext_later hq.1.1 _).trans
      (runTurns_srchNext_last (s := granted s) hq hg hans ho _))

/-- Settles O24: one retry, of the block with IDV and RETRIES cleared. -/
theorem firstBadPassRollsBack : Obligations.FirstBadPassRollsBack := by
  intro s hidle hactive hg hans ho
  rw [← sessionPass_granted, ← sessionPass_clearResult] at hg hans ho ⊢
  rw [← answered_granted] at hans
  obtain ⟨q, hbegun, hcmdw, hrun⟩ := runTurns_srchNext_rollsBack (s := clearResult (granted s))
    (passAccepted_begun (encode .srchNext) s) hans ho (retriesExceeded_first _) (encode .srchNext)
  refine ⟨q, hbegun, hcmdw, congrArg Host.Outcome.next ?_⟩
  rw [launch_srchNext_first hidle hactive (by omega), hg, hrun]
  rfl

/-- Settles O25: a later pass, past the bound and within it. -/
theorem badChecksumRollsBackOrEnds : Obligations.BadChecksumRollsBackOrEnds := by
  intro s hq hg hans ho
  rw [← sessionPass_granted] at hg hans ho ⊢
  rw [← answered_granted] at hans
  have hlaunch (w : Word) := launch_srchNext_later hq.1.1 w
  rw [hg] at hlaunch
  refine ⟨fun hbound => ?_, fun hbound => ?_⟩
  · have hrun := runTurns_srchNext_ends (s := granted s) hq hans ho ((retriesExceeded_iff _ _).mpr hbound) s.cmd
    exact congrArg Host.Outcome.next ((hlaunch _).trans hrun)
  · obtain ⟨q, hbegun, hcmdw, hrun⟩ := runTurns_srchNext_rollsBack (s := granted s) hq hans ho
      (Bool.eq_false_iff.mpr fun h => hbound ((retriesExceeded_iff _ _).mp h)) s.cmd
    refine ⟨q, hbegun, hcmdw, congrArg Host.Outcome.next (((hlaunch _).trans hrun).trans ?_)⟩
    simp only [afterPass_cmd]
    rfl

end Sys2Proof.Machine

/-! SUPPORT. What an error of SRCH.NEXT leaves alone (spec/42_search.md R179). -/

namespace Sys2Proof.Machine

variable {s t : State} {x : DWord × DWord × Word}

/-- What SRCH.NEXT writes only where it delivers an ID (R179). -/
def deliveredRegs (s : State) : DWord × DWord × Word := (s.mask, s.romid, s.idcount)

/-- SRCH.NEXT is running with the registers `x`, or has ended: well, or with `x` kept and its session closed. -/
inductive KeptUnlessWell (x : DWord × DWord × Word) (s : State) : Prop where
  | running (hrun : s.seq.phase = .run) (hregs : deliveredRegs s = x)
  | endedWell (hidle : s.seq.phase = .idle) (hok : s.status.errcode = .ok)
  | failed (hidle : s.seq.phase = .idle) (hregs : deliveredRegs s = x) (hclosed : s.sstat.active = false)

theorem nextFirst_keptUnlessWell (hrun : s.seq.phase = .run) (hregs : deliveredRegs s = x) :
    KeptUnlessWell x (nextFirst s) := by
  unfold nextFirst
  split
  · exact startRoundTrip_keeps (.running hrun hregs) (.failed rfl hregs rfl)
  · next hclosed => exact .failed rfl hregs (by simpa using hclosed)

theorem nextFinish_keptUnlessWell (o : PassOutcome) (hrun : s.seq.phase = .run) (hregs : deliveredRegs s = x) :
    KeptUnlessWell x (nextFinish o s) := by
  cases o with
  | noPresence | noResponse => exact .endedWell rfl rfl
  | violation => exact .failed rfl hregs rfl
  | crcBad =>
    simp only [nextFinish, nextRetry]
    split
    · exact .failed rfl hregs rfl
    · exact .running hrun hregs
  | valid =>
    simp only [nextFinish, deliver]
    split <;> exact .endedWell rfl rfl

theorem srchNext_turn_keptUnlessWell (hrun : s.seq.phase = .run) (hregs : deliveredRegs s = x) :
    KeptUnlessWell x (srchNextCommand.turn s) := by
  refine passTurn_keeps (srchNext_runsPass s.sstat) (fun _ => .failed rfl hregs rfl) (fun _ e => ?_)
    (fun _ _ _ => .running hrun hregs) (fun _ => .failed rfl hregs rfl) (fun _ _ => nextFirst_keptUnlessWell hrun hregs)
    (fun o _ _ => nextFinish_keptUnlessWell o hrun hregs)
  obtain ⟨q, hphase, -, -, -, -, he⟩ := passEcho_either (srchNext_runsPass s.sstat).alarm e (received s)
  rcases he with he | he | he <;> exact he ▸ .running (hphase.trans hrun) hregs

theorem runTurns_srchNext_keptUnlessWell (n : Nat) (hrun : s.seq.phase = .run) (hregs : deliveredRegs s = x) :
    KeptUnlessWell x (runTurns srchNextCommand.turn n s) := by
  refine runTurns_keeps (fun v hv hkept => ?_) n (.running hrun hregs)
  cases hkept with
  | running _ hregs => exact srchNext_turn_keptUnlessWell hv hregs
  | endedWell hidle | failed hidle => rw [hv] at hidle; cases hidle

theorem launch_srchNext_keptUnlessWell (w : Word) (s : State) :
    KeptUnlessWell (deliveredRegs s) (launch w srchNextCommand.turn s) := by
  cases hp : s.seq.phase with
  | idle =>
    rw [launch_idle hp]
    exact runTurns_srchNext_keptUnlessWell _ rfl rfl
  | run =>
    rw [launch_run hp]
    exact runTurns_srchNext_keptUnlessWell _ hp rfl

/-- Settles O26: of the three, only a failed end is idle with an error. -/
theorem failedSearchNextKeepsMask : Obligations.FailedSearchNextKeepsMask := by
  intro s t he hidle herr
  obtain rfl := Host.Outcome.next.inj he
  cases launch_srchNext_keptUnlessWell _ s with
  | running hrun => rw [hrun] at hidle; cases hidle
  | endedWell _ hok => exact absurd hok herr
  | failed _ hregs hclosed =>
    simp only [deliveredRegs, Prod.mk.injEq] at hregs
    obtain ⟨hmask, hromid, hidcount⟩ := hregs
    exact ⟨hmask, hromid, hidcount, hclosed⟩

end Sys2Proof.Machine

/-! SUPPORT. A pending abort at the boundary of a round trip: where a round trip is next it ends the command, where
none is left no turn sees it (spec/43_control.md R190, R191). -/

namespace Sys2Proof.Machine

variable {i : Instr} {c : Command} {n : Nat} {byteOf : DWord → Nat → Byte} {finish : State → State} {al : Bool}
  {ss : SStat} {s : State}

/-- Settles O30: the request in each phase, and the words of ABORT. -/
theorem abortOnlyRequests : Obligations.AbortOnlyRequests :=
  ⟨fun _ hidle => congrArg Host.Outcome.next (requestAbort_idle hidle),
    fun _ hrun => congrArg Host.Outcome.next (requestAbort_run hrun), fun _ => decode_abort_iff.mpr⟩

/-! ### Turns outside a round trip -/

theorem Command.turn_boundary (c : Command) (hf : s.seq.inFlight = false) : c.turn s = c.boundary s :=
  if_neg (by simp [hf])

/-- OW.RESET after its round trip. -/
theorem resetTurn_last (hf : s.seq.inFlight = false) (hn : roundTripNext .owReset s = false) :
    resetCommand.turn s = succeed s := by
  have hindex : s.seq.index ≠ 0 := by simpa [roundTripNext] using hn
  exact (resetCommand.turn_boundary hf).trans (if_neg hindex)

/-- A command of slots after its last slot. -/
theorem RunsSlots.turn_last (hc : RunsSlots c n byteOf finish) (hf : s.seq.inFlight = false)
    (hn : decide (s.seq.index < n) = false) : c.turn s = finish s := by
  rw [c.turn_boundary hf, hc.boundary, if_neg (of_decide_eq_false hn)]

/-- OW.WRBYTE where it makes no round trip: DATA is too large, or the last slot is done (R123). -/
theorem wrbyteTurn_last (hf : s.seq.inFlight = false) (hn : roundTripNext .owWrbyte s = false) :
    wrbyteCommand.turn s =
      if s.seq.index = 0 ∧ byteTooLarge s.data = true then raise .invalidByte s else succeed s := by
  rw [wrbyteCommand.turn_boundary hf]
  show wrbyteBoundary s = _
  unfold wrbyteBoundary
  split
  · rfl
  · next hsmall =>
    exact if_neg fun hslot => hsmall (by simpa [roundTripNext, hslot] using hn)

theorem Stage.exists_passEnd {g : Stage} (h : g.tripNext = false) : ∃ o, g = .passEnd o := by
  cases g with
  | passEnd o => exact ⟨o, rfl⟩
  | start | passReset | passCmd _ | value | complement _ | select _ => cases h

/-- A command of passes after the last round trip of a pass. -/
theorem RunsPass.turn_end (hc : RunsPass c al ss) (hf : s.seq.inFlight = false) {o : PassOutcome}
    (ho : s.seq.stage = .passEnd o) : c.turn s = hc.finish o s := by
  rw [c.turn_boundary hf, hc.boundary, passBoundary, ho]

/-! ### A round trip is next -/

theorem startRoundTrip_aborted (ha : s.seq.abortReq = true) (onError : State → State) (r : Rate) (b : Byte) :
    startRoundTrip onError r b s = raise .aborted (onError s) := if_pos ha

theorem resetTurn_aborted (hf : s.seq.inFlight = false) (ha : s.seq.abortReq = true)
    (hn : roundTripNext .owReset s = true) : resetCommand.turn s = raise .aborted s := by
  have hindex : s.seq.index = 0 := by simpa [roundTripNext] using hn
  exact ((resetCommand.turn_boundary hf).trans (if_pos hindex)).trans (startRoundTrip_aborted ha _ _ _)

theorem RunsSlots.turn_aborted (hc : RunsSlots c n byteOf finish) (hf : s.seq.inFlight = false)
    (ha : s.seq.abortReq = true) (hn : decide (s.seq.index < n) = true) : c.turn s = raise .aborted s := by
  rw [c.turn_boundary hf, hc.boundary, if_pos (of_decide_eq_true hn), startRoundTrip_aborted ha]
  rfl

theorem wrbyteTurn_aborted (hf : s.seq.inFlight = false) (ha : s.seq.abortReq = true)
    (hn : roundTripNext .owWrbyte s = true) : wrbyteCommand.turn s = raise .aborted s := by
  obtain ⟨hindex, hcheck⟩ := Bool.and_eq_true_iff.mp hn
  rcases wrbyteTurn_either s with ⟨-, hzero, hlarge, -⟩ | hslots
  · simp [hzero, hlarge] at hcheck
  · exact hslots.trans ((writeSlots_runsSlots 8).turn_aborted hf ha hindex)

/-- The first turn of a command of passes is its own; at every other round trip of a pass an abort ends it alike. -/
theorem RunsPass.turn_aborted (hc : RunsPass c al ss) (hf : s.seq.inFlight = false) (ha : s.seq.abortReq = true)
    (hn : s.seq.stage.tripNext = true) :
    c.turn s = if s.seq.stage = .start then hc.first s else raise .aborted (c.onError s) := by
  rw [c.turn_boundary hf, hc.boundary, passBoundary]
  cases hst : s.seq.stage with
  | start => rfl
  | passReset | passCmd _ | value | complement _ | select _ => exact startRoundTrip_aborted ha _ _ _
  | passEnd _ =>
    rw [hst] at hn
    cases hn

/-- The first turn of SRCH.NEXT with an open session clears IDV and RETRIES before its abort check (R179). -/
theorem nextFirst_aborted (ha : s.seq.abortReq = true) (hactive : s.sstat.active = true) :
    nextFirst s = raise .aborted (closeSession (clearResult s)) :=
  (if_pos hactive).trans (startRoundTrip_aborted (s := beginPass (clearResult s)) ha _ _ _)

theorem srchPassTurn_aborted (a : Bool) (hf : s.seq.inFlight = false) (ha : s.seq.abortReq = true)
    (hn : s.seq.stage.tripNext = true) : (srchPassCommand a).turn s = raise .aborted s := by
  rw [(srchPass_runsPass a s.sstat).turn_aborted hf ha hn]
  split
  · exact startRoundTrip_aborted (s := beginPass s) ha _ _ _
  · rfl

theorem srchNextTurn_aborted (hf : s.seq.inFlight = false) (ha : s.seq.abortReq = true)
    (hn : roundTripNext .srchNext s = true) : srchNextCommand.turn s = raise .aborted (abortWrites .srchNext s) := by
  obtain ⟨htrip, hopen⟩ := Bool.and_eq_true_iff.mp hn
  rw [(srchNext_runsPass s.sstat).turn_aborted hf ha htrip, abortWrites]
  split
  · next hst => exact nextFirst_aborted ha (by simpa [hst] using hopen)
  · rfl

/-- The turn of every command at a round trip, with an abort pending. -/
theorem Instr.turn_aborted (hf : s.seq.inFlight = false) (ha : s.seq.abortReq = true) (hn : roundTripNext i s = true) :
    Instr.turn i s = raise .aborted (abortWrites i s) := by
  cases i with
  | owReset => exact resetTurn_aborted hf ha hn
  | owWrbit b => exact (wrbit_runsSlots b).turn_aborted hf ha hn
  | owWrbits n => exact (writeSlots_runsSlots n).turn_aborted hf ha hn
  | owRdbit | owRdbits _ | owRdbyte => exact (readSlots_runsSlots _).turn_aborted hf ha hn
  | owWrbyte => exact wrbyteTurn_aborted hf ha hn
  | srchPass a => exact srchPassTurn_aborted a hf ha hn
  | srchNext => exact srchNextTurn_aborted hf ha hn
  | crcClr | crcBit _ | crcBits _ | srchBegin _ | abort => cases hn

theorem Instr.ne_abort_of_roundTripNext (hn : roundTripNext i s = true) : i ≠ .abort := by
  rintro rfl
  cases hn

theorem abortWrites_cmd (i : Instr) (s : State) : (abortWrites i s).cmd = s.cmd := by
  cases i with
  | srchNext =>
    simp only [abortWrites, closeSession_cmd]
    split <;> rfl
  | owReset | owWrbit _ | owRdbit | owWrbits _ | owRdbits _ | owWrbyte | owRdbyte | crcClr | crcBit _ | crcBits _
  | srchBegin _ | srchPass _ | abort => rfl

/-- Settles O31: the abort is the command's last turn. -/
theorem pendingAbortEndsCommandBeforeRoundTrip : Obligations.PendingAbortEndsCommandBeforeRoundTrip := by
  intro i s hrun hf ha hn hg
  have hturn : Instr.turn i (granted s) = raise .aborted (abortWrites i (granted s)) :=
    Instr.turn_aborted (s := granted s) hf ha hn
  rw [exec_launch (Instr.ne_abort_of_roundTripNext hn), launch_last hrun hg (by rw [hturn]; rfl), hturn, endedWith,
    ← show (raise .aborted (abortWrites i (granted s))).cmd = s.cmd from abortWrites_cmd i (granted s)]

/-! ### No round trip is left -/

/-- `s` with int.ABORTREQ set to `a`. -/
def withAbort (a : Bool) (s : State) : State := { s with seq := { s.seq with abortReq := a } }

theorem RunsSlots.turn_withAbort (hc : RunsSlots c n byteOf finish) (hfin : ∀ a s, finish (withAbort a s) = finish s)
    (hf : s.seq.inFlight = false) (hn : decide (s.seq.index < n) = false) (a : Bool) :
    c.turn (withAbort a s) = c.turn s := by
  rw [hc.turn_last hf hn, hc.turn_last (s := withAbort a s) hf hn, hfin]

theorem passFinish_withAbort (o : PassOutcome) (a : Bool) (s : State) :
    passFinish o (withAbort a s) = passFinish o s := by
  cases o <;> rfl

/-- After a pass SRCH.NEXT sees no abort, unless a CRC_BAD pass rolls back to another one. -/
theorem nextFinish_withAbort {o : PassOutcome} (hrun : s.seq.phase = .run) (hend : (nextFinish o s).seq.phase = .idle)
    (a : Bool) : nextFinish o (withAbort a s) = nextFinish o s := by
  cases o with
  | noPresence | noResponse | violation | valid => rfl
  | crcBad =>
    cases hbound : retriesExceeded (bumpRetries s.retries) s.retryLimit with
    | true =>
      have hlast := nextRetry_ends (s := writeOutcome .crcBad s) hbound
      have hlast' := nextRetry_ends (s := writeOutcome .crcBad (withAbort a s)) hbound
      exact hlast'.trans hlast.symm
    | false =>
      have hagain := nextRetry_rollsBack (s := writeOutcome .crcBad s) hbound
      rw [nextFinish, hagain] at hend
      exact absurd (hrun.symm.trans hend) nofun

theorem srchNextTurn_withAbort (hrun : s.seq.phase = .run) (hf : s.seq.inFlight = false)
    (hn : roundTripNext .srchNext s = false) (hend : (srchNextCommand.turn s).seq.phase = .idle) (a : Bool) :
    srchNextCommand.turn (withAbort a s) = srchNextCommand.turn s := by
  cases htrip : s.seq.stage.tripNext with
  | true =>
    obtain ⟨hst, hclosed⟩ : s.seq.stage = .start ∧ s.sstat.active = false := by
      simpa [roundTripNext, htrip] using hn
    rw [srchNext_turn_closed hst hf hclosed, srchNext_turn_closed (s := withAbort a s) hst hf hclosed]
    rfl
  | false =>
    obtain ⟨o, ho⟩ := Stage.exists_passEnd htrip
    rw [srchNext_turn_end hf ho] at hend ⊢
    rw [srchNext_turn_end (s := withAbort a s) hf ho, nextFinish_withAbort hrun hend]

/-- The last turn of a command, where it is no round trip, does not see whether an abort is pending. -/
theorem Instr.turn_withAbort (hi : i ≠ .abort) (hrun : s.seq.phase = .run) (hf : s.seq.inFlight = false)
    (hn : roundTripNext i s = false) (hend : (Instr.turn i s).seq.phase = .idle) (a : Bool) :
    Instr.turn i (withAbort a s) = Instr.turn i s := by
  cases i with
  | owReset => exact (resetTurn_last (s := withAbort a s) hf hn).trans (resetTurn_last hf hn).symm
  | owWrbit b => exact (wrbit_runsSlots b).turn_withAbort (fun _ _ => rfl) hf hn a
  | owWrbits n => exact (writeSlots_runsSlots n).turn_withAbort (fun _ _ => rfl) hf hn a
  | owRdbit | owRdbits _ | owRdbyte => exact (readSlots_runsSlots _).turn_withAbort (fun _ _ => rfl) hf hn a
  | owWrbyte => exact (wrbyteTurn_last (s := withAbort a s) hf hn).trans (wrbyteTurn_last hf hn).symm
  | crcClr | crcBit _ | crcBits _ | srchBegin _ => rfl
  | srchPass al =>
    obtain ⟨o, ho⟩ := Stage.exists_passEnd hn
    have hlast := (srchPass_runsPass al s.sstat).turn_end hf ho
    have hlast' := (srchPass_runsPass al s.sstat).turn_end (s := withAbort a s) hf ho
    exact hlast'.trans ((passFinish_withAbort o a s).trans hlast.symm)
  | srchNext => exact srchNextTurn_withAbort hrun hf hn hend a
  | abort => exact absurd rfl hi

/-- A running command that is granted one turn takes it. -/
theorem exec_turn (hi : i ≠ .abort) (hrun : s.seq.phase = .run) (hg : s.world.grant = 1) :
    exec i s = .next (Instr.turn i (granted s)) := by
  rw [exec_launch hi, launch_run hrun, hg, runTurns_succ (s := granted s) _ _ hrun, runTurns_zero]

/-- Settles O32: its one turn is the same with the abort as without. -/
theorem lateAbortIsDropped : Obligations.LateAbortIsDropped := by
  intro i s t hrun hf hi hn hg he hend
  obtain rfl := Host.Outcome.next.inj ((exec_turn (s := withAbort false s) hi hrun hg).symm.trans he)
  have hsame := Instr.turn_withAbort (s := granted (withAbort false s)) hi hrun hf hn hend true
  exact (exec_turn (s := withAbort true s) hi hrun hg).trans (congrArg Host.Outcome.next hsame)

end Sys2Proof.Machine

/-! SUPPORT. A pass on a shorted bus, where every slot samples 0 (spec/70_reset_and_hazards.md R252). -/

namespace Sys2Proof.Machine

/-- From mask 0 a shorted bus selects 1 at every position: candidate and mask are the same, with the bits below `p` set. -/
theorem exists_passReaches_shorted (a : Bool) {p : Nat} (hp : p ≤ 64) :
    ∃ w, PassReaches a 0#64 (fun _ => false) p w w ∧ ∀ k, k < 64 → w.getLsbD k = decide (k < p) := by
  induction p with
  | zero => exact ⟨0#64, passReaches_zero a 0#64 _, fun k _ => by simp⟩
  | succ p ih =>
    obtain ⟨w, hreach, hbits⟩ := ih (by omega)
    have hnone : noneAbove p w := fun k hk hk64 => (hbits k hk64).trans (decide_eq_false (by omega))
    have hbit : w.getLsbD p = false := (hbits p hp).trans (decide_eq_false (Nat.lt_irrefl p))
    have hch : choose false false p w = some (true, putBit w p true) := by
      simp [choose, resolve_of_noneAbove hnone, hbit]
    refine ⟨putBit w p true, hreach.succ hp hch, fun k hk => ?_⟩
    rw [putBit_getLsbD _ _ _ hp]
    split
    · next heq => simp [heq]
    · rw [hbits k hk, decide_eq_decide]; omega

theorem romCrc_allOnes : romCrc (BitVec.allOnes 64) = 0xC9#8 := by decide +kernel

/-- Settles O28: after the last position every bit is set. -/
theorem shortedBusPassIsBad : Obligations.ShortedBusPassIsBad := by
  unfold Obligations.ShortedBusPassIsBad
  obtain ⟨w, hreach, hbits⟩ := exists_passReaches_shorted false le_rfl
  obtain rfl : w = BitVec.allOnes 64 := BitVec.eq_of_getLsbD_eq fun k hk => by
    rw [hbits k hk, BitVec.getLsbD_allOnes]
  obtain ⟨sent, hlen, hpass⟩ := hreach.last
  intro r
  rw [show r = _ from hpass, romCrc_allOnes]
  exact ⟨rfl, rfl, rfl, rfl, by simp [PassResult.trips, hlen]⟩

end Sys2Proof.Machine

/-! SUPPORT. What block reset leaves, before a turn and inside one (spec/70_reset_and_hazards.md R240 to R242). -/

namespace Sys2Proof.Machine

variable {s t : State} {rest : List Move} {l : List SerialEvent}

/-- With nothing scheduled the sequencer's part of a step is at most one turn. -/
theorem sequencerStep_portTurn (h : sequencerStep (withMoves [] s) = .next t) : PortTurn s t := by
  rcases sequencerStep_cases h with ⟨-, rfl⟩ | rfl | ⟨hr, rfl⟩
  · exact .quiet rfl
  · exact .quiet (by rw [requestAbort_world]; rfl)
  · show PortTurn s (runTurns (wordTurn s.seq.cmdw) 1 (withMoves [] s))
    rw [runTurns_succ _ _ hr, runTurns_zero]
    cases (wordTurn_follows s.seq.cmdw (withMoves [] s)).port with
    | quiet h => exact .quiet h
    | transmit r b h => exact .transmit r b h
    | receive bytes h => exact .receive bytes h

/-- One turn that is no rate change with its transmit leaves nothing where block reset cuts it. -/
theorem PortTurn.untilTransmit_eq_nil (h : PortTurn s t)
    (hno : ∀ r b, t.world.events ≠ s.world.events ++ [.setRate r, .tx b]) :
    untilTransmit (t.world.events.drop s.world.events.length) = [] := by
  cases h with
  | quiet h => rw [h, List.drop_length]; rfl
  | receive bytes h => rw [h, List.drop_left]; rfl
  | transmit r b h =>
    rw [List.append_assoc] at h
    unfold rateEvents at h
    split at h
    · rw [h, List.drop_left]; rfl
    · exact absurd h (hno r b)

/-- A step of block reset inside a turn whose events count as `l` up to the cut. -/
theorem step_blockResetWithin (hm : s.world.moves = .blockResetAfterRate :: rest)
    (h : sequencerStep (withMoves [] s) = .next t)
    (hcut : untilTransmit (t.world.events.drop s.world.events.length) = l) :
    step s = .next { State.reset with
      world := { s.world with moves := rest, events := s.world.events ++ (l ++ [.setRate .reset]) } } := by
  rw [step_resetWithin hm h, ← List.append_assoc, ← hcut]
  rfl

/-- Settles O47: a reset before a turn keeps the history, one inside a turn keeps its rate change before a transmit. -/
theorem blockResetDiscardsEverything : Obligations.BlockResetDiscardsEverything := by
  refine ⟨fun rest s hm => step_blockReset hm, fun rest s t r b hm h hev => ?_, fun rest s t hm h hno => ?_⟩
  · have hcut : untilTransmit (t.world.events.drop s.world.events.length) = [.setRate r] := by
      rw [hev, List.drop_left]; rfl
    exact step_blockResetWithin hm h hcut
  · exact step_blockResetWithin hm h ((sequencerStep_portTurn h).untilTransmit_eq_nil hno)

end Sys2Proof.Machine
